-- ==== Sys2Proof/Word.lean ====
section
/-! DEFINITION. The byte, the 32-bit register word and the size of the address space. -/

namespace Sys2Proof

/-- One byte of memory, of a frame or of a checksum input (R60). -/
abbrev Byte := BitVec 8

/-- A 32-bit register value or address (`AW = LW = 32`, R3). -/
abbrev Word := BitVec 32

/-- The number of addresses of `MEM`: `2^AW` with `AW = 32` (R60). -/
abbrev memSize : Nat := 4294967296

end Sys2Proof
end

