-- ==== Sys2Proof/Config.lean ====
section
/-! DEFINITION. What an implementation fixes: the open parameters of R3 as one plain record (an argument of the
model, carried in the state, log 1), the values the spec fixes, and the free values behind `any` (R6). -/

namespace Sys2Proof

/-- `FFLAGS_LAYOUT` (R3, R95): which bit of the byte at offset 1 each frame flag is. `reserved0` is the bit that
becomes `FF_RESERVED[0]`, and so on (log 23). -/
structure FFlagsLayout where
  msgPending  : Fin 8
  rccReset    : Fin 8
  sdPresent   : Fin 8
  sdFull      : Fin 8
  datalogFile : Fin 8
  reserved0   : Fin 8
  reserved1   : Fin 8
  reserved2   : Fin 8
deriving DecidableEq, Repr

/-- `SFLAGS_LAYOUT` (R3, R98): which bit of the byte at offset 14 each service flag is. -/
structure SFlagsLayout where
  error     : Fin 8
  response  : Fin 8
  reserved0 : Fin 8
  reserved1 : Fin 8
  reserved2 : Fin 8
  reserved3 : Fin 8
  reserved4 : Fin 8
  reserved5 : Fin 8
deriving DecidableEq, Repr

/-- The eight positions of a frame-flags layout. -/
def FFlagsLayout.positions (l : FFlagsLayout) : List (Fin 8) :=
  [l.msgPending, l.rccReset, l.sdPresent, l.sdFull, l.datalogFile, l.reserved0, l.reserved1, l.reserved2]

/-- The eight positions of a service-flags layout. -/
def SFlagsLayout.positions (l : SFlagsLayout) : List (Fin 8) :=
  [l.error, l.response, l.reserved0, l.reserved1, l.reserved2, l.reserved3, l.reserved4, l.reserved5]

/-- The open parameters of R3, which "the model takes as arguments". No step changes them (log 1). -/
structure Config where
  /-- `START_MARKER`, the byte at frame offset 0 (R93). -/
  startMarker        : Byte
  /-- `FFLAGS_LAYOUT` (R95). -/
  fflags             : FFlagsLayout
  /-- `SFLAGS_LAYOUT` (R98). -/
  sflags             : SFlagsLayout
  /-- `ERR_INVALID_FRAME` (R212). -/
  errInvalidFrame    : BitVec 16
  /-- `ERR_BUFFER_TOO_SMALL` (R212). -/
  errBufferTooSmall  : BitVec 16
  /-- `ERR_DEVICE_NOT_FOUND`, written by the transport only (R216). -/
  errDeviceNotFound  : BitVec 16
  /-- `ERR_RESPONSE_TIMEOUT`, written by the transport only (R216). -/
  errResponseTimeout : BitVec 16
  /-- The port and I/O failure codes, written by the transport only (R216). -/
  errPortIo          : List (BitVec 16)
  /-- `NUM_CHANNELS` (R20). -/
  numChannels        : Nat
deriving DecidableEq, Repr

/-- The constraints R3 puts on the parameters. -/
abbrev Config.wf (c : Config) : Prop :=
  c.fflags.positions.Nodup ∧ c.sflags.positions.Nodup ∧
  c.errInvalidFrame ≠ 0 ∧ c.errBufferTooSmall ≠ 0 ∧ c.errInvalidFrame ≠ c.errBufferTooSmall ∧
  c.errDeviceNotFound ≠ 0 ∧ c.errResponseTimeout ≠ 0 ∧ 0 ∉ c.errPortIo ∧ 1 ≤ c.numChannels

/-- The default frame-flags layout of R95. PRESUMED (log 2): the spec's own general knowledge. -/
def FFlagsLayout.default : FFlagsLayout where
  msgPending := 0
  rccReset := 1
  sdPresent := 2
  sdFull := 3
  datalogFile := 4
  reserved0 := 5
  reserved1 := 6
  reserved2 := 7

/-- The default service-flags layout of R98. PRESUMED (log 2): the spec's own general knowledge. -/
def SFlagsLayout.default : SFlagsLayout where
  error := 0
  response := 1
  reserved0 := 2
  reserved1 := 3
  reserved2 := 4
  reserved3 := 5
  reserved4 := 6
  reserved5 := 7

/-- The defaults of R3. PRESUMED (log 2): the spec marks each as general knowledge, and `NUM_CHANNELS` as 1. -/
def Config.default : Config where
  startMarker := 0xAA
  fflags := FFlagsLayout.default
  sflags := SFlagsLayout.default
  errInvalidFrame := 0x0001
  errBufferTooSmall := 0x0086
  errDeviceNotFound := 0x0002
  errResponseTimeout := 0x0003
  errPortIo := [0x0081, 0x0082, 0x0083, 0x0084, 0x0085]
  numChannels := 1

/-- `SERVICE_READ` (R101). -/
def Config.serviceRead : Byte := 1

/-- `SERVICE_WRITE` (R101). -/
def Config.serviceWrite : Byte := 2

/-- `OBJ_USER_INFO` (R103). The block encodes and stores any other object type as well. -/
def Config.objUserInfo : BitVec 16 := 1

/-- `OBJ_PARAMETER` (R103). -/
def Config.objParameter : BitVec 16 := 2

/-- The free values behind `any` (R6): draw number `k` gives `freeValue k`, about which nothing is known. -/
opaque Config.freeValue : Nat → BitVec 32

end Sys2Proof
end

