-- ==== Sys2Proof/Machine/Bytes.lean ====
section
/-! DEFINITION. Byte order: little-endian, the byte at the lowest offset least significant (R62, R108). -/

namespace Sys2Proof.Machine

/-- The low `8n` bits of `v` as `n` bytes, least significant first (`le16`, `le32` of R6; the stores of R65). -/
def leBytes : Nat → Nat → List Byte
  | 0, _ => []
  | n + 1, v => BitVec.ofNat 8 v :: leBytes n (v / 256)

/-- The unsigned integer of a byte list, first byte least significant (R64, R108). -/
def leNat : List Byte → Nat
  | [] => 0
  | b :: bs => b.toNat + 256 * leNat bs

/-- The unsigned field of `n` bytes at offset `off` of a frame image (R108). -/
def fieldAt (bytes : List Byte) (off n : Nat) : Nat :=
  leNat ((bytes.drop off).take n)

end Sys2Proof.Machine
end

