-- ==== Sys2Proof/Machine/Checksum.lean ====
section
/-! DEFINITION. The rolling checksum function (R130, R131). -/

namespace Sys2Proof.Machine

/-- One byte into the accumulators `(A, B)`: `A <- A + byte`, then `B <- B + A` with the new `A`, both modulo 256
(R130). -/
def ckStep (acc : Byte × Byte) (b : Byte) : Byte × Byte :=
  (acc.1 + b, acc.2 + (acc.1 + b))

/-- The accumulators after a byte list, in list order (R130). -/
def ckRun (acc : Byte × Byte) (l : List Byte) : Byte × Byte :=
  l.foldl ckStep acc

/-- `CK_A_INIT`, `CK_B_INIT` (R3, R130). -/
def ckStart : Byte × Byte := (0xFF, 0x00)

/-- `B ## A` of a pair of accumulators (R130, R42). -/
def ckJoin (acc : Byte × Byte) : BitVec 16 := acc.2 ++ acc.1

/-- `cksum(L)` (R130). -/
def cksum (l : List Byte) : BitVec 16 := ckJoin (ckRun ckStart l)

end Sys2Proof.Machine
end

