-- ==== Sys2Proof/Machine/Flags.lean ====
section
/-! DEFINITION. The flag bytes: `unpack_ff` (R96) and `unpack_sf` (R99) under any layout of R95 and R98. -/

namespace Sys2Proof.Machine

/-- The six frame-flag sub-fields (R25). -/
structure FrameFlags where
  datalogFile : BitVec 1
  sdFull      : BitVec 1
  sdPresent   : BitVec 1
  rccReset    : BitVec 1
  msgPending  : BitVec 1
  reserved    : BitVec 3
deriving DecidableEq, Repr

/-- The three service-flag sub-fields (R28). -/
structure ServiceFlags where
  response : BitVec 1
  error    : BitVec 1
  reserved : BitVec 6
deriving DecidableEq, Repr

/-- Bit `i` of a byte as a 1-bit field (`v[i]`, R4). -/
def bitAt (b : Byte) (i : Fin 8) : BitVec 1 := BitVec.ofBool (b.getLsbD i.val)

/-- `unpack_ff(b)`: each field is the bits its layout assigns it (R96). -/
def unpackFf (l : FFlagsLayout) (b : Byte) : FrameFlags where
  datalogFile := bitAt b l.datalogFile
  sdFull := bitAt b l.sdFull
  sdPresent := bitAt b l.sdPresent
  rccReset := bitAt b l.rccReset
  msgPending := bitAt b l.msgPending
  reserved := bitAt b l.reserved2 ++ bitAt b l.reserved1 ++ bitAt b l.reserved0

/-- `unpack_sf(b)`: each field is the bits its layout assigns it (R99). -/
def unpackSf (l : SFlagsLayout) (b : Byte) : ServiceFlags where
  response := bitAt b l.response
  error := bitAt b l.error
  reserved := bitAt b l.reserved5 ++ bitAt b l.reserved4 ++ bitAt b l.reserved3 ++ bitAt b l.reserved2 ++
    bitAt b l.reserved1 ++ bitAt b l.reserved0

end Sys2Proof.Machine
end

