-- ==== Sys2Proof/Machine/Frame.lean ====
section
/-! DEFINITION. The wire image of a request (R91, R92, R105) and the selector by which the opcode table tells the
five message shapes apart (R107). -/

namespace Sys2Proof.Machine

/-- Offsets 1 to 11 of a request: a zero flags byte, the addresses, the payload length (R91, R94). -/
def headerRange (src dst : BitVec 32) (len : Nat) : List Byte :=
  0 :: (leBytes 4 src.toNat ++ leBytes 4 dst.toNat ++ leBytes 2 len)

/-- `FH` of a request, offsets 0 to 13: marker, header range, header checksum (R92, R105). -/
def requestHeader (sm : Byte) (src dst : BitVec 32) (len : Nat) : List Byte :=
  sm :: (headerRange src dst len ++ leBytes 2 (cksum (headerRange src dst len)).toNat)

/-- `PH`, the eight bytes of the property header (R102). -/
def propHeader (otype : BitVec 16) (oid : BitVec 32) (pid : BitVec 16) : List Byte :=
  leBytes 2 otype.toNat ++ leBytes 4 oid.toNat ++ leBytes 2 pid.toNat

/-- The payload of a property request: zero service flags, service id, property header, value (R97, R102, R104). -/
def requestPayload (sid : Byte) (otype : BitVec 16) (oid : BitVec 32) (pid : BitVec 16) (value : List Byte) :
    List Byte :=
  0 :: sid :: (propHeader otype oid pid ++ value)

/-- `FH SH PH V TR` of a property request (R92). -/
def requestFrame (sm : Byte) (src dst : BitVec 32) (sid : Byte) (otype : BitVec 16) (oid : BitVec 32)
    (pid : BitVec 16) (value : List Byte) : List Byte :=
  requestHeader sm src dst (10 + value.length) ++ requestPayload sid otype oid pid value ++
    leBytes 2 (cksum (requestPayload sid otype oid pid value)).toNat

/-- The service flags byte of a message, offset 14 (R97). -/
def sflagsByte (bytes : List Byte) : Byte := bytes.getD 14 0

/-- The service id byte of a message, offset 15 (R97). -/
def sidByte (bytes : List Byte) : Byte := bytes.getD 15 0

/-- The five message shapes of R107. -/
inductive Shape where
  | readRequest
  | writeRequest
  | readResponse
  | writeResponse
  | errorResponse
deriving DecidableEq, Repr

/-- The shape that a message's selector `SID ## SFLAGS` names (R107 and the table's FRAME rows): a request has an
all-zero service flags byte; a response is told by its response and error flags, and a response without the error
flag by the service id that a well-behaved responder sends. -/
def shapeOf (l : SFlagsLayout) (sflags sid : Byte) : Option Shape :=
  if sflags = 0 then
    if sid = Config.serviceRead then some .readRequest
    else if sid = Config.serviceWrite then some .writeRequest
    else none
  else if (unpackSf l sflags).response = 0 then none
  else if (unpackSf l sflags).error = 1 then some .errorResponse
  else if sid = Config.serviceRead then some .readResponse
  else if sid = Config.serviceWrite then some .writeResponse
  else none

end Sys2Proof.Machine
end

