-- ==== Sys2Proof/Syntax.lean ====
section
/-! DEFINITION. The instructions: one constructor per row of spec/opcode_table.json (thirteen operations, R110, and
five wire message shapes, R107), and the packets in which the host hands them to the block. -/

namespace Sys2Proof

/-- One constructor per row of the opcode table. The thirteen operations take their operands from registers
(R111). A request shape carries the fields of the frame to build (R91, R114); a response shape carries the
received bytes, of which its selector (offsets 14 and 15) is a part. -/
inductive Instr where
  /-- CMD 0x10 (R134). -/
  | ckInit
  /-- CMD 0x11 (R135). -/
  | ckUpdate
  /-- CMD 0x12 (R136). -/
  | ckRange
  /-- CMD 0x01 (R150). -/
  | frameInit
  /-- CMD 0x02 (R154). -/
  | encodeRequest
  /-- CMD 0x03 (R158). -/
  | decodeFrameHeader
  /-- CMD 0x04 (R160). -/
  | decodeFrameData
  /-- A host read of register number 0x13 (R164). -/
  | frameLength
  /-- CMD 0x08 (R180). -/
  | propInit
  /-- CMD 0x09 (R183). -/
  | encodeRead
  /-- CMD 0x0A (R185). -/
  | encodeWrite
  /-- CMD 0x0B (R190). -/
  | decodeReadProperty
  /-- CMD 0x0C (R193). -/
  | decodeWriteProperty
  /-- FRAME.READ_REQUEST (R107): the fields SRC, DST, OTYPE, OID, PID. -/
  | frameReadRequest (src dst : BitVec 32) (otype : BitVec 16) (oid : BitVec 32) (pid : BitVec 16)
  /-- FRAME.WRITE_REQUEST (R107): the same fields and VALUE. -/
  | frameWriteRequest (src dst : BitVec 32) (otype : BitVec 16) (oid : BitVec 32) (pid : BitVec 16)
      (value : List (BitVec 8))
  /-- FRAME.READ_RESPONSE (R107): the bytes received, from offset 0. -/
  | frameReadResponse (bytes : List (BitVec 8))
  /-- FRAME.WRITE_RESPONSE (R107): the bytes received, from offset 0. -/
  | frameWriteResponse (bytes : List (BitVec 8))
  /-- FRAME.ERROR_RESPONSE (R107): the bytes received, from offset 0. -/
  | frameErrorResponse (bytes : List (BitVec 8))
deriving DecidableEq, Repr

/-- What the host hands to the block: the table's three formats CMD, REGREAD and FRAME. -/
inductive Packet where
  /-- A write of a command code to `CMD` (R43). -/
  | cmd (code : BitVec 8)
  /-- A read of a register, by number (R44). -/
  | regRead (num : BitVec 8)
  /-- A message, from frame offset 0 (R91). -/
  | frame (bytes : List (BitVec 8))
deriving DecidableEq, Repr

end Sys2Proof
end

