-- ==== Sys2Proof/WellFormed.lean ====
section
/-! DEFINITION. Which instructions have an encoding: the thirteen operations all do; a write request's value must fit
the 16-bit length field (R250); a response must hold its service header and have the shape it is named for (R107). -/

namespace Sys2Proof

open Sys2Proof.Machine

/-- A received message long enough to hold its selector, offsets 0 to 15, and of the given shape (R97, R107). -/
def messageWf (c : Config) (sh : Shape) (bytes : List Byte) : Bool :=
  decide (16 ≤ bytes.length) && decide (shapeOf c.sflags (sflagsByte bytes) (sidByte bytes) = some sh)

/-- Well-formed instructions under the parameters `c`. -/
def Instr.wf (c : Config) : Instr → Bool
  | .ckInit => true
  | .ckUpdate => true
  | .ckRange => true
  | .frameInit => true
  | .encodeRequest => true
  | .decodeFrameHeader => true
  | .decodeFrameData => true
  | .frameLength => true
  | .propInit => true
  | .encodeRead => true
  | .encodeWrite => true
  | .decodeReadProperty => true
  | .decodeWriteProperty => true
  | .frameReadRequest _ _ _ _ _ => true
  | .frameWriteRequest _ _ _ _ _ value => decide (value.length ≤ 65525)
  | .frameReadResponse bytes => messageWf c .readResponse bytes
  | .frameWriteResponse bytes => messageWf c .writeResponse bytes
  | .frameErrorResponse bytes => messageWf c .errorResponse bytes

end Sys2Proof
end

