-- ==== Sys2Proof/Decode.lean ====
section
/-! DEFINITION. The decoder, total on every packet and rejecting by name, and the encoder beside it, both from the
tables of 30_encoding.md (R91, R107, R110). -/

namespace Sys2Proof

open Sys2Proof.Machine

/-- Why a packet is no instruction of the table. -/
inductive DecodeError where
  /-- A command code outside R110 (R112). -/
  | reservedCommand (code : BitVec 8)
  /-- A read of a register other than 0x13: a host access, no operation (R110). -/
  | notAnOperation (num : BitVec 8)
  /-- A message that ends before the fields its shape has (R92). -/
  | shortMessage (length : Nat)
  /-- A selector of none of the five shapes (R107). -/
  | unknownShape (sflags sid : BitVec 8)
deriving DecidableEq, Repr

/-- The operation of a command code (R110); the other codes are reserved (R112). -/
def decodeCmd (code : BitVec 8) : Except DecodeError Instr :=
  match code.toNat with
  | 0x01 => .ok .frameInit
  | 0x02 => .ok .encodeRequest
  | 0x03 => .ok .decodeFrameHeader
  | 0x04 => .ok .decodeFrameData
  | 0x08 => .ok .propInit
  | 0x09 => .ok .encodeRead
  | 0x0A => .ok .encodeWrite
  | 0x0B => .ok .decodeReadProperty
  | 0x0C => .ok .decodeWriteProperty
  | 0x10 => .ok .ckInit
  | 0x11 => .ok .ckUpdate
  | 0x12 => .ok .ckRange
  | _ => .error (.reservedCommand code)

/-- The only register read that is an operation is that of `FRAME_LEN`, 0x13 (R110). -/
def decodeRegRead (num : BitVec 8) : Except DecodeError Instr :=
  if num = 0x13 then .ok .frameLength else .error (.notAnOperation num)

/-- SRC, offsets 2 to 5 (R91). -/
def imageSrc (bytes : List Byte) : BitVec 32 := BitVec.ofNat 32 (fieldAt bytes 2 4)

/-- DST, offsets 6 to 9 (R91). -/
def imageDst (bytes : List Byte) : BitVec 32 := BitVec.ofNat 32 (fieldAt bytes 6 4)

/-- LEN, offsets 10 and 11 (R91, R100). -/
def imageLen (bytes : List Byte) : Nat := fieldAt bytes 10 2

/-- OTYPE, offsets 16 and 17 (R91). -/
def imageOtype (bytes : List Byte) : BitVec 16 := BitVec.ofNat 16 (fieldAt bytes 16 2)

/-- OID, offsets 18 to 21 (R91). -/
def imageOid (bytes : List Byte) : BitVec 32 := BitVec.ofNat 32 (fieldAt bytes 18 4)

/-- PID, offsets 22 and 23 (R91). -/
def imagePid (bytes : List Byte) : BitVec 16 := BitVec.ofNat 16 (fieldAt bytes 22 2)

/-- VALUE, the `LEN - 10` bytes from offset 24 (R91, R104). DESIGN CHOICE where LEN disagrees with the image (log 12):
an image that ends earlier gives the bytes it has, a LEN below 10 gives none, and bytes beyond are not looked at. -/
def imageValue (bytes : List Byte) : List Byte := (bytes.drop 24).take (imageLen bytes - 10)

/-- The message a frame image is (R107). A request is read for the fields its sender chooses (R114); its marker, its
zero flags byte and its two checksums follow from them, and a read request's length is always 10. The spec decodes no
request (R2), so that none of these is tested, nor a write request's length against its bytes, is a DESIGN CHOICE
(log 12). -/
def decodeFrame (c : Config) (bytes : List Byte) : Except DecodeError Instr :=
  if bytes.length < 16 then .error (.shortMessage bytes.length)
  else
    match shapeOf c.sflags (sflagsByte bytes) (sidByte bytes) with
    | none => .error (.unknownShape (sflagsByte bytes) (sidByte bytes))
    | some .readResponse => .ok (.frameReadResponse bytes)
    | some .writeResponse => .ok (.frameWriteResponse bytes)
    | some .errorResponse => .ok (.frameErrorResponse bytes)
    | some .readRequest =>
      if bytes.length < 24 then .error (.shortMessage bytes.length)
      else .ok (.frameReadRequest (imageSrc bytes) (imageDst bytes) (imageOtype bytes) (imageOid bytes)
        (imagePid bytes))
    | some .writeRequest =>
      if bytes.length < 24 then .error (.shortMessage bytes.length)
      else .ok (.frameWriteRequest (imageSrc bytes) (imageDst bytes) (imageOtype bytes) (imageOid bytes)
        (imagePid bytes) (imageValue bytes))

/-- The decoder. -/
def decode (c : Config) : Packet → Except DecodeError Instr
  | .cmd code => decodeCmd code
  | .regRead num => decodeRegRead num
  | .frame bytes => decodeFrame c bytes

/-- The encoder: the command code of R110, the register number of R110, or the frame of R91 and R92. -/
def encode (c : Config) : Instr → Packet
  | .ckInit => .cmd 0x10
  | .ckUpdate => .cmd 0x11
  | .ckRange => .cmd 0x12
  | .frameInit => .cmd 0x01
  | .encodeRequest => .cmd 0x02
  | .decodeFrameHeader => .cmd 0x03
  | .decodeFrameData => .cmd 0x04
  | .frameLength => .regRead 0x13
  | .propInit => .cmd 0x08
  | .encodeRead => .cmd 0x09
  | .encodeWrite => .cmd 0x0A
  | .decodeReadProperty => .cmd 0x0B
  | .decodeWriteProperty => .cmd 0x0C
  | .frameReadRequest src dst otype oid pid =>
    .frame (requestFrame c.startMarker src dst Config.serviceRead otype oid pid [])
  | .frameWriteRequest src dst otype oid pid value =>
    .frame (requestFrame c.startMarker src dst Config.serviceWrite otype oid pid value)
  | .frameReadResponse bytes => .frame bytes
  | .frameWriteResponse bytes => .frame bytes
  | .frameErrorResponse bytes => .frame bytes

/-- The packet of a table word: 8 bits are a command code, or the register number 0x13 of the REGREAD row (0x13 is
no command code, R112; log 10); more bits are the selector at offsets 14 and 15 of a frame whose other bytes are 0
(log 11). -/
def tablePacket (nbits w : Nat) : Packet :=
  if nbits ≤ 8 then
    if w = 0x13 then .regRead 0x13 else .cmd (BitVec.ofNat 8 w)
  else .frame (List.replicate 14 0 ++ leBytes 2 w ++ List.replicate 12 0)

/-- The instruction the decoder reads from a table word, under the default parameters (the table's own). -/
def decodeTableWord (nbits w : Nat) : Option Instr :=
  (decode Config.default (tablePacket nbits w)).toOption

/-- A row of the opcode table: the format and, over its bits, match and mask. -/
structure TableRow where
  format : String
  value  : Nat
  mask   : Nat
deriving DecidableEq, Repr

/-- The row of spec/opcode_table.json that an instruction stands for. -/
def Instr.row : Instr → TableRow
  | .ckInit => ⟨"CMD", 0x10, 0xFF⟩
  | .ckUpdate => ⟨"CMD", 0x11, 0xFF⟩
  | .ckRange => ⟨"CMD", 0x12, 0xFF⟩
  | .frameInit => ⟨"CMD", 0x01, 0xFF⟩
  | .encodeRequest => ⟨"CMD", 0x02, 0xFF⟩
  | .decodeFrameHeader => ⟨"CMD", 0x03, 0xFF⟩
  | .decodeFrameData => ⟨"CMD", 0x04, 0xFF⟩
  | .frameLength => ⟨"REGREAD", 0x13, 0xFF⟩
  | .propInit => ⟨"CMD", 0x08, 0xFF⟩
  | .encodeRead => ⟨"CMD", 0x09, 0xFF⟩
  | .encodeWrite => ⟨"CMD", 0x0A, 0xFF⟩
  | .decodeReadProperty => ⟨"CMD", 0x0B, 0xFF⟩
  | .decodeWriteProperty => ⟨"CMD", 0x0C, 0xFF⟩
  | .frameReadRequest _ _ _ _ _ => ⟨"FRAME", 0x0100, 0xFFFF⟩
  | .frameWriteRequest _ _ _ _ _ _ => ⟨"FRAME", 0x0200, 0xFFFF⟩
  | .frameReadResponse _ => ⟨"FRAME", 0x0102, 0xFF03⟩
  | .frameWriteResponse _ => ⟨"FRAME", 0x0202, 0xFF03⟩
  | .frameErrorResponse _ => ⟨"FRAME", 0x0003, 0x0003⟩

/-- The format of a packet, as the table names it. -/
def Packet.format : Packet → String
  | .cmd _ => "CMD"
  | .regRead _ => "REGREAD"
  | .frame _ => "FRAME"

/-- The bits of a packet that the table's match and mask are over: the code, the register number, or the selector
`SID ## SFLAGS`. -/
def Packet.tableBits : Packet → Nat
  | .cmd code => code.toNat
  | .regRead num => num.toNat
  | .frame bytes => (sflagsByte bytes).toNat + 256 * (sidByte bytes).toNat

/-- A packet has a row's format and, under the row's mask, its match. -/
def Packet.fits (p : Packet) (r : TableRow) : Prop :=
  p.format = r.format ∧ p.tableBits &&& r.mask = r.value

end Sys2Proof
end

