-- ==== Sys2Proof/Machine/State.lean ====
section
/-! DEFINITION. The machine's state as plain data: every register of R44 per channel, the ghost PHASE (R47), the
memory (R60), the parameters of R3, the host's accesses still to come, and the reasons a step can stop. -/

namespace Sys2Proof.Machine

/-- The ghost PHASE (R47): tracked, never read by an operation. -/
inductive Phase where
  | new
  | encoded
  | headerDecoded
  | dataDecoded
deriving DecidableEq, Repr

/-- One channel: the Frame record (R21 to R30), the Property record (R33 to R39), the checksum accumulators (R42),
the operand registers (R43) and the ghost PHASE (R47). `CMD`, `FRAME_LEN`, `VALUE_OFF` and `CK_SUM` are not stored
(R43, R31, R38, R42). -/
structure Channel where
  /-- `OP_A` (R43). -/
  opA           : BitVec 32
  /-- `OP_B` (R43). -/
  opB           : BitVec 32
  /-- `BUF_BASE` (R22). -/
  bufBase       : BitVec 32
  /-- `CAPACITY` (R23). -/
  capacity      : BitVec 32
  /-- `LAST_ERROR` (R24). -/
  lastError     : BitVec 16
  /-- `FF_DATALOG_FILE` (R25). -/
  ffDatalogFile : BitVec 1
  /-- `FF_SD_FULL` (R25). -/
  ffSdFull      : BitVec 1
  /-- `FF_SD_PRESENT` (R25). -/
  ffSdPresent   : BitVec 1
  /-- `FF_RCC_RESET` (R25). -/
  ffRccReset    : BitVec 1
  /-- `FF_MSG_PENDING` (R25). -/
  ffMsgPending  : BitVec 1
  /-- `FF_RESERVED` (R25). -/
  ffReserved    : BitVec 3
  /-- `SRC_ADDR` (R26). -/
  srcAddr       : BitVec 32
  /-- `DST_ADDR` (R27). -/
  dstAddr       : BitVec 32
  /-- `SF_RESPONSE` (R28). -/
  sfResponse    : BitVec 1
  /-- `SF_ERROR` (R28). -/
  sfError       : BitVec 1
  /-- `SF_RESERVED` (R28). -/
  sfReserved    : BitVec 6
  /-- `SERVICE_ID` (R29). -/
  serviceId     : BitVec 8
  /-- `DATA_LEN` (R30). -/
  dataLen       : BitVec 32
  /-- `OBJ_TYPE` (R34). -/
  objType       : BitVec 16
  /-- `OBJ_ID` (R35). -/
  objId         : BitVec 32
  /-- `PROP_ID` (R36). -/
  propId        : BitVec 16
  /-- `VALUE_LEN` (R37). -/
  valueLen      : BitVec 32
  /-- `VALUE_MAX`, 33 bits two's complement (R39). -/
  valueMax      : BitVec 33
  /-- `CK_A` (R42). -/
  ckA           : BitVec 8
  /-- `CK_B` (R42). -/
  ckB           : BitVec 8
  /-- PHASE, ghost (R47). -/
  phase         : Phase
deriving DecidableEq, Repr

/-- What the host or the transport does at a channel's port (R113, R24). -/
inductive Action where
  /-- A host write of a register by number (R44); number 0x00 is `CMD` (R43). -/
  | writeReg (num : BitVec 8) (value : BitVec 32)
  /-- A host read of a register by number (R44). -/
  | readReg (num : BitVec 8)
  /-- `STORE k: bytes`: a store at buffer offsets `k, k+1, ...` (R113). -/
  | store (offset : Nat) (bytes : List (BitVec 8))
  /-- `LOAD k, m`: a read of `m` bytes from buffer offset `k` (R113). -/
  | load (offset count : Nat)
  /-- One message of the five shapes: its pseudo-operation (R107, R114; log 9). -/
  | message (bytes : List (BitVec 8))
  /-- The transport reports *device not found* (R216). -/
  | deviceNotFound
  /-- The transport reports *response timeout* (R216). -/
  | responseTimeout
  /-- The transport reports its port or I/O failure number `k` (R216). -/
  | portIoFailure (k : Nat)
deriving DecidableEq, Repr

/-- One access from outside the block. -/
inductive Access where
  /-- An action at the port of channel `chan`. -/
  | port (chan : Nat) (act : Action)
  /-- A store to `MEM` by address, by the host or the transport (R60). -/
  | memStore (addr : Nat) (bytes : List (BitVec 8))
  /-- A read of `MEM` by address, by the host or the transport (R60). -/
  | memLoad (addr count : Nat)
  /-- The hardware reset, which acts on all channels at once (R240). -/
  | reset
deriving DecidableEq, Repr

/-- What a host read returned. -/
inductive Reply where
  /-- No read yet. -/
  | none
  /-- A register's value, zero-extended to 33 bits; `VALUE_MAX` is its 33 bits as they are (R39; log 25). -/
  | value (v : BitVec 33)
  /-- The bytes of a LOAD, lowest address first. -/
  | bytes (l : List (BitVec 8))
deriving DecidableEq, Repr

/-- The machine. The channels, in order, are `before ++ ch :: after`, and `ch` is the one selected (log 16). -/
structure State where
  /-- The parameters of R3: constant (log 1). -/
  config : Config
  /-- The channels numbered below the selected one. -/
  before : List Channel
  /-- The selected channel, the one an operation acts on. -/
  ch     : Channel
  /-- The channels numbered above the selected one. -/
  after  : List Channel
  /-- `MEM` (R60): the bytes that are not `memFill`, in rising order of address. -/
  mem    : List Host.Cell
  /-- The accesses still to come, oldest first. The model's own field (log 7). -/
  inbox  : List Access
  /-- What the last host read returned. The model's own field (log 7). -/
  reply  : Reply
  /-- How many free values have been drawn. The model's own field (log 5). -/
  draws  : Nat
deriving DecidableEq, Repr

/-- The machine stops with a fault: an access to something that does not exist. The spec gives the block no trap
(R210), so none of these is the block's; each is safe. -/
inductive Fault where
  /-- An access to an address outside `MEM` (R60): raised by a host store or load that runs past the top, and by a
  buffer access of a state, never reached, whose buffer runs past the top. Safe. -/
  | noSuchAddress (addr : Nat)
  /-- An access to the port of a channel that does not exist (R20): raised when the access is taken from the inbox.
  Safe. -/
  | noSuchChannel (chan : Nat)
deriving DecidableEq, Repr

/-- The rules give the step no meaning. Each is safe: the spec asks for the refusal, or gives no effect. -/
inductive Refusal where
  /-- An instruction without a meaning, by its mnemonic: raised by `exec` only. Safe. -/
  | notModelled (mnemonic : String)
  /-- `OutOfBuffer(k)` (R66): an operation that accesses a buffer offset outside `0 .. CAPACITY-1`. Safe. -/
  | outOfBuffer (offset : Nat)
  /-- FRAME_INIT with `OP_A + OP_B > 2^AW` (R152). Safe. -/
  | bufferPastTop (base capacity : BitVec 32)
  /-- ENCODE_WRITE with `10 + VALUE_LEN >= 2^32` (R187). Safe. -/
  | dataLenOverflow (valueLen : BitVec 32)
  /-- A write of a reserved command code (R112). Safe. -/
  | reservedCommand (code : BitVec 8)
  /-- A host write whose value does not fit the register, which R5 requires it to (log 14). Safe. -/
  | valueTooWide (num : BitVec 8) (value : Nat)
  /-- A message that ends before its fields do: no instruction of the table (R92). Safe. -/
  | shortMessage (length : Nat)
  /-- A message whose selector is none of the five shapes: no instruction of the table (R107). Safe. -/
  | unknownShape (sflags sid : BitVec 8)
  /-- A read of a register that is no operation; a step answers such a read itself, so this is never raised by one.
  Safe. -/
  | notAnOperation (num : BitVec 8)
  /-- The transport reports a port or I/O failure number that the parameters give no code (R212). Safe. -/
  | unknownPortFailure (k : Nat)
deriving DecidableEq, Repr

/-- A channel after the hardware reset (R50, R240): `LAST_ERROR`, `CAPACITY`, `VALUE_MAX`, `CK_A`, `CK_B` and PHASE as
the spec states; every other register is unspecified there and 0 here. DESIGN CHOICE, unsafe (log 3). -/
def Channel.reset : Channel where
  opA := 0
  opB := 0
  bufBase := 0
  capacity := 0
  lastError := 0
  ffDatalogFile := 0
  ffSdFull := 0
  ffSdPresent := 0
  ffRccReset := 0
  ffMsgPending := 0
  ffReserved := 0
  srcAddr := 0
  dstAddr := 0
  sfResponse := 0
  sfError := 0
  sfReserved := 0
  serviceId := 0
  dataLen := 0
  objType := 0
  objId := 0
  propId := 0
  valueLen := 0
  valueMax := -24
  ckA := 0xFF
  ckB := 0x00
  phase := .new

/-- The machine right after reset under the parameters `c`: every channel in its reset state (R226), nothing listed in
memory (log 4), no access to come (log 8). -/
def State.resetWith (c : Config) : State where
  config := c
  before := []
  ch := Channel.reset
  after := List.replicate (c.numChannels - 1) Channel.reset
  mem := []
  inbox := []
  reply := .none
  draws := 0

/-- The machine right after reset, under the default parameters of R3 (log 2). -/
def State.reset : State := State.resetWith Config.default

end Sys2Proof.Machine
end

