-- ==== Sys2Proof/Machine/Memory.lean ====
section
/-! DEFINITION. `MEM` (R60): plain bytes by address, in one canonical form. -/

namespace Sys2Proof.Machine

/-- What an address that nothing has written reads as. The spec leaves it open (R50, U9). DESIGN CHOICE, unsafe
(log 4). -/
def memFill : Byte := 0

/-- The byte at an address: the last one written there (R69). -/
def memGet : List Host.Cell → Nat → Byte
  | [], _ => memFill
  | c :: cs, a => if c.1 = a then c.2 else memGet cs a

/-- Put a byte at an address, keeping the canonical form. -/
def memPut : List Host.Cell → Nat → Byte → List Host.Cell
  | [], a, v => if v = memFill then [] else [(a, v)]
  | c :: cs, a, v =>
    if a < c.1 then (if v = memFill then c :: cs else (a, v) :: c :: cs)
    else if a = c.1 then (if v = memFill then cs else (a, v) :: cs)
    else c :: memPut cs a v

/-- The bytes at `n` addresses from `a` up, lowest first. -/
def memLoadBytes (m : List Host.Cell) : Nat → Nat → List Byte
  | _, 0 => []
  | a, n + 1 => memGet m a :: memLoadBytes m (a + 1) n

/-- Put a byte list at `a` and up, in ascending order. -/
def memStoreBytes (m : List Host.Cell) : Nat → List Byte → List Host.Cell
  | _, [] => m
  | a, b :: bs => memStoreBytes (memPut m a b) (a + 1) bs

/-- The canonical form: addresses strictly rising and inside `MEM`, no entry equal to what an unlisted address reads
as. -/
abbrev memWf (m : List Host.Cell) : Prop :=
  m.Pairwise (fun c d => c.1 < d.1) ∧ ∀ c ∈ m, c.1 < memSize ∧ c.2 ≠ memFill

end Sys2Proof.Machine
end

