-- ==== Sys2Proof/Machine/Ops.lean ====
section
/-! DEFINITION. The named operations over the state: field updates, the buffer access primitives of 20_memory.md (R64,
R65, R6), the recording and the clearing of an error (R210, R220), and the drawing of free values (R6). -/

namespace Sys2Proof.Machine

/-- Why an operation has no next state. -/
inductive Stop where
  /-- A fault of the model. -/
  | fault (r : Fault)
  /-- A refusal of the model. -/
  | refuse (r : Refusal)
deriving DecidableEq, Repr

/-- What running a sequence of pseudocode statements gives: its result, or the stop that ends the whole operation
with nothing of it done (R66). -/
abbrev Run := Except Stop

/-- The outcome of a step from the run of an operation. -/
def outcome : Run State → Host.Outcome State Fault Refusal
  | .ok s => .next s
  | .error (.fault r) => .fault r
  | .error (.refuse r) => .refused r

/-- `s` with the selected channel replaced. -/
def State.setCh (s : State) (c : Channel) : State := { s with ch := c }

/-- `s` with the memory replaced. -/
def State.setMem (s : State) (m : List Host.Cell) : State := { s with mem := m }

/-- `s` with the inbox replaced. -/
def State.setInbox (s : State) (l : List Access) : State := { s with inbox := l }

/-- `s` with the last reply replaced. -/
def State.setReply (s : State) (r : Reply) : State := { s with reply := r }

/-- `s` after `n` more free values have been drawn. -/
def State.addDraws (s : State) (n : Nat) : State := { s with draws := s.draws + n }

/-- All channels, in order of number (R20). -/
def State.channels (s : State) : List Channel := s.before ++ s.ch :: s.after

/-- `any` (R6): the next free value but `k`, as a value of `w` bits. -/
def State.anyValue (s : State) (w k : Nat) : BitVec w := (Config.freeValue (s.draws + k)).setWidth w

/-! ### The buffer (R61, R63 to R66) -/

/-- The check before an access to buffer offset `k` (R64, R65): the offset is in `0 .. CAPACITY-1`, or the whole
operation is refused (R66). An address past the top of `MEM` cannot arise once FRAME_INIT has bound the buffer (R63);
in other states it faults (log 13). -/
def bufCheck (s : State) (k : Nat) : Run Nat :=
  if k < s.ch.capacity.toNat then
    if s.ch.bufBase.toNat + k < memSize then .ok (s.ch.bufBase.toNat + k)
    else .error (.fault (.noSuchAddress (s.ch.bufBase.toNat + k)))
  else .error (.refuse (.outOfBuffer k))

/-- The byte at buffer offset `k`: `MemRead(k, 1)` (R64). -/
def bufReadByte (s : State) (k : Nat) : Run Byte := do
  let a ← bufCheck s k
  .ok (memGet s.mem a)

/-- One byte to buffer offset `k` (R65). -/
def bufWriteByte (s : State) (k : Nat) (b : Byte) : Run State := do
  let a ← bufCheck s k
  .ok (s.setMem (memPut s.mem a b))

/-- `Bytes(k, m)`: the `m` bytes at offsets `k` and up, read in ascending order (R6). -/
def bufBytes (s : State) : Nat → Nat → Run (List Byte)
  | _, 0 => .ok []
  | k, m + 1 => do
    let b ← bufReadByte s k
    let bs ← bufBytes s (k + 1) m
    .ok (b :: bs)

/-- A byte list to offsets `k` and up, written in ascending order. -/
def bufStore (s : State) : Nat → List Byte → Run State
  | _, [] => .ok s
  | k, b :: bs => do
    let s' ← bufWriteByte s k b
    bufStore s' (k + 1) bs

/-- `MemRead(k, n)`: `n` single bytes in ascending order, assembled little-endian (R64). -/
def memRead (s : State) (k n : Nat) : Run Nat := do
  let bs ← bufBytes s k n
  .ok (leNat bs)

/-- `MemWrite(k, n, v)`: the low `8n` bits of `v`, least significant byte at the lowest offset (R65). -/
def memWrite (s : State) (k n v : Nat) : Run State := bufStore s k (leBytes n v)

/-! ### Errors: the block's only exception mechanism (R210) -/

/-- Recording an error: `LAST_ERROR <- code`, unconditional, nothing else saved (R210, R217). -/
def recordError (s : State) (code : BitVec 16) : State := s.setCh { s.ch with lastError := code }

/-- Recording an error when a check fails (R159, R161). -/
def recordIf (bad : Bool) (s : State) (code : BitVec 16) : State :=
  if bad then recordError s code else s

/-- Clearing: `LAST_ERROR <- 0`, the counterpart of a return from a trap (R220). -/
def clearError (s : State) : State := s.setCh { s.ch with lastError := 0 }

/-- `PHASE <- p` (R47). -/
def setPhase (s : State) (p : Phase) : State := s.setCh { s.ch with phase := p }

/-! ### Flag registers (R25, R28) -/

/-- The six `FF_*` registers from the unpacked byte (R158). -/
def setFrameFlags (s : State) (f : FrameFlags) : State :=
  s.setCh { s.ch with
    ffDatalogFile := f.datalogFile, ffSdFull := f.sdFull, ffSdPresent := f.sdPresent,
    ffRccReset := f.rccReset, ffMsgPending := f.msgPending, ffReserved := f.reserved }

/-- The three `SF_*` registers from the unpacked byte (R160). -/
def setServiceFlags (s : State) (f : ServiceFlags) : State :=
  s.setCh { s.ch with sfResponse := f.response, sfError := f.error, sfReserved := f.reserved }

end Sys2Proof.Machine
end

