-- ==== Sys2Proof/Machine/Operands.lean ====
section
/-! DEFINITION. The operands of the operations (R111) and the derived quantities of the registers (R31, R39, R42, R108). -/

namespace Sys2Proof.Machine

/-- CK_UPDATE's byte: `OP_A[7:0]`; bits 31:8 are ignored (R135). -/
def ckByte (c : Channel) : Byte := c.opA.setWidth 8

/-- CK_RANGE's offset: `OP_A`, unsigned (R136). -/
def rangeOffset (c : Channel) : Nat := c.opA.toNat

/-- CK_RANGE's length: `OP_B`, unsigned (R136). -/
def rangeLength (c : Channel) : Nat := c.opB.toNat

/-- FRAME_INIT's base address: `OP_A` (R150). -/
def initBase (c : Channel) : BitVec 32 := c.opA

/-- FRAME_INIT's capacity: `OP_B` (R150). -/
def initCapacity (c : Channel) : BitVec 32 := c.opB

/-- `FRAME_LEN = 14 + DATA_LEN + 2`, up to 33 bits (R31, R164). -/
def frameLength (c : Channel) : Nat := 14 + c.dataLen.toNat + 2

/-- `CK_SUM = CK_B ## CK_A` (R42). -/
def ckSum (c : Channel) : BitVec 16 := ckJoin (c.ckA, c.ckB)

/-- The implied value length `DATA_LEN - 10`, a signed integer (R190, R108). -/
def impliedLength (c : Channel) : Int := (c.dataLen.toNat : Int) - 10

/-- `VALUE_MAX` as a signed integer (R39). -/
def valueMaxInt (c : Channel) : Int := c.valueMax.toInt

/-- `cap - 24` as `VALUE_MAX` holds it: 33 bits two's complement (R39, R150, R180). -/
def valueMaxOf (cap : BitVec 32) : BitVec 33 := BitVec.ofInt 33 ((cap.toNat : Int) - 24)

end Sys2Proof.Machine
end

