-- ==== Sys2Proof/Machine/CheckUnit.lean ====
section
/-! DEFINITION. The stand-alone checksum unit: CK_INIT, CK_UPDATE, CK_RANGE (40_checksum.md). -/

namespace Sys2Proof.Machine

/-- The accumulators of the selected channel replaced (R42). -/
def setAccumulators (s : State) (acc : Byte × Byte) : State := s.setCh { s.ch with ckA := acc.1, ckB := acc.2 }

/-- CK_INIT (R134). -/
def execCkInit (s : State) : Host.Outcome State Fault Refusal :=
  .next (setAccumulators s ckStart)

/-- CK_UPDATE (R135). -/
def execCkUpdate (s : State) : Host.Outcome State Fault Refusal :=
  .next (setAccumulators s (ckStep (s.ch.ckA, s.ch.ckB) (ckByte s.ch)))

/-- CK_RANGE (R136): the range form starts from `0xFF, 0x00`; a length of 0 reads nothing. -/
def ckRangeOp (s : State) : Run State := do
  let l ← bufBytes s (rangeOffset s.ch) (rangeLength s.ch)
  let sum := cksum l
  .ok (setAccumulators s (sum.setWidth 8, (sum >>> 8).setWidth 8))

/-- CK_RANGE (R136). -/
def execCkRange (s : State) : Host.Outcome State Fault Refusal := outcome (ckRangeOp s)

end Sys2Proof.Machine
end

