-- ==== Sys2Proof/Machine/FrameCodec.lean ====
section
/-! DEFINITION. The frame codec: FRAME_INIT, ENCODE_REQUEST, DECODE_FRAME_HEADER, DECODE_FRAME_DATA, FRAME_LENGTH
(41_frame_codec.md). -/

namespace Sys2Proof.Machine

/-! ### FRAME_INIT -/

/-- The buffer bound (R150): `BUF_BASE`, `CAPACITY`, and `VALUE_MAX` derived with them (R181). -/
def bindBuffer (s : State) (base cap : BitVec 32) : State :=
  s.setCh { s.ch with bufBase := base, capacity := cap, valueMax := valueMaxOf cap }

/-- `any` into the thirteen Frame registers of R150, one draw each (R151, U5; log 5). -/
def forgetFrame (s : State) : State :=
  (s.setCh { s.ch with
    ffDatalogFile := s.anyValue 1 0, ffSdFull := s.anyValue 1 1, ffSdPresent := s.anyValue 1 2,
    ffRccReset := s.anyValue 1 3, ffMsgPending := s.anyValue 1 4, ffReserved := s.anyValue 3 5,
    srcAddr := s.anyValue 32 6, dstAddr := s.anyValue 32 7,
    sfResponse := s.anyValue 1 8, sfError := s.anyValue 1 9, sfReserved := s.anyValue 6 10,
    serviceId := s.anyValue 8 11, dataLen := s.anyValue 32 12 }).addDraws 13

/-- FRAME_INIT (R150, R152). -/
def frameInitOp (s : State) : Run State :=
  if (initBase s.ch).toNat + (initCapacity s.ch).toNat ≤ memSize then
    .ok (setPhase (forgetFrame (clearError (bindBuffer s (initBase s.ch) (initCapacity s.ch)))) .new)
  else .error (.refuse (.bufferPastTop (initBase s.ch) (initCapacity s.ch)))

/-- FRAME_INIT (R150). -/
def execFrameInit (s : State) : Host.Outcome State Fault Refusal := outcome (frameInitOp s)

/-! ### ENCODE_REQUEST -/

/-- ENCODE_REQUEST's unconditional stores, offsets 0 to 15, in the order of R154. -/
def storeHeaders (s : State) : Run State := do
  let s ← memWrite s 0 1 s.config.startMarker.toNat
  let s ← memWrite s 1 1 0x00
  let s ← memWrite s 2 4 s.ch.srcAddr.toNat
  let s ← memWrite s 6 4 s.ch.dstAddr.toNat
  let s ← memWrite s 10 2 (s.ch.dataLen.toNat % 65536)
  let range ← bufBytes s 1 11
  let s ← memWrite s 12 2 (cksum range).toNat
  let s ← memWrite s 14 1 0x00
  memWrite s 15 1 s.ch.serviceId.toNat

/-- ENCODE_REQUEST's fit test and payload checksum (R154 to R157). -/
def storeTrailer (s : State) : Run State :=
  if 14 + s.ch.dataLen.toNat + 2 > s.ch.capacity.toNat then
    .ok (recordError s s.config.errBufferTooSmall)
  else do
    let payload ← bufBytes s 14 s.ch.dataLen.toNat
    memWrite s (14 + s.ch.dataLen.toNat) 2 (cksum payload).toNat

/-- ENCODE_REQUEST (R154). -/
def encodeRequestOp (s : State) : Run State := do
  let s ← storeHeaders s
  let s ← storeTrailer s
  .ok (setPhase s .encoded)

/-- ENCODE_REQUEST (R154). -/
def execEncodeRequest (s : State) : Host.Outcome State Fault Refusal := outcome (encodeRequestOp s)

/-! ### DECODE_FRAME_HEADER -/

/-- `SRC_ADDR`, `DST_ADDR`, `DATA_LEN` from their fields, zero-extended (R158, R108). -/
def setHeaderFields (s : State) (src dst len : Nat) : State :=
  s.setCh { s.ch with
    srcAddr := BitVec.ofNat 32 src, dstAddr := BitVec.ofNat 32 dst, dataLen := BitVec.ofNat 32 len }

/-- DECODE_FRAME_HEADER (R158, R159): every field is decoded and every check made, whatever the others found. -/
def decodeFrameHeaderOp (s : State) : Run State := do
  let f ← memRead s 1 1
  let s := setFrameFlags s (unpackFf s.config.fflags (BitVec.ofNat 8 f))
  let marker ← memRead s 0 1
  let s := recordIf (decide (marker ≠ s.config.startMarker.toNat)) s s.config.errInvalidFrame
  let src ← memRead s 2 4
  let dst ← memRead s 6 4
  let len ← memRead s 10 2
  let s := setHeaderFields s src dst len
  let s := recordIf (decide (s.ch.dataLen.toNat < 2 ∨ 14 + s.ch.dataLen.toNat + 2 > s.ch.capacity.toNat)) s
    s.config.errInvalidFrame
  let range ← bufBytes s 1 11
  let sum ← memRead s 12 2
  let s := recordIf (decide ((cksum range).toNat ≠ sum)) s s.config.errInvalidFrame
  .ok (setPhase s .headerDecoded)

/-- DECODE_FRAME_HEADER (R158). -/
def execDecodeFrameHeader (s : State) : Host.Outcome State Fault Refusal := outcome (decodeFrameHeaderOp s)

/-! ### DECODE_FRAME_DATA -/

/-- `SERVICE_ID` written (R29). -/
def setServiceId (s : State) (b : Byte) : State := s.setCh { s.ch with serviceId := b }

/-- DECODE_FRAME_DATA (R160, R161): a no-op when `LAST_ERROR` is not 0; otherwise both checks are made and the
service flags and id are stored whatever they find. -/
def decodeFrameDataOp (s : State) : Run State :=
  if s.ch.lastError ≠ 0 then .ok s
  else do
    let payload ← bufBytes s 14 s.ch.dataLen.toNat
    let sum ← memRead s (14 + s.ch.dataLen.toNat) 2
    let s := recordIf (decide ((cksum payload).toNat ≠ sum)) s s.config.errInvalidFrame
    let f ← memRead s 14 1
    let s := setServiceFlags s (unpackSf s.config.sflags (BitVec.ofNat 8 f))
    let s := recordIf (decide (s.ch.sfResponse = 0)) s s.config.errInvalidFrame
    let sid ← memRead s 15 1
    let s := setServiceId s (BitVec.ofNat 8 sid)
    .ok (setPhase s .dataDecoded)

/-- DECODE_FRAME_DATA (R160). -/
def execDecodeFrameData (s : State) : Host.Outcome State Fault Refusal := outcome (decodeFrameDataOp s)

/-! ### FRAME_LENGTH -/

/-- FRAME_LENGTH (R164): the host is answered `14 + DATA_LEN + 2`; nothing of the block changes. -/
def execFrameLength (s : State) : Host.Outcome State Fault Refusal :=
  .next (s.setReply (.value (BitVec.ofNat 33 (frameLength s.ch))))

end Sys2Proof.Machine
end

