-- ==== Sys2Proof/Machine/HostPort.lean ====
section
/-! DEFINITION. The host's side: the register file (R44), stores and loads (R113, R60), the hardware reset (R240), the
selection of a channel (R20), and the taking of the next access from the inbox (R70). -/

namespace Sys2Proof.Machine

/-- A host read of a register (R44), as 33 bits: `CMD` and the unassigned numbers read 0; `FRAME_LEN`, `VALUE_OFF` and
`CK_SUM` are computed. -/
def regValue (c : Channel) (num : BitVec 8) : BitVec 33 :=
  match num.toNat with
  | 0x01 => c.opA.setWidth 33
  | 0x02 => c.opB.setWidth 33
  | 0x03 => c.bufBase.setWidth 33
  | 0x04 => c.capacity.setWidth 33
  | 0x05 => c.lastError.setWidth 33
  | 0x06 => c.ffDatalogFile.setWidth 33
  | 0x07 => c.ffSdFull.setWidth 33
  | 0x08 => c.ffSdPresent.setWidth 33
  | 0x09 => c.ffRccReset.setWidth 33
  | 0x0A => c.ffMsgPending.setWidth 33
  | 0x0B => c.ffReserved.setWidth 33
  | 0x0C => c.srcAddr.setWidth 33
  | 0x0D => c.dstAddr.setWidth 33
  | 0x0E => c.sfResponse.setWidth 33
  | 0x0F => c.sfError.setWidth 33
  | 0x10 => c.sfReserved.setWidth 33
  | 0x11 => c.serviceId.setWidth 33
  | 0x12 => c.dataLen.setWidth 33
  | 0x13 => BitVec.ofNat 33 (frameLength c)
  | 0x14 => c.objType.setWidth 33
  | 0x15 => c.objId.setWidth 33
  | 0x16 => c.propId.setWidth 33
  | 0x17 => c.valueLen.setWidth 33
  | 0x18 => 24
  | 0x19 => c.valueMax
  | 0x1A => c.ckA.setWidth 33
  | 0x1B => c.ckB.setWidth 33
  | 0x1C => (ckSum c).setWidth 33
  | _ => 0

/-- `GET REG` (R113): no effect on the block; the host has its answer. -/
def getReg (s : State) (num : BitVec 8) : State := s.setReply (.value (regValue s.ch num))

/-- A host-writable register takes a value that fits it (R5; log 14). -/
def putReg (s : State) (num : BitVec 8) (w : Nat) (v : BitVec 32) (f : BitVec w → Channel) : Run State :=
  if v.toNat < 2 ^ w then .ok (s.setCh (f (v.setWidth w)))
  else .error (.refuse (.valueTooWide num v.toNat))

/-- `SET REG, v` (R113): the writable registers of R44; a write to any other number is ignored. A write to `CMD`, number
0x00, that is a command code starts the operation instead (`Action.packet`); one that fits no code is refused here. -/
def setReg (s : State) (num : BitVec 8) (v : BitVec 32) : Run State :=
  match num.toNat with
  | 0x00 => .error (.refuse (.valueTooWide num v.toNat))
  | 0x01 => .ok (s.setCh { s.ch with opA := v })
  | 0x02 => .ok (s.setCh { s.ch with opB := v })
  | 0x05 => putReg s num 16 v fun x => { s.ch with lastError := x }
  | 0x0C => .ok (s.setCh { s.ch with srcAddr := v })
  | 0x0D => .ok (s.setCh { s.ch with dstAddr := v })
  | 0x11 => putReg s num 8 v fun x => { s.ch with serviceId := x }
  | 0x12 => .ok (s.setCh { s.ch with dataLen := v })
  | 0x14 => putReg s num 16 v fun x => { s.ch with objType := x }
  | 0x15 => .ok (s.setCh { s.ch with objId := v })
  | 0x16 => putReg s num 16 v fun x => { s.ch with propId := x }
  | 0x17 => .ok (s.setCh { s.ch with valueLen := v })
  | _ => .ok s

/-- A store to `MEM` by the host or the transport (R60, R69): plain memory; past the top it faults whole (log 15). -/
def hostStore (s : State) (addr : Nat) (bytes : List Byte) : Run State :=
  if addr + bytes.length ≤ memSize ∨ bytes = [] then .ok (s.setMem (memStoreBytes s.mem addr bytes))
  else .error (.fault (.noSuchAddress (addr + bytes.length - 1)))

/-- A read of `MEM` by the host or the transport (R60, R69). -/
def hostLoad (s : State) (addr count : Nat) : Run State :=
  if addr + count ≤ memSize ∨ count = 0 then .ok (s.setReply (.bytes (memLoadBytes s.mem addr count)))
  else .error (.fault (.noSuchAddress (addr + count - 1)))

/-- `STORE k: bytes` (R113): offset `k` stands for the address `BUF_BASE + k` (R6). -/
def storeAt (s : State) (k : Nat) (bytes : List Byte) : Run State := hostStore s (s.ch.bufBase.toNat + k) bytes

/-- `LOAD k, m` (R113). -/
def loadAt (s : State) (k count : Nat) : Run State := hostLoad s (s.ch.bufBase.toNat + k) count

/-- A channel at a later hardware reset (R240): the stated values, and `any` in every register that R50 leaves
unspecified; the draws from number `d` on (log 17). -/
def resetChannel (d : Nat) : Channel :=
  let any (w k : Nat) : BitVec w := (Config.freeValue (d + k)).setWidth w
  { Channel.reset with
    opA := any 32 0, opB := any 32 1, bufBase := any 32 2,
    ffDatalogFile := any 1 3, ffSdFull := any 1 4, ffSdPresent := any 1 5, ffRccReset := any 1 6,
    ffMsgPending := any 1 7, ffReserved := any 3 8, srcAddr := any 32 9, dstAddr := any 32 10,
    sfResponse := any 1 11, sfError := any 1 12, sfReserved := any 6 13, serviceId := any 8 14,
    dataLen := any 32 15, objType := any 16 16, objId := any 32 17, propId := any 16 18, valueLen := any 32 19 }

/-- `n` channels at a hardware reset, twenty draws each. -/
def resetChannels : Nat → Nat → List Channel
  | _, 0 => []
  | d, n + 1 => resetChannel d :: resetChannels (d + 20) n

/-- The hardware reset (R240): all channels at once; memory is the host's (R50) and keeps its bytes (log 17). -/
def hardReset (s : State) : State :=
  { s with
    before := resetChannels s.draws s.before.length
    ch := resetChannel (s.draws + 20 * s.before.length)
    after := resetChannels (s.draws + 20 * (s.before.length + 1)) s.after.length
    draws := s.draws + 20 * (s.before.length + 1 + s.after.length) }

/-- `s` with channel number `c` selected, if there is one (R20). No register of any channel changes. -/
def selectChannel (c : Nat) (s : State) : Option State :=
  match s.channels.drop c with
  | [] => none
  | x :: xs => some { s with before := s.channels.take c, ch := x, after := xs }

/-- The instruction packet of an action: a write of an 8-bit code to `CMD`, a read of `FRAME_LEN`, or a message (R110,
R107); the other actions are plain host accesses. -/
def Action.packet : Action → Option Packet
  | .writeReg num v => if num = 0x00 ∧ v.toNat < 256 then some (.cmd (v.setWidth 8)) else none
  | .readReg num => if num = 0x13 then some (.regRead num) else none
  | .message bytes => some (.frame bytes)
  | .store _ _ => none
  | .load _ _ => none
  | .deviceNotFound => none
  | .responseTimeout => none
  | .portIoFailure _ => none

/-- The action that hands a packet to the block. -/
def Packet.action : Packet → Action
  | .cmd code => .writeReg 0x00 (code.setWidth 32)
  | .regRead num => .readReg num
  | .frame bytes => .message bytes

/-- An action that is no instruction. -/
def hostAction (s : State) : Action → Run State
  | .writeReg num v => setReg s num v
  | .readReg num => .ok (getReg s num)
  | .store k bytes => storeAt s k bytes
  | .load k m => loadAt s k m
  | .message bytes => .error (.refuse (.shortMessage bytes.length))
  | .deviceNotFound => .ok (recordError s s.config.errDeviceNotFound)
  | .responseTimeout => .ok (recordError s s.config.errResponseTimeout)
  | .portIoFailure k =>
    match s.config.errPortIo[k]? with
    | some e => .ok (recordError s e)
    | none => .error (.refuse (.unknownPortFailure k))

/-- The refusal that a decoder's rejection becomes. -/
def refusalOf : DecodeError → Refusal
  | .reservedCommand code => .reservedCommand code
  | .notAnOperation num => .notAnOperation num
  | .shortMessage n => .shortMessage n
  | .unknownShape sflags sid => .unknownShape sflags sid

/-- What the next access is: an instruction to run in a state, or an access already done. -/
inductive Fetched where
  /-- An instruction, and the state it runs in. -/
  | instr (i : Instr) (s : State)
  /-- A plain access, and what it gave. -/
  | done (r : Run State)

/-- An action at the selected channel's port: an instruction if it decodes to one, else a plain access. -/
def fetchAction (s : State) (act : Action) : Fetched :=
  match act.packet with
  | none => .done (hostAction s act)
  | some p =>
    match decode s.config p with
    | .ok i => .instr i s
    | .error e => .done (.error (.refuse (refusalOf e)))

/-- One access. -/
def fetchAccess (s : State) : Access → Fetched
  | .reset => .done (.ok (hardReset s))
  | .memStore addr bytes => .done (hostStore s addr bytes)
  | .memLoad addr count => .done (hostLoad s addr count)
  | .port c act =>
    match selectChannel c s with
    | none => .done (.error (.fault (.noSuchChannel c)))
    | some s' => fetchAction s' act

/-- The next access is taken from the inbox; with none to come the block idles, unchanged (R240, R246; log 8). -/
def fetch (s : State) : Fetched :=
  match s.inbox with
  | [] => .done (.ok s)
  | a :: rest => fetchAccess (s.setInbox rest) a

/-- The access that a table word is, at the port of the selected channel. -/
def tableAccess (s : State) (nbits w : Nat) : Access :=
  .port s.before.length (Packet.action (tablePacket nbits w))

end Sys2Proof.Machine
end

