-- ==== Sys2Proof/Machine/PropCodec.lean ====
section
/-! DEFINITION. The property codec: PROP_INIT, ENCODE_READ, ENCODE_WRITE, DECODE_READ_PROPERTY, DECODE_WRITE_PROPERTY
and the error-response decoding (42_property_codec.md). -/

namespace Sys2Proof.Machine

/-- PROP_INIT (R180): `VALUE_MAX <- CAPACITY - 24`. -/
def execPropInit (s : State) : Host.Outcome State Fault Refusal :=
  .next (s.setCh { s.ch with valueMax := valueMaxOf s.ch.capacity })

/-! ### The helpers of R182 -/

/-- `WritePropHeader()` (R182). -/
def writePropHeader (s : State) : Run State := do
  let s ← memWrite s 16 2 s.ch.objType.toNat
  let s ← memWrite s 18 4 s.ch.objId.toNat
  memWrite s 22 2 s.ch.propId.toNat

/-- `ReadPropHeader()` (R182). -/
def readPropHeader (s : State) : Run State := do
  let otype ← memRead s 16 2
  let oid ← memRead s 18 4
  let pid ← memRead s 22 2
  .ok (s.setCh { s.ch with
    objType := BitVec.ofNat 16 otype, objId := BitVec.ofNat 32 oid, propId := BitVec.ofNat 16 pid })

/-- `VALUE_LEN` written (R37). -/
def setValueLen (s : State) (n : BitVec 32) : State := s.setCh { s.ch with valueLen := n }

/-! ### Encoding -/

/-- ENCODE_READ (R183). -/
def encodeReadOp (s : State) : Run State :=
  writePropHeader (s.setCh { s.ch with serviceId := Config.serviceRead, valueLen := 0, dataLen := 10 })

/-- ENCODE_READ (R183). -/
def execEncodeRead (s : State) : Host.Outcome State Fault Refusal := outcome (encodeReadOp s)

/-- ENCODE_WRITE (R185, R187). -/
def encodeWriteOp (s : State) : Run State :=
  if 10 + s.ch.valueLen.toNat < 4294967296 then
    writePropHeader (s.setCh { s.ch with serviceId := Config.serviceWrite, dataLen := 10 + s.ch.valueLen })
  else .error (.refuse (.dataLenOverflow s.ch.valueLen))

/-- ENCODE_WRITE (R185). -/
def execEncodeWrite (s : State) : Host.Outcome State Fault Refusal := outcome (encodeWriteOp s)

/-! ### Decoding -/

/-- `VALUE_LEN <- any` (R197, U6; log 6). -/
def forgetValueLen (s : State) : State := (setValueLen s (s.anyValue 32 0)).addDraws 1

/-- `ErrorResponse(n)` (R196). -/
def errorResponse (s : State) (n : Int) : Run State :=
  if n = 2 then do
    let s ← readPropHeader s
    let code ← memRead s 24 2
    .ok (forgetValueLen (recordError s (BitVec.ofNat 16 code)))
  else .ok (recordError (setValueLen s 0) s.config.errInvalidFrame)

/-- The branch both decode operations end in without an error flag and with a length they do not accept (R190,
R193). -/
def rejectLength (s : State) : State := recordError (setValueLen s 0) s.config.errBufferTooSmall

/-- DECODE_READ_PROPERTY (R190). -/
def decodeReadPropertyOp (s : State) : Run State :=
  let n := impliedLength s.ch
  if s.ch.sfError = 1 then errorResponse s n
  else if 0 ≤ n ∧ n ≤ valueMaxInt s.ch then readPropHeader (setValueLen s (BitVec.ofInt 32 n))
  else .ok (rejectLength s)

/-- DECODE_READ_PROPERTY (R190). -/
def execDecodeReadProperty (s : State) : Host.Outcome State Fault Refusal := outcome (decodeReadPropertyOp s)

/-- DECODE_WRITE_PROPERTY (R193). -/
def decodeWritePropertyOp (s : State) : Run State :=
  let n := impliedLength s.ch
  if s.ch.sfError = 1 then errorResponse s n
  else if 0 ≤ n ∧ n ≤ valueMaxInt s.ch ∧ n = 0 then readPropHeader (setValueLen s 0)
  else .ok (rejectLength s)

/-- DECODE_WRITE_PROPERTY (R193). -/
def execDecodeWriteProperty (s : State) : Host.Outcome State Fault Refusal := outcome (decodeWritePropertyOp s)

end Sys2Proof.Machine
end

