-- ==== Sys2Proof/Machine/Message.lean ====
section
/-! DEFINITION. The five message shapes (R107) run as the pseudo-operations of R114, each the whole sequence of its lines
in one step (log 9). -/

namespace Sys2Proof.Machine

/-- Register number of `LAST_ERROR` (R44). -/
def regLastError : BitVec 8 := 0x05

/-- Register number of `VALUE_LEN` (R44). -/
def regValueLen : BitVec 8 := 0x17

/-- The five `SET` lines of READ_REQ and WRITE_REQ (R114). -/
def setRequest (s : State) (src dst : BitVec 32) (otype : BitVec 16) (oid : BitVec 32) (pid : BitVec 16) : State :=
  s.setCh { s.ch with srcAddr := src, dstAddr := dst, objType := otype, objId := oid, propId := pid }

/-- `SET VALUE_LEN, n`: a length that does not fit the register is refused (R5, R37). -/
def setValueLength (s : State) (n : Nat) : Run State :=
  if n < 4294967296 then .ok (setValueLen s (BitVec.ofNat 32 n))
  else .error (.refuse (.valueTooWide regValueLen n))

/-- READ_REQ (R114): the SET lines, ENCODE_READ, ENCODE_REQUEST. -/
def readReq (s : State) (src dst : BitVec 32) (otype : BitVec 16) (oid : BitVec 32) (pid : BitVec 16) : Run State := do
  let s ← encodeReadOp (setRequest s src dst otype oid pid)
  encodeRequestOp s

/-- WRITE_REQ (R114): the SET lines, the value stored at offset 24, its length set, ENCODE_WRITE, ENCODE_REQUEST. -/
def writeReq (s : State) (src dst : BitVec 32) (otype : BitVec 16) (oid : BitVec 32) (pid : BitVec 16)
    (value : List Byte) : Run State := do
  let s ← storeAt (setRequest s src dst otype oid pid) 24 value
  let s ← setValueLength s value.length
  let s ← encodeWriteOp s
  encodeRequestOp s

/-- RECV (R114, R77): the first 14 bytes stored and the header decoded; if `LAST_ERROR` is then 0, the remaining bytes
stored and the data decoded (log 20). -/
def recv (s : State) (bytes : List Byte) : Run State := do
  let s ← storeAt s 0 (bytes.take 14)
  let s ← decodeFrameHeaderOp s
  let s := getReg s regLastError
  if s.ch.lastError = 0 then do
    let s ← storeAt s 14 (bytes.drop 14)
    decodeFrameDataOp s
  else .ok s

/-- `if GET LAST_ERROR is 0,` a property decode (R114, R248). -/
def ifAccepted (s : State) (f : State → Run State) : Run State :=
  if (getReg s regLastError).ch.lastError = 0 then f (getReg s regLastError) else .ok (getReg s regLastError)

/-- FRAME.READ_REQUEST (R107): READ_REQ (R114). -/
def execFrameReadRequest (src dst : BitVec 32) (otype : BitVec 16) (oid : BitVec 32) (pid : BitVec 16) (s : State) :
    Host.Outcome State Fault Refusal :=
  outcome (readReq s src dst otype oid pid)

/-- FRAME.WRITE_REQUEST (R107): WRITE_REQ (R114). -/
def execFrameWriteRequest (src dst : BitVec 32) (otype : BitVec 16) (oid : BitVec 32) (pid : BitVec 16)
    (value : List Byte) (s : State) : Host.Outcome State Fault Refusal :=
  outcome (writeReq s src dst otype oid pid value)

/-- FRAME.READ_RESPONSE (R107): READ_RSP (R114). -/
def execFrameReadResponse (bytes : List Byte) (s : State) : Host.Outcome State Fault Refusal :=
  outcome (do
    let s ← recv s bytes
    ifAccepted s decodeReadPropertyOp)

/-- FRAME.WRITE_RESPONSE (R107): WRITE_RSP (R114). -/
def execFrameWriteResponse (bytes : List Byte) (s : State) : Host.Outcome State Fault Refusal :=
  outcome (do
    let s ← recv s bytes
    ifAccepted s decodeWritePropertyOp)

/-- FRAME.ERROR_RESPONSE (R107): received, then decoded by either property decode, which do the same with it (R198;
log 21). -/
def execFrameErrorResponse (bytes : List Byte) (s : State) : Host.Outcome State Fault Refusal :=
  outcome (do
    let s ← recv s bytes
    ifAccepted s decodeReadPropertyOp)

end Sys2Proof.Machine
end

