-- ==== Sys2Proof/Machine/Dispatch.lean ====
section
/-! DEFINITION. The one match over the instructions: one arm per row of the opcode table, each a direct call of its
meaning. -/

namespace Sys2Proof.Machine

def exec (i : Instr) (s : State) : Host.Outcome State Fault Refusal :=
  match i with
  | .ckInit => Sys2Proof.Machine.execCkInit s
  | .ckUpdate => Sys2Proof.Machine.execCkUpdate s
  | .ckRange => Sys2Proof.Machine.execCkRange s
  | .frameInit => Sys2Proof.Machine.execFrameInit s
  | .encodeRequest => Sys2Proof.Machine.execEncodeRequest s
  | .decodeFrameHeader => Sys2Proof.Machine.execDecodeFrameHeader s
  | .decodeFrameData => Sys2Proof.Machine.execDecodeFrameData s
  | .frameLength => Sys2Proof.Machine.execFrameLength s
  | .propInit => Sys2Proof.Machine.execPropInit s
  | .encodeRead => Sys2Proof.Machine.execEncodeRead s
  | .encodeWrite => Sys2Proof.Machine.execEncodeWrite s
  | .decodeReadProperty => Sys2Proof.Machine.execDecodeReadProperty s
  | .decodeWriteProperty => Sys2Proof.Machine.execDecodeWriteProperty s
  | .frameReadRequest src dst otype oid pid => Sys2Proof.Machine.execFrameReadRequest src dst otype oid pid s
  | .frameWriteRequest src dst otype oid pid value => Sys2Proof.Machine.execFrameWriteRequest src dst otype oid pid value s
  | .frameReadResponse bytes => Sys2Proof.Machine.execFrameReadResponse bytes s
  | .frameWriteResponse bytes => Sys2Proof.Machine.execFrameWriteResponse bytes s
  | .frameErrorResponse bytes => Sys2Proof.Machine.execFrameErrorResponse bytes s

end Sys2Proof.Machine
end

