-- ==== Sys2Proof/Machine/Step.lean ====
section
/-! DEFINITION. One step: the next access is taken (R70) and, if it is an instruction, run. -/

namespace Sys2Proof.Machine

/-- One step of the machine: one access of the host or the transport, with the operation it starts (R70). -/
def step (s : State) : Host.Outcome State Fault Refusal :=
  match fetch s with
  | .instr i s' => exec i s'
  | .done r => outcome r

/-- `s` with the instruction of a table word as the next access to the selected channel (log 8, log 10, log 11). -/
def State.withFetchWord (s : State) (nbits w : Nat) : State :=
  s.setInbox (tableAccess s nbits w :: s.inbox)

end Sys2Proof.Machine
end

