-- ==== Sys2Proof/Safety.lean ====
section
/-! DEFINITION. What a good state and a safe step are, in the terms the statements use. -/

namespace Sys2Proof.Machine

/-- The bound buffer does not run past the top of `MEM` (R63, R152). -/
abbrev Channel.bound (c : Channel) : Prop := c.bufBase.toNat + c.capacity.toNat ≤ memSize

/-- `VALUE_MAX = CAPACITY - 24`, "at every instant" (R39). -/
abbrev Channel.derived (c : Channel) : Prop := c.valueMax.toInt = (c.capacity.toNat : Int) - 24

/-- The invariant of the machine: the parameters are legal (R3) and the number of channels is theirs (R20); in every
channel the buffer is bound inside `MEM` (R63) and `VALUE_MAX` is derived from `CAPACITY` (R39); the memory has its
canonical form. -/
abbrev State.Inv (s : State) : Prop :=
  s.config.wf ∧ s.channels.length = s.config.numChannels ∧
  (∀ c ∈ s.channels, c.bound ∧ c.derived) ∧ memWf s.mem

/-- A step did not stop with a fault. -/
def noFault : Host.Outcome State Fault Refusal → Prop
  | .next _ => True
  | .fault _ => False
  | .refused _ => True

/-- Everything outside the selected channel's registers, the memory, the reply and the draw counter is as before: the
frame that every operation keeps. -/
def sameElsewhere (s t : State) : Prop :=
  t.config = s.config ∧ t.before = s.before ∧ t.after = s.after ∧ t.inbox = s.inbox

/-- Every byte of `MEM` reads as before. -/
def sameMemory (s t : State) : Prop := ∀ a, memGet t.mem a = memGet s.mem a

/-- Every byte of `MEM` outside the `n` addresses from `a` up reads as before. -/
def sameMemoryOutside (s t : State) (a n : Nat) : Prop :=
  ∀ x, ¬(a ≤ x ∧ x < a + n) → memGet t.mem x = memGet s.mem x

/-- The byte that a state's buffer holds at offset `k` (R61). -/
def bufAt (s : State) (k : Nat) : Byte := memGet s.mem (s.ch.bufBase.toNat + k)

/-- The `n` bytes that a state's buffer holds from offset `k` (R6). -/
def bufList (s : State) (k n : Nat) : List Byte := memLoadBytes s.mem (s.ch.bufBase.toNat + k) n

/-- The field of `n` bytes that a state's buffer holds at offset `k` (R108). -/
def bufField (s : State) (k n : Nat) : Nat := leNat (bufList s k n)

/-- `s` with an action at the selected channel's port as its next access. -/
def atPort (s : State) (act : Action) : State := s.setInbox (.port s.before.length act :: s.inbox)

/-- `s` with a list of actions at the selected channel's port as its next accesses: one line of R113 after the other. -/
def linesAtPort (s : State) (acts : List Action) : State :=
  s.setInbox (acts.map (Access.port s.before.length) ++ s.inbox)

/-- The thirteen operations of R110, as against the five message shapes of R107. -/
def isOperation : Instr → Bool
  | .ckInit | .ckUpdate | .ckRange | .frameInit | .encodeRequest | .decodeFrameHeader | .decodeFrameData
  | .frameLength | .propInit | .encodeRead | .encodeWrite | .decodeReadProperty | .decodeWriteProperty => true
  | .frameReadRequest .. | .frameWriteRequest .. | .frameReadResponse .. | .frameWriteResponse ..
  | .frameErrorResponse .. => false

/-- A received frame that the frame codec accepts in a buffer of `cap` bytes (R166), complete (R106): the marker, the
length bounds, the header checksum, the payload checksum, the response flag. -/
def goodFrame (c : Config) (cap : Nat) (bytes : List Byte) : Prop :=
  bytes.length = 14 + imageLen bytes + 2 ∧ 2 ≤ imageLen bytes ∧ bytes.length ≤ cap ∧
  bytes.getD 0 0 = c.startMarker ∧
  (cksum ((bytes.drop 1).take 11)).toNat = fieldAt bytes 12 2 ∧
  (cksum ((bytes.drop 14).take (imageLen bytes))).toNat = fieldAt bytes (14 + imageLen bytes) 2 ∧
  (unpackSf c.sflags (sflagsByte bytes)).response = 1

/-- The registers that the frame codec decodes from a received frame (R158, R160), in a channel. -/
def receivedChannel (c : Config) (ch : Channel) (bytes : List Byte) : Channel :=
  let f := unpackFf c.fflags (bytes.getD 1 0)
  let g := unpackSf c.sflags (sflagsByte bytes)
  { ch with
    ffDatalogFile := f.datalogFile, ffSdFull := f.sdFull, ffSdPresent := f.sdPresent, ffRccReset := f.rccReset
    ffMsgPending := f.msgPending, ffReserved := f.reserved
    srcAddr := imageSrc bytes, dstAddr := imageDst bytes, dataLen := BitVec.ofNat 32 (imageLen bytes)
    sfResponse := g.response, sfError := g.error, sfReserved := g.reserved
    serviceId := sidByte bytes, phase := .dataDecoded }

end Sys2Proof.Machine
end

