-- ==== Sys2Proof/Certificates/Slice0/Obligations.lean ====
section
/-! DEFINITION. The statements for the provers, from the numbered rules of spec/. -/

open Sys2Proof Sys2Proof.Machine

/-! ### Encoding -/

/-- Decoding an encoded well-formed instruction gives it back, with every operand at every value (R91, R107, R110). -/
def Obligations.DecodeOfEncode : Prop :=
  ∀ (c : Config) (i : Instr), i.wf c = true → decode c (encode c i) = .ok i

/-- What decodes is well formed, and a command code, a register read and a received response are each the encoding of
what they decode to (R107, R110). -/
def Obligations.EncodeOfDecode : Prop :=
  ∀ (c : Config) (p : Packet) (i : Instr), decode c p = .ok i →
    i.wf c = true ∧
    (p.format ≠ "FRAME" → encode c i = p) ∧
    (∀ bytes, p = .frame bytes → sflagsByte bytes ≠ 0 → encode c i = p)

/-- Every word of the opcode table, and one whole frame of the spec's vectors (V-FE-1, program P1), decode to their
instructions (R110, R107). What a bare table word stands for is the model's choice: 0x13 the register read (log 10), a
selector a frame of 28 bytes with zeros elsewhere (log 11; its length field 0 gives an empty value, log 12), both under
the default parameters (log 2). A sanity statement. -/
def Obligations.TableWordsDecode : Prop :=
  let message (selector : List Byte) : List Byte := List.replicate 14 0x00 ++ selector ++ List.replicate 12 0x00
  decodeTableWord 8 0x10 = some .ckInit ∧ decodeTableWord 8 0x11 = some .ckUpdate ∧
  decodeTableWord 8 0x12 = some .ckRange ∧ decodeTableWord 8 0x01 = some .frameInit ∧
  decodeTableWord 8 0x02 = some .encodeRequest ∧ decodeTableWord 8 0x03 = some .decodeFrameHeader ∧
  decodeTableWord 8 0x04 = some .decodeFrameData ∧ decodeTableWord 8 0x13 = some .frameLength ∧
  decodeTableWord 8 0x08 = some .propInit ∧ decodeTableWord 8 0x09 = some .encodeRead ∧
  decodeTableWord 8 0x0A = some .encodeWrite ∧ decodeTableWord 8 0x0B = some .decodeReadProperty ∧
  decodeTableWord 8 0x0C = some .decodeWriteProperty ∧
  decodeTableWord 16 0x0100 = some (.frameReadRequest 0 0 0 0 0) ∧
  decodeTableWord 16 0x0200 = some (.frameWriteRequest 0 0 0 0 0 []) ∧
  decodeTableWord 16 0x0102 = some (.frameReadResponse (message [0x02, 0x01])) ∧
  decodeTableWord 16 0x0202 = some (.frameWriteResponse (message [0x02, 0x02])) ∧
  decodeTableWord 16 0x0003 = some (.frameErrorResponse (message [0x03, 0x00])) ∧
  decode Config.default (.frame [0xAA, 0x00, 0x01, 0x00, 0x00, 0x00, 0x65, 0x00, 0x00, 0x00, 0x0A, 0x00, 0x6F, 0x71,
    0x00, 0x01, 0x02, 0x00, 0xB8, 0x0B, 0x00, 0x00, 0x05, 0x00, 0xCA, 0xA0]) =
    .ok (.frameReadRequest 1 101 2 3000 5)

/-- The reserved command codes are 0x00, 0x05 to 0x07, 0x0D to 0x0F and 0x13 to 0xFF: a code decodes exactly when it is
none of them, and a step refuses a write of one to `CMD` (R112). -/
def Obligations.ReservedCommandsRefused : Prop :=
  ∀ (s : State) (code : BitVec 8),
    let reserved := code.toNat = 0x00 ∨ (0x05 ≤ code.toNat ∧ code.toNat ≤ 0x07) ∨
      (0x0D ≤ code.toNat ∧ code.toNat ≤ 0x0F) ∨ 0x13 ≤ code.toNat
    ((∃ i, decode s.config (.cmd code) = .ok i) ↔ ¬ reserved) ∧
    (reserved → step (atPort s (.writeReg 0x00 (code.setWidth 32))) = .refused (.reservedCommand code))

/-- Under every legal layout the two flag bytes unpack bijectively, so no bit of them is lost, and the default layouts
take the bits that R96 and R99 list. -/
def Obligations.FlagBytesUnpackBijectively : Prop :=
  (∀ l : FFlagsLayout, l.positions.Nodup → Function.Bijective (unpackFf l)) ∧
  (∀ l : SFlagsLayout, l.positions.Nodup → Function.Bijective (unpackSf l)) ∧
  (∀ b : Byte, unpackFf FFlagsLayout.default b =
    { msgPending := b.extractLsb' 0 1, rccReset := b.extractLsb' 1 1, sdPresent := b.extractLsb' 2 1
      sdFull := b.extractLsb' 3 1, datalogFile := b.extractLsb' 4 1, reserved := b.extractLsb' 5 3 }) ∧
  (∀ b : Byte, unpackSf SFlagsLayout.default b =
    { error := b.extractLsb' 0 1, response := b.extractLsb' 1 1, reserved := b.extractLsb' 2 6 })

/-! ### The checksum -/

/-- The closed form of the checksum: A is the sum of the bytes plus 255, B the sum in which byte `i` of `n` is weighted
`n - i + 1`, plus 255 times `n`, both modulo 256 (R132). -/
def Obligations.CksumClosedForm : Prop :=
  ∀ l : List Byte,
    (cksum l).toNat % 256 = (255 + (l.map BitVec.toNat).sum) % 256 ∧
    (cksum l).toNat / 256 =
      (255 * l.length + ((List.range l.length).map fun i => (l.length - i) * (l.getD i 0).toNat).sum) % 256

/-- Changing exactly one byte of a list changes its checksum (R133 (c)). -/
def Obligations.CksumSeesSingleByteChange : Prop :=
  ∀ (l r : List Byte) (a b : Byte), a ≠ b → cksum (l ++ a :: r) ≠ cksum (l ++ b :: r)

/-- CK_INIT followed by CK_UPDATE for each byte of a list, the operand written before each, leaves `CK_SUM` at the
checksum of the list, and only `CK_A`, `CK_B` and `OP_A` changed (R133 (b), R135). -/
def Obligations.CheckUnitStreamsChecksum : Prop :=
  ∀ (s : State) (l : List Byte),
    ∃ t, Host.Core.run Sys2Proof.core (1 + 2 * l.length)
        (linesAtPort s (.writeReg 0x00 0x10 ::
          l.flatMap fun b => [.writeReg 0x01 (b.setWidth 32), .writeReg 0x00 0x11])) = .next t ∧
      ckSum t.ch = cksum l ∧
      t = s.setCh { s.ch with opA := t.ch.opA, ckA := t.ch.ckA, ckB := t.ch.ckB }

/-- CK_INIT, command code 0x10: the accumulators at their initial values, nothing else changed; idempotent; `CK_SUM` is
then the checksum of the empty list (R134). -/
def Obligations.CkInitResult : Prop :=
  ∀ s : State,
    decode s.config (.cmd 0x10) = .ok .ckInit ∧
    exec .ckInit s = .next (s.setCh { s.ch with ckA := 0xFF, ckB := 0x00 }) ∧
    ∀ t, exec .ckInit s = .next t → ckSum t.ch = 0x00FF ∧ ckSum t.ch = cksum [] ∧ exec .ckInit t = .next t

/-- CK_UPDATE, command code 0x11: `A` plus the low byte of `OP_A`, then `B` plus the new `A`, both modulo 256; nothing
else changed (R135). -/
def Obligations.CkUpdateResult : Prop :=
  ∀ s : State,
    let a := (s.ch.ckA.toNat + s.ch.opA.toNat % 256) % 256
    let b := (s.ch.ckB.toNat + a) % 256
    decode s.config (.cmd 0x11) = .ok .ckUpdate ∧
    exec .ckUpdate s = .next (s.setCh { s.ch with ckA := BitVec.ofNat 8 a, ckB := BitVec.ofNat 8 b })

/-- CK_RANGE, command code 0x12: the checksum of the range, whatever the accumulators held; a length of 0 is in bounds
at any offset and gives 0x00FF; a range that leaves a bound buffer is refused at its first bad offset (R136). -/
def Obligations.CkRangeResult : Prop :=
  ∀ s : State, s.ch.bound →
    decode s.config (.cmd 0x12) = .ok .ckRange ∧
    (s.ch.opB = 0 ∨ s.ch.opA.toNat + s.ch.opB.toNat ≤ s.ch.capacity.toNat →
      exec .ckRange s = .next (s.setCh { s.ch with
        ckA := BitVec.ofNat 8 ((cksum (bufList s s.ch.opA.toNat s.ch.opB.toNat)).toNat % 256)
        ckB := BitVec.ofNat 8 ((cksum (bufList s s.ch.opA.toNat s.ch.opB.toNat)).toNat / 256) })) ∧
    (s.ch.opB = 0 → exec .ckRange s = .next (s.setCh { s.ch with ckA := 0xFF, ckB := 0x00 })) ∧
    (s.ch.opB ≠ 0 → s.ch.capacity.toNat < s.ch.opA.toNat + s.ch.opB.toNat →
      exec .ckRange s = .refused (.outOfBuffer (max s.ch.opA.toNat s.ch.capacity.toNat)))

/-! ### The frame codec -/

/-- FRAME_INIT where the buffer fits `MEM`: the buffer bound, `LAST_ERROR` cleared, `VALUE_MAX` derived, PHASE new; the
thirteen Frame registers of R151 hold any value; every other register, the memory, the other channels and the reply
are unchanged (R150, R151). -/
def Obligations.FrameInitResult : Prop :=
  ∀ s : State, s.ch.opA.toNat + s.ch.opB.toNat ≤ 4294967296 →
    ∃ t, exec .frameInit s = .next t ∧
      t.ch = { s.ch with
        bufBase := s.ch.opA, capacity := s.ch.opB, lastError := 0, valueMax := t.ch.valueMax, phase := .new
        ffDatalogFile := t.ch.ffDatalogFile, ffSdFull := t.ch.ffSdFull, ffSdPresent := t.ch.ffSdPresent
        ffRccReset := t.ch.ffRccReset, ffMsgPending := t.ch.ffMsgPending, ffReserved := t.ch.ffReserved
        srcAddr := t.ch.srcAddr, dstAddr := t.ch.dstAddr, sfResponse := t.ch.sfResponse, sfError := t.ch.sfError
        sfReserved := t.ch.sfReserved, serviceId := t.ch.serviceId, dataLen := t.ch.dataLen } ∧
      t.ch.valueMax.toInt = (s.ch.opB.toNat : Int) - 24 ∧
      t.mem = s.mem ∧ t.reply = s.reply ∧ sameElsewhere s t

/-- ENCODE_REQUEST of a frame that fits: offsets 0 to 15 hold the marker, a zero flags byte, the addresses, the length
modulo 65536, the header checksum over offsets 1 to 11, a zero service flags byte and the service id; the payload
checksum over the payload as then stored stands at offset `14 + DATA_LEN` (over them, when `DATA_LEN < 2`); every other
byte and every register but PHASE is unchanged (R154, R155, R157). -/
def Obligations.EncodeRequestResult : Prop :=
  ∀ s : State, memWf s.mem → s.ch.bound → 16 ≤ s.ch.capacity.toNat →
    16 + s.ch.dataLen.toNat ≤ s.ch.capacity.toNat →
    let base := s.ch.bufBase.toNat
    let n := s.ch.dataLen.toNat
    let range : List Byte := 0x00 :: (leBytes 4 s.ch.srcAddr.toNat ++ leBytes 4 s.ch.dstAddr.toNat ++ leBytes 2 (n % 65536))
    let head : List Byte :=
      s.config.startMarker :: (range ++ leBytes 2 (cksum range).toNat ++ [0x00, s.ch.serviceId])
    let payload : List Byte := (0x00 :: s.ch.serviceId :: bufList s 16 (n - 2)).take n
    ∃ t, exec .encodeRequest s = .next t ∧
      t.ch = { s.ch with phase := .encoded } ∧ sameElsewhere s t ∧ t.reply = s.reply ∧ t.draws = s.draws ∧
      ∀ a, memGet t.mem a =
        if base + 14 + n ≤ a ∧ a < base + 16 + n then
          (leBytes 2 (cksum payload).toNat).getD (a - (base + 14 + n)) 0
        else if base ≤ a ∧ a < base + 16 then head.getD (a - base) 0
        else memGet s.mem a

/-- ENCODE_REQUEST of a frame that does not fit: offsets 0 to 15 are written all the same, no payload checksum is, and
`ERR_BUFFER_TOO_SMALL` is recorded (R156). -/
def Obligations.EncodeRequestTooSmall : Prop :=
  ∀ s : State, memWf s.mem → s.ch.bound → 16 ≤ s.ch.capacity.toNat →
    s.ch.capacity.toNat < 16 + s.ch.dataLen.toNat →
    let base := s.ch.bufBase.toNat
    let range : List Byte := 0x00 :: (leBytes 4 s.ch.srcAddr.toNat ++ leBytes 4 s.ch.dstAddr.toNat ++
      leBytes 2 (s.ch.dataLen.toNat % 65536))
    let head : List Byte :=
      s.config.startMarker :: (range ++ leBytes 2 (cksum range).toNat ++ [0x00, s.ch.serviceId])
    ∃ t, exec .encodeRequest s = .next t ∧
      t.ch = { s.ch with phase := .encoded, lastError := s.config.errBufferTooSmall } ∧
      sameElsewhere s t ∧ t.reply = s.reply ∧ t.draws = s.draws ∧
      ∀ a, memGet t.mem a = if base ≤ a ∧ a < base + 16 then head.getD (a - base) 0 else memGet s.mem a

/-- DECODE_FRAME_HEADER, command code 0x03: the six flags, the addresses and the length are decoded whatever the checks
find; `LAST_ERROR` is `ERR_INVALID_FRAME` if the marker, the length bounds or the header checksum is bad, and as it was
otherwise; nothing else changes. A buffer below 14 bytes is refused (R158, R159). -/
def Obligations.DecodeFrameHeaderResult : Prop :=
  ∀ s : State, s.ch.bound →
    let f := unpackFf s.config.fflags (bufAt s 1)
    decode s.config (.cmd 0x03) = .ok .decodeFrameHeader ∧
    (s.ch.capacity.toNat < 14 →
      ∃ k, s.ch.capacity.toNat ≤ k ∧ exec .decodeFrameHeader s = .refused (.outOfBuffer k)) ∧
    (14 ≤ s.ch.capacity.toNat → exec .decodeFrameHeader s = .next (s.setCh { s.ch with
      ffDatalogFile := f.datalogFile, ffSdFull := f.sdFull, ffSdPresent := f.sdPresent
      ffRccReset := f.rccReset, ffMsgPending := f.msgPending, ffReserved := f.reserved
      srcAddr := BitVec.ofNat 32 (bufField s 2 4), dstAddr := BitVec.ofNat 32 (bufField s 6 4)
      dataLen := BitVec.ofNat 32 (bufField s 10 2)
      lastError :=
        if bufAt s 0 ≠ s.config.startMarker ∨ bufField s 10 2 < 2 ∨
            s.ch.capacity.toNat < 14 + bufField s 10 2 + 2 ∨ (cksum (bufList s 1 11)).toNat ≠ bufField s 12 2
        then s.config.errInvalidFrame else s.ch.lastError
      phase := .headerDecoded }))

/-- DECODE_FRAME_DATA, command code 0x04: a no-op while `LAST_ERROR` is not 0; else the service flags and id are decoded
whatever the checks find, and `ERR_INVALID_FRAME` is recorded if the payload checksum is bad or the response flag is
clear; nothing else changes. A payload that leaves the buffer is then refused (R160, R161). -/
def Obligations.DecodeFrameDataResult : Prop :=
  ∀ s : State, s.ch.bound →
    let g := unpackSf s.config.sflags (bufAt s 14)
    decode s.config (.cmd 0x04) = .ok .decodeFrameData ∧
    (s.ch.lastError ≠ 0 → exec .decodeFrameData s = .next s) ∧
    (s.ch.lastError = 0 → s.ch.capacity.toNat < 16 + s.ch.dataLen.toNat →
      ∃ k, s.ch.capacity.toNat ≤ k ∧ exec .decodeFrameData s = .refused (.outOfBuffer k)) ∧
    (s.ch.lastError = 0 → 16 + s.ch.dataLen.toNat ≤ s.ch.capacity.toNat →
     exec .decodeFrameData s = .next (s.setCh { s.ch with
      sfResponse := g.response, sfError := g.error, sfReserved := g.reserved, serviceId := bufAt s 15
      lastError :=
        if (cksum (bufList s 14 s.ch.dataLen.toNat)).toNat ≠ bufField s (14 + s.ch.dataLen.toNat) 2 ∨ g.response = 0
        then s.config.errInvalidFrame else 0
      phase := .dataDecoded }))

/-- The one masking effect: a non-zero `LAST_ERROR` makes DECODE_FRAME_DATA a no-op, and no other operation reads
`LAST_ERROR`: from states that differ in it alone they give the same outcome, but for what it holds (R221). -/
def Obligations.LastErrorMasksDataDecodeOnly : Prop :=
  ∀ (s : State) (i : Instr), isOperation i = true →
    (i = .decodeFrameData → s.ch.lastError ≠ 0 → exec i s = .next s) ∧
    (i ≠ .decodeFrameData → ∀ e : BitVec 16,
      match exec i s with
      | .next t => ∃ u, exec i (recordError s e) = .next u ∧ recordError u e = recordError t e
      | .fault r => exec i (recordError s e) = .fault r
      | .refused r => exec i (recordError s e) = .refused r)

/-- FRAME_LENGTH, the read of register 0x13, answers the host `14 + DATA_LEN + 2`, not reduced, and changes nothing of
the block (R164). -/
def Obligations.FrameLengthResult : Prop :=
  ∀ s : State, decode s.config (.regRead 0x13) = .ok .frameLength ∧
    ∃ v : BitVec 33, exec .frameLength s = .next (s.setReply (.value v)) ∧ v.toNat = 14 + s.ch.dataLen.toNat + 2

/-- After a DECODE_FRAME_HEADER that leaves `LAST_ERROR` at 0, DECODE_FRAME_DATA completes (R162). -/
def Obligations.DecodeFrameDataSafeAfterHeader : Prop :=
  ∀ s t : State, s.ch.bound → exec .decodeFrameHeader s = .next t → t.ch.lastError = 0 → s.config.errInvalidFrame ≠ 0 →
    2 ≤ t.ch.dataLen.toNat ∧ 16 + t.ch.dataLen.toNat ≤ t.ch.capacity.toNat ∧
    ∃ u, exec .decodeFrameData t = .next u

/-- The header round trip: ENCODE_REQUEST then DECODE_FRAME_HEADER recovers the addresses and the length, leaves all
frame flags 0 and no error; a DECODE_FRAME_DATA after that records `ERR_INVALID_FRAME` (R165). -/
def Obligations.HeaderRoundTrip : Prop :=
  ∀ s : State, memWf s.mem → s.ch.bound → s.ch.lastError = 0 → 2 ≤ s.ch.dataLen.toNat →
    s.ch.dataLen.toNat ≤ 0xFFFF → 16 + s.ch.dataLen.toNat ≤ s.ch.capacity.toNat →
    ∃ t u v, exec .encodeRequest s = .next t ∧ exec .decodeFrameHeader t = .next u ∧
      exec .decodeFrameData u = .next v ∧
      u.ch.srcAddr = s.ch.srcAddr ∧ u.ch.dstAddr = s.ch.dstAddr ∧ u.ch.dataLen = s.ch.dataLen ∧
      u.ch.ffDatalogFile = 0 ∧ u.ch.ffSdFull = 0 ∧ u.ch.ffSdPresent = 0 ∧ u.ch.ffRccReset = 0 ∧
      u.ch.ffMsgPending = 0 ∧ u.ch.ffReserved = 0 ∧ u.ch.lastError = 0 ∧
      v.ch.lastError = s.config.errInvalidFrame

/-- After DECODE_FRAME_HEADER and DECODE_FRAME_DATA from `LAST_ERROR = 0`, it is still 0 exactly when the marker, the
length bounds, both checksums and the response bit are right (R166). -/
def Obligations.FrameAcceptedExactly : Prop :=
  ∀ s : State, s.ch.bound → 14 ≤ s.ch.capacity.toNat → s.ch.lastError = 0 → s.config.errInvalidFrame ≠ 0 →
    let n := bufField s 10 2
    ∃ t u, exec .decodeFrameHeader s = .next t ∧ exec .decodeFrameData t = .next u ∧
      (u.ch.lastError = 0 ↔
        bufAt s 0 = s.config.startMarker ∧ 2 ≤ n ∧ 16 + n ≤ s.ch.capacity.toNat ∧
        bufField s 12 2 = (cksum (bufList s 1 11)).toNat ∧
        bufField s (14 + n) 2 = (cksum (bufList s 14 n)).toNat ∧
        (unpackSf s.config.sflags (bufAt s 14)).response = 1)

/-! ### The property codec -/

/-- PROP_INIT, command code 0x08: `VALUE_MAX = CAPACITY - 24`, nothing else changed; where that already holds the
operation changes nothing (R180). -/
def Obligations.PropInitResult : Prop :=
  ∀ s : State,
    decode s.config (.cmd 0x08) = .ok .propInit ∧
    (∃ v : BitVec 33, exec .propInit s = .next (s.setCh { s.ch with valueMax := v }) ∧
      v.toInt = (s.ch.capacity.toNat : Int) - 24) ∧
    (s.ch.derived → exec .propInit s = .next s)

/-- ENCODE_READ, command code 0x09: service id 1, `VALUE_LEN` 0, `DATA_LEN` 10, the property header little-endian at
offsets 16 to 23; every other register and byte unchanged. A buffer below 24 bytes is refused (R183). -/
def Obligations.EncodeReadResult : Prop :=
  ∀ s : State, memWf s.mem → s.ch.bound →
    let at16 := s.ch.bufBase.toNat + 16
    let head := leBytes 2 s.ch.objType.toNat ++ leBytes 4 s.ch.objId.toNat ++ leBytes 2 s.ch.propId.toNat
    decode s.config (.cmd 0x09) = .ok .encodeRead ∧
    (s.ch.capacity.toNat < 24 →
      ∃ k, s.ch.capacity.toNat ≤ k ∧ exec .encodeRead s = .refused (.outOfBuffer k)) ∧
    (24 ≤ s.ch.capacity.toNat → ∃ t, exec .encodeRead s = .next t ∧
      t.ch = { s.ch with serviceId := 1, valueLen := 0, dataLen := 10 } ∧ sameElsewhere s t ∧
      t.reply = s.reply ∧ t.draws = s.draws ∧
      ∀ a, memGet t.mem a = if at16 ≤ a ∧ a < at16 + 8 then head.getD (a - at16) 0 else memGet s.mem a)

/-- ENCODE_WRITE, command code 0x0A: service id 2, `DATA_LEN = 10 + VALUE_LEN`, the property header at offsets 16 to 23;
every other register and byte, the value bytes among them, unchanged. A sum that does not fit `DATA_LEN` and a buffer
below 24 bytes are refused (R185). -/
def Obligations.EncodeWriteResult : Prop :=
  ∀ s : State, memWf s.mem → s.ch.bound →
    let at16 := s.ch.bufBase.toNat + 16
    let head := leBytes 2 s.ch.objType.toNat ++ leBytes 4 s.ch.objId.toNat ++ leBytes 2 s.ch.propId.toNat
    decode s.config (.cmd 0x0A) = .ok .encodeWrite ∧
    (4294967296 ≤ 10 + s.ch.valueLen.toNat → exec .encodeWrite s = .refused (.dataLenOverflow s.ch.valueLen)) ∧
    (10 + s.ch.valueLen.toNat < 4294967296 → s.ch.capacity.toNat < 24 →
      ∃ k, s.ch.capacity.toNat ≤ k ∧ exec .encodeWrite s = .refused (.outOfBuffer k)) ∧
    (10 + s.ch.valueLen.toNat < 4294967296 → 24 ≤ s.ch.capacity.toNat → ∃ t, exec .encodeWrite s = .next t ∧
      t.ch = { s.ch with serviceId := 2, dataLen := t.ch.dataLen } ∧
      t.ch.dataLen.toNat = 10 + s.ch.valueLen.toNat ∧ sameElsewhere s t ∧
      t.reply = s.reply ∧ t.draws = s.draws ∧
      ∀ a, memGet t.mem a = if at16 ≤ a ∧ a < at16 + 8 then head.getD (a - at16) 0 else memGet s.mem a)

/-- FRAME_INIT with `OP_A + OP_B > 2^AW` is refused (R152), and ENCODE_WRITE with `VALUE_LEN > 2^32 - 11`, whatever the
buffer (R187). -/
def Obligations.OversizeRefused : Prop :=
  ∀ s : State,
    (4294967296 < s.ch.opA.toNat + s.ch.opB.toNat →
      exec .frameInit s = .refused (.bufferPastTop s.ch.opA s.ch.opB)) ∧
    (4294967296 - 11 < s.ch.valueLen.toNat → exec .encodeWrite s = .refused (.dataLenOverflow s.ch.valueLen))

/-- DECODE_READ_PROPERTY without the error flag and with an implied length between 0 and `VALUE_MAX` accepts:
`VALUE_LEN` is the implied length, the property header is decoded, nothing else changes (R190). -/
def Obligations.DecodeReadPropertyAccepts : Prop :=
  ∀ s : State, s.ch.bound → s.ch.derived → s.ch.sfError = 0 → 10 ≤ s.ch.dataLen.toNat →
    (s.ch.dataLen.toNat : Int) - 10 ≤ s.ch.valueMax.toInt →
    exec .decodeReadProperty s = .next (s.setCh { s.ch with
      valueLen := BitVec.ofNat 32 (s.ch.dataLen.toNat - 10)
      objType := BitVec.ofNat 16 (bufField s 16 2), objId := BitVec.ofNat 32 (bufField s 18 4)
      propId := BitVec.ofNat 16 (bufField s 22 2) })

/-- DECODE_WRITE_PROPERTY without the error flag accepts an implied length of exactly 0 in a buffer that holds a value
region, and nothing else: then `VALUE_LEN` is 0, the property header is decoded, nothing else changes; otherwise
`VALUE_LEN` is 0, `ERR_BUFFER_TOO_SMALL` is recorded, no property header is decoded, nothing else changes (R193). -/
def Obligations.DecodeWritePropertyAccepts : Prop :=
  ∀ s : State, s.ch.bound → s.ch.derived → s.ch.sfError = 0 →
    (s.ch.dataLen.toNat = 10 → 0 ≤ s.ch.valueMax.toInt →
      exec .decodeWriteProperty s = .next (s.setCh { s.ch with
        valueLen := 0
        objType := BitVec.ofNat 16 (bufField s 16 2), objId := BitVec.ofNat 32 (bufField s 18 4)
        propId := BitVec.ofNat 16 (bufField s 22 2) })) ∧
    (s.ch.dataLen.toNat ≠ 10 ∨ s.ch.valueMax.toInt < 0 →
      exec .decodeWriteProperty s =
        .next (s.setCh { s.ch with valueLen := 0, lastError := s.config.errBufferTooSmall }))

/-- Without the error flag and with a length that is not accepted, either decode sets `VALUE_LEN` to 0 and records
`ERR_BUFFER_TOO_SMALL`, and changes nothing else (R190, R193, R214). -/
def Obligations.DecodePropertyRejectsLength : Prop :=
  ∀ s : State, s.ch.sfError = 0 →
    (¬(0 ≤ (s.ch.dataLen.toNat : Int) - 10 ∧ (s.ch.dataLen.toNat : Int) - 10 ≤ s.ch.valueMax.toInt) →
      exec .decodeReadProperty s =
        .next (s.setCh { s.ch with valueLen := 0, lastError := s.config.errBufferTooSmall })) ∧
    (¬((s.ch.dataLen.toNat : Int) - 10 = 0 ∧ 0 ≤ s.ch.valueMax.toInt) →
      exec .decodeWriteProperty s =
        .next (s.setCh { s.ch with valueLen := 0, lastError := s.config.errBufferTooSmall }))

/-- An application error response: with the error flag and an implied length of exactly 2 either decode takes the
property header and stores the 16-bit code at offsets 24 and 25 into `LAST_ERROR`, as it is; `VALUE_LEN` holds any
value, nothing else changes; a buffer below 26 bytes is then refused. With any other length it sets `VALUE_LEN` to 0 and
records `ERR_INVALID_FRAME`, and changes nothing else (R196). -/
def Obligations.DecodePropertyErrorResponse : Prop :=
  ∀ (s : State) (i : Instr), (i = .decodeReadProperty ∨ i = .decodeWriteProperty) → s.ch.sfError = 1 →
    (s.ch.dataLen.toNat = 12 → s.ch.bound → 26 ≤ s.ch.capacity.toNat →
      ∃ t, exec i s = .next t ∧
        t.ch = { s.ch with
          lastError := BitVec.ofNat 16 (bufField s 24 2), valueLen := t.ch.valueLen
          objType := BitVec.ofNat 16 (bufField s 16 2), objId := BitVec.ofNat 32 (bufField s 18 4)
          propId := BitVec.ofNat 16 (bufField s 22 2) } ∧
        t.mem = s.mem ∧ t.reply = s.reply ∧ sameElsewhere s t) ∧
    (s.ch.dataLen.toNat = 12 → s.ch.bound → s.ch.capacity.toNat < 26 →
      ∃ k, s.ch.capacity.toNat ≤ k ∧ exec i s = .refused (.outOfBuffer k)) ∧
    (s.ch.dataLen.toNat ≠ 12 →
      exec i s = .next (s.setCh { s.ch with valueLen := 0, lastError := s.config.errInvalidFrame }))

/-! ### The message shapes -/

/-- FRAME.READ_REQUEST leaves in the buffer exactly the frame that encodes it, and the registers as ENCODE_READ and
ENCODE_REQUEST leave them; no byte outside those 26 changes (R107, R114, R92). That the row is READ_REQ, run whole in
one step, is the model's choice (log 9). -/
def Obligations.ReadRequestBuildsItsFrame : Prop :=
  ∀ (s : State) (src dst : BitVec 32) (otype : BitVec 16) (oid : BitVec 32) (pid : BitVec 16),
    memWf s.mem → s.ch.bound → 26 ≤ s.ch.capacity.toNat →
    ∃ t, exec (.frameReadRequest src dst otype oid pid) s = .next t ∧
      encode s.config (.frameReadRequest src dst otype oid pid) = .frame (bufList t 0 26) ∧
      t.ch = { s.ch with srcAddr := src, dstAddr := dst, objType := otype, objId := oid, propId := pid
                         serviceId := 1, valueLen := 0, dataLen := 10, phase := .encoded } ∧
      sameMemoryOutside s t s.ch.bufBase.toNat 26 ∧ sameElsewhere s t ∧ t.reply = s.reply ∧ t.draws = s.draws

/-- FRAME.WRITE_REQUEST leaves in the buffer exactly the frame that encodes it, and the registers as ENCODE_WRITE and
ENCODE_REQUEST leave them; no byte outside the frame changes (R107, R114, R92). That the row is WRITE_REQ, run whole in
one step, is the model's choice (log 9). The value has at most 65525 bytes, the most that the length field describes
(R250); `WriteRequestIsItsLines` speaks of longer ones. -/
def Obligations.WriteRequestBuildsItsFrame : Prop :=
  ∀ (s : State) (src dst : BitVec 32) (otype : BitVec 16) (oid : BitVec 32) (pid : BitVec 16) (value : List Byte),
    memWf s.mem → s.ch.bound → 26 + value.length ≤ s.ch.capacity.toNat → value.length ≤ 65525 →
    ∃ t, exec (.frameWriteRequest src dst otype oid pid value) s = .next t ∧
      encode s.config (.frameWriteRequest src dst otype oid pid value) = .frame (bufList t 0 (26 + value.length)) ∧
      t.ch = { s.ch with srcAddr := src, dstAddr := dst, objType := otype, objId := oid, propId := pid
                         serviceId := 2, valueLen := BitVec.ofNat 32 value.length
                         dataLen := BitVec.ofNat 32 (10 + value.length), phase := .encoded } ∧
      sameMemoryOutside s t s.ch.bufBase.toNat (26 + value.length) ∧ sameElsewhere s t ∧
      t.reply = s.reply ∧ t.draws = s.draws

/-- FRAME.READ_RESPONSE of a frame that the frame codec accepts, without the error flag: with a payload of at least 10
bytes it is accepted, `VALUE_LEN` is the value's length and the value stands at offset 24; with a shorter one
`ERR_BUFFER_TOO_SMALL` is recorded (R107, R114, R198). That the row is READ_RSP, run whole in one step, is the model's
choice (log 9). `ResponseIsItsLines` speaks of every other frame. -/
def Obligations.ReadResponseReceived : Prop :=
  ∀ (s : State) (bytes : List Byte),
    memWf s.mem → s.ch.bound → s.ch.derived → s.ch.lastError = 0 → goodFrame s.config s.ch.capacity.toNat bytes →
    (unpackSf s.config.sflags (sflagsByte bytes)).error = 0 →
    ∃ t, exec (.frameReadResponse bytes) s = .next t ∧
      (10 ≤ imageLen bytes → t.ch = { receivedChannel s.config s.ch bytes with
          valueLen := BitVec.ofNat 32 (imageLen bytes - 10)
          objType := imageOtype bytes, objId := imageOid bytes, propId := imagePid bytes } ∧
        bufList t 24 (imageLen bytes - 10) = imageValue bytes) ∧
      (imageLen bytes < 10 → t.ch = { receivedChannel s.config s.ch bytes with
          valueLen := 0, lastError := s.config.errBufferTooSmall }) ∧
      bufList t 0 bytes.length = bytes ∧ sameMemoryOutside s t s.ch.bufBase.toNat bytes.length ∧
      sameElsewhere s t ∧ t.draws = s.draws

/-- FRAME.WRITE_RESPONSE of a frame that the frame codec accepts, without the error flag: a payload of exactly 10 bytes
is accepted; any other length records `ERR_BUFFER_TOO_SMALL` (R107, R114, R198). That the row is WRITE_RSP, run whole in
one step, is the model's choice (log 9). -/
def Obligations.WriteResponseReceived : Prop :=
  ∀ (s : State) (bytes : List Byte),
    memWf s.mem → s.ch.bound → s.ch.derived → s.ch.lastError = 0 → goodFrame s.config s.ch.capacity.toNat bytes →
    (unpackSf s.config.sflags (sflagsByte bytes)).error = 0 →
    ∃ t, exec (.frameWriteResponse bytes) s = .next t ∧
      (imageLen bytes = 10 → t.ch = { receivedChannel s.config s.ch bytes with
          valueLen := 0, objType := imageOtype bytes, objId := imageOid bytes, propId := imagePid bytes }) ∧
      (imageLen bytes ≠ 10 → t.ch = { receivedChannel s.config s.ch bytes with
          valueLen := 0, lastError := s.config.errBufferTooSmall }) ∧
      bufList t 0 bytes.length = bytes ∧ sameMemoryOutside s t s.ch.bufBase.toNat bytes.length ∧
      sameElsewhere s t ∧ t.draws = s.draws

/-- FRAME.ERROR_RESPONSE of a frame that the frame codec accepts, with the error flag: a payload of exactly 12 bytes
stores its 16-bit code into `LAST_ERROR`, as received; any other length records `ERR_INVALID_FRAME` (R107, R196). That
the row is received and decoded whole in one step is the model's choice (log 9), and so is the decode, that of
DECODE_READ_PROPERTY (log 21). -/
def Obligations.ErrorResponseReceived : Prop :=
  ∀ (s : State) (bytes : List Byte),
    memWf s.mem → s.ch.bound → s.ch.lastError = 0 → goodFrame s.config s.ch.capacity.toNat bytes →
    (unpackSf s.config.sflags (sflagsByte bytes)).error = 1 →
    ∃ t, exec (.frameErrorResponse bytes) s = .next t ∧
      (imageLen bytes = 12 → t.ch = { receivedChannel s.config s.ch bytes with
          valueLen := t.ch.valueLen, lastError := BitVec.ofNat 16 (fieldAt bytes 24 2)
          objType := imageOtype bytes, objId := imageOid bytes, propId := imagePid bytes }) ∧
      (imageLen bytes ≠ 12 → t.ch = { receivedChannel s.config s.ch bytes with
          valueLen := 0, lastError := s.config.errInvalidFrame }) ∧
      bufList t 0 bytes.length = bytes ∧ sameMemoryOutside s t s.ch.bufBase.toNat bytes.length ∧ sameElsewhere s t

/-- A message whose header the frame codec rejects: after the first 14 bytes are stored and decoded, nothing more of it
is stored, the data is not decoded, and `LAST_ERROR` is `ERR_INVALID_FRAME` (R114, R77, R248). That a message is run whole
in one step is the model's choice (log 9), and so is the reading of RECV's line (log 20). -/
def Obligations.BadHeaderStopsReception : Prop :=
  ∀ (s : State) (bytes : List Byte) (i : Instr),
    (i = .frameReadResponse bytes ∨ i = .frameWriteResponse bytes ∨ i = .frameErrorResponse bytes) →
    memWf s.mem → s.ch.bound → 14 ≤ s.ch.capacity.toNat → 14 ≤ bytes.length → s.config.errInvalidFrame ≠ 0 →
    (bytes.getD 0 0 ≠ s.config.startMarker ∨ imageLen bytes < 2 ∨ s.ch.capacity.toNat < 16 + imageLen bytes ∨
      (cksum ((bytes.drop 1).take 11)).toNat ≠ fieldAt bytes 12 2) →
    ∃ t, exec i s = .next t ∧
      t.ch = { receivedChannel s.config s.ch bytes with
        sfResponse := s.ch.sfResponse, sfError := s.ch.sfError, sfReserved := s.ch.sfReserved
        serviceId := s.ch.serviceId, lastError := s.config.errInvalidFrame, phase := .headerDecoded } ∧
      bufList t 0 14 = bytes.take 14 ∧ sameMemoryOutside s t s.ch.bufBase.toNat 14 ∧ sameElsewhere s t

/-- FRAME.READ_REQUEST adds no behaviour to READ_REQ's seven lines: from every state, running them through the port one
after the other gives the same outcome, refusals included (R114). It justifies the model's choice to run the row in one
step (log 9). -/
def Obligations.ReadRequestIsItsLines : Prop :=
  ∀ (s : State) (src dst : BitVec 32) (otype : BitVec 16) (oid : BitVec 32) (pid : BitVec 16),
    Host.Core.run Sys2Proof.core 7 (linesAtPort s
      [.writeReg 0x0C src, .writeReg 0x0D dst, .writeReg 0x14 (otype.setWidth 32), .writeReg 0x15 oid,
       .writeReg 0x16 (pid.setWidth 32), .writeReg 0x00 0x09, .writeReg 0x00 0x02]) =
      exec (.frameReadRequest src dst otype oid pid) s

/-- FRAME.WRITE_REQUEST adds no behaviour to WRITE_REQ's nine lines (R114). It justifies the model's choice to run the row
in one step (log 9). A value of `2^32` bytes or more has no `SET VALUE_LEN` line that fits the register (log 14). -/
def Obligations.WriteRequestIsItsLines : Prop :=
  ∀ (s : State) (src dst : BitVec 32) (otype : BitVec 16) (oid : BitVec 32) (pid : BitVec 16) (value : List Byte),
    value.length < 4294967296 →
    Host.Core.run Sys2Proof.core 9 (linesAtPort s
      [.writeReg 0x0C src, .writeReg 0x0D dst, .writeReg 0x14 (otype.setWidth 32), .writeReg 0x15 oid,
       .writeReg 0x16 (pid.setWidth 32), .store 24 value, .writeReg 0x17 (BitVec.ofNat 32 value.length),
       .writeReg 0x00 0x0A, .writeReg 0x00 0x02]) =
      exec (.frameWriteRequest src dst otype oid pid value) s

/-- A response shape adds no behaviour to RECV's lines and the property decode that READ_RSP or WRITE_RSP puts after
them when `LAST_ERROR` is 0 (R114; an error response is decoded as READ_RSP does, log 21; RECV's line is read as in log
20). It justifies the model's choice to run the row in one step (log 9). -/
def Obligations.ResponseIsItsLines : Prop :=
  ∀ (s : State) (bytes : List Byte) (i : Instr) (code : BitVec 32),
    ((i = .frameReadResponse bytes ∧ code = 0x0B) ∨ (i = .frameWriteResponse bytes ∧ code = 0x0C) ∨
      (i = .frameErrorResponse bytes ∧ code = 0x0B)) →
    let first : Host.Outcome State Fault Refusal := Host.Core.run Sys2Proof.core 3
      (linesAtPort s [.store 0 (bytes.take 14), .writeReg 0x00 0x03, .readReg 0x05])
    let second (u : State) : Host.Outcome State Fault Refusal := Host.Core.run Sys2Proof.core 3
      (linesAtPort u [.store 14 (bytes.drop 14), .writeReg 0x00 0x04, .readReg 0x05])
    exec i s =
      match first with
      | .next u =>
        if u.ch.lastError ≠ 0 then .next u
        else
          match second u with
          | .next v =>
            if v.ch.lastError ≠ 0 then .next v
            else Host.Core.run Sys2Proof.core 1 (linesAtPort v [.writeReg 0x00 code])
          | .fault r => .fault r
          | .refused r => .refused r
      | .fault r => .fault r
      | .refused r => .refused r

/-- The property round trip: the read request of R199, encoded and then header-decoded, reproduces each field (R199). The
request is built by one FRAME.READ_REQUEST, which runs READ_REQ whole: the model's choice (log 9). -/
def Obligations.PropertyRoundTrip : Prop :=
  ∀ (s : State) (p : BitVec 16), memWf s.mem → s.ch.bound → s.ch.lastError = 0 → 26 ≤ s.ch.capacity.toNat →
    ∃ t u, exec (.frameReadRequest 1 101 2 3000 p) s = .next t ∧ exec .decodeFrameHeader t = .next u ∧
      u.ch.srcAddr = 1 ∧ u.ch.dstAddr = 101 ∧ u.ch.dataLen = 10 ∧ u.ch.lastError = 0 ∧
      u.ch.objType = 2 ∧ u.ch.objId = 3000 ∧ u.ch.propId = p ∧
      bufField u 16 2 = 2 ∧ bufField u 18 4 = 3000 ∧ bufField u 22 2 = p.toNat

/-! ### Errors -/

/-- `LAST_ERROR` is sticky: once it is not 0, no instruction but FRAME_INIT makes it 0, except that a property decode may
store an application error code of 0 (R217, R218, R24). -/
def Obligations.LastErrorSticky : Prop :=
  ∀ (s t : State) (i : Instr), s.config.wf → s.ch.lastError ≠ 0 → i ≠ .frameInit → exec i s = .next t →
    t.ch.lastError ≠ 0 ∨
    ((i = .decodeReadProperty ∨ i = .decodeWriteProperty) ∧ s.ch.sfError = 1 ∧ s.ch.dataLen.toNat = 12 ∧
      bufField s 24 2 = 0)

/-- The complete list of the operations' refusals, from every state that meets the invariant: each is refused exactly
under the condition of R222, and an operation of the block never faults. -/
def Obligations.RefusalConditions : Prop :=
  ∀ s : State, s.Inv →
    let refused (i : Instr) : Prop := ∃ e, exec i s = .refused e
    let outOfBuffer (i : Instr) : Prop := ∃ k, s.ch.capacity.toNat ≤ k ∧ exec i s = .refused (.outOfBuffer k)
    let cap := s.ch.capacity.toNat
    (∀ i, isOperation i = true → noFault (exec i s)) ∧
    (¬ refused .ckInit ∧ ¬ refused .ckUpdate ∧ ¬ refused .frameLength ∧ ¬ refused .propInit) ∧
    (outOfBuffer .ckRange ↔ 0 < s.ch.opB.toNat ∧ cap < s.ch.opA.toNat + s.ch.opB.toNat) ∧
    (refused .ckRange ↔ outOfBuffer .ckRange) ∧
    (refused .frameInit ↔ 4294967296 < s.ch.opA.toNat + s.ch.opB.toNat) ∧
    (outOfBuffer .encodeRequest ↔ cap < 16) ∧ (refused .encodeRequest ↔ outOfBuffer .encodeRequest) ∧
    (outOfBuffer .decodeFrameHeader ↔ cap < 14) ∧ (refused .decodeFrameHeader ↔ outOfBuffer .decodeFrameHeader) ∧
    (outOfBuffer .decodeFrameData ↔ s.ch.lastError = 0 ∧ cap < 16 + s.ch.dataLen.toNat) ∧
    (refused .decodeFrameData ↔ outOfBuffer .decodeFrameData) ∧
    (outOfBuffer .encodeRead ↔ cap < 24) ∧ (refused .encodeRead ↔ outOfBuffer .encodeRead) ∧
    (outOfBuffer .encodeWrite ↔ 10 + s.ch.valueLen.toNat < 4294967296 ∧ cap < 24) ∧
    (refused .encodeWrite ↔ 4294967296 ≤ 10 + s.ch.valueLen.toNat ∨ cap < 24) ∧
    (∀ i, i = .decodeReadProperty ∨ i = .decodeWriteProperty →
      (outOfBuffer i ↔ s.ch.sfError = 1 ∧ s.ch.dataLen.toNat = 12 ∧ cap < 26) ∧ (refused i ↔ outOfBuffer i))

/-! ### Frames -/

/-- No instruction writes `OP_A` or `OP_B` (R43), the parameters (R49), another channel (R20) or the host's accesses to
come. -/
def Obligations.OperandsAndOtherChannelsUnwritten : Prop :=
  ∀ (s t : State) (i : Instr), exec i s = .next t →
    t.ch.opA = s.ch.opA ∧ t.ch.opB = s.ch.opB ∧ sameElsewhere s t

/-- `BUF_BASE` and `CAPACITY` are written by FRAME_INIT only (R22, R23), `CK_A` and `CK_B` by the checksum unit only
(R42), and `VALUE_MAX` by FRAME_INIT and PROP_INIT only (R39). -/
def Obligations.BindingAndAccumulatorsWriters : Prop :=
  ∀ (s t : State) (i : Instr), exec i s = .next t →
    (i ≠ .frameInit → t.ch.bufBase = s.ch.bufBase ∧ t.ch.capacity = s.ch.capacity) ∧
    (i ≠ .ckInit → i ≠ .ckUpdate → i ≠ .ckRange → t.ch.ckA = s.ch.ckA ∧ t.ch.ckB = s.ch.ckB) ∧
    (i ≠ .frameInit → i ≠ .propInit → t.ch.valueMax = s.ch.valueMax)

/-- The register frame of the operations that store nothing: each writes at most the registers that R45 lists for it,
and every byte of memory reads as before. -/
def Obligations.RegisterFrames : Prop :=
  ∀ s t : State,
    (∀ i, i = .ckInit ∨ i = .ckUpdate ∨ i = .ckRange → exec i s = .next t →
      t = s.setCh { s.ch with ckA := t.ch.ckA, ckB := t.ch.ckB }) ∧
    (exec .frameInit s = .next t → sameMemory s t ∧ t.reply = s.reply ∧
      t.ch = { t.ch with
        opA := s.ch.opA, opB := s.ch.opB, objType := s.ch.objType, objId := s.ch.objId, propId := s.ch.propId
        valueLen := s.ch.valueLen, ckA := s.ch.ckA, ckB := s.ch.ckB }) ∧
    (exec .decodeFrameHeader s = .next t → t = s.setCh { s.ch with
      ffDatalogFile := t.ch.ffDatalogFile, ffSdFull := t.ch.ffSdFull, ffSdPresent := t.ch.ffSdPresent
      ffRccReset := t.ch.ffRccReset, ffMsgPending := t.ch.ffMsgPending, ffReserved := t.ch.ffReserved
      srcAddr := t.ch.srcAddr, dstAddr := t.ch.dstAddr, dataLen := t.ch.dataLen, lastError := t.ch.lastError
      phase := t.ch.phase }) ∧
    (exec .decodeFrameData s = .next t → t = s.setCh { s.ch with
      sfResponse := t.ch.sfResponse, sfError := t.ch.sfError, sfReserved := t.ch.sfReserved
      serviceId := t.ch.serviceId, lastError := t.ch.lastError, phase := t.ch.phase }) ∧
    (exec .frameLength s = .next t → t = s.setReply t.reply) ∧
    (exec .propInit s = .next t → t = s.setCh { s.ch with valueMax := t.ch.valueMax }) ∧
    (∀ i, i = .decodeReadProperty ∨ i = .decodeWriteProperty → exec i s = .next t →
      sameMemory s t ∧ t.reply = s.reply ∧ t.ch = { s.ch with
        valueLen := t.ch.valueLen, objType := t.ch.objType, objId := t.ch.objId, propId := t.ch.propId
        lastError := t.ch.lastError })

/-- The frame of the storing operations: ENCODE_REQUEST writes `LAST_ERROR` and PHASE and the bytes at offsets 0 to 15
and `14 + DATA_LEN`, `15 + DATA_LEN`, where the frame fits; ENCODE_READ and ENCODE_WRITE write `SERVICE_ID`,
`VALUE_LEN` (ENCODE_READ only) and `DATA_LEN` and the bytes at offsets 16 to 23 (R45). -/
def Obligations.StoringOperationFrames : Prop :=
  ∀ s t : State, memWf s.mem →
    let base := s.ch.bufBase.toNat
    let n := s.ch.dataLen.toNat
    (exec .encodeRequest s = .next t →
      t.ch = { s.ch with lastError := t.ch.lastError, phase := .encoded } ∧ t.reply = s.reply ∧ t.draws = s.draws ∧
      ∀ a, ¬(base ≤ a ∧ a < base + 16) →
        ¬(16 + n ≤ s.ch.capacity.toNat ∧ base + 14 + n ≤ a ∧ a < base + 16 + n) →
        memGet t.mem a = memGet s.mem a) ∧
    (exec .encodeRead s = .next t →
      t.ch = { s.ch with serviceId := 1, valueLen := 0, dataLen := 10 } ∧ t.reply = s.reply ∧ t.draws = s.draws ∧
      sameMemoryOutside s t (base + 16) 8) ∧
    (exec .encodeWrite s = .next t →
      t.ch = { s.ch with serviceId := 2, dataLen := t.ch.dataLen } ∧ t.reply = s.reply ∧ t.draws = s.draws ∧
      sameMemoryOutside s t (base + 16) 8)

/-- An operation neither writes nor reads a byte of `MEM` outside its channel's buffer (R61). After it every byte
outside the buffer is as before, and the operations that R45 gives no store leave the whole memory. From another memory
that holds the same bytes in the buffer it gives the same outcome, and the same bytes in the buffer. -/
def Obligations.StoresStayInBuffer : Prop :=
  ∀ (s : State) (i : Instr), memWf s.mem → isOperation i = true →
    let inBuffer (a : Nat) : Prop := s.ch.bufBase.toNat ≤ a ∧ a < s.ch.bufBase.toNat + s.ch.capacity.toNat
    (∀ t, exec i s = .next t →
      sameMemoryOutside s t s.ch.bufBase.toNat s.ch.capacity.toNat ∧
      (i ≠ .encodeRequest → i ≠ .encodeRead → i ≠ .encodeWrite → t.mem = s.mem)) ∧
    (∀ m, memWf m → (∀ a, inBuffer a → memGet m a = memGet s.mem a) →
      match exec i s with
      | .next t => ∃ u, exec i (s.setMem m) = .next u ∧ u.setMem t.mem = t ∧
          ∀ a, inBuffer a → memGet u.mem a = memGet t.mem a
      | .fault r => exec i (s.setMem m) = .fault r
      | .refused r => exec i (s.setMem m) = .refused r)

/-- The frame of the message shapes: a request writes the address, property, service id, length, error and PHASE
registers; a response writes what the three decodes write; neither writes a byte outside the stretch from `BUF_BASE`
that its stores and its frame reach (R114, R45). That a message is run whole in one step is the model's choice (log 9). -/
def Obligations.MessageFrames : Prop :=
  ∀ s t : State, memWf s.mem →
    (∀ src dst otype oid pid, exec (.frameReadRequest src dst otype oid pid) s = .next t →
      t.ch = { s.ch with
        srcAddr := src, dstAddr := dst, objType := otype, objId := oid, propId := pid, serviceId := 1, valueLen := 0
        dataLen := 10, lastError := t.ch.lastError, phase := .encoded } ∧
      t.reply = s.reply ∧ t.draws = s.draws ∧ sameMemoryOutside s t s.ch.bufBase.toNat 26) ∧
    (∀ src dst otype oid pid value, exec (.frameWriteRequest src dst otype oid pid value) s = .next t →
      t.ch = { s.ch with
        srcAddr := src, dstAddr := dst, objType := otype, objId := oid, propId := pid, serviceId := 2
        valueLen := t.ch.valueLen, dataLen := t.ch.dataLen, lastError := t.ch.lastError, phase := .encoded } ∧
      t.ch.valueLen.toNat = value.length ∧ t.ch.dataLen.toNat = 10 + value.length ∧
      t.reply = s.reply ∧ t.draws = s.draws ∧
      sameMemoryOutside s t s.ch.bufBase.toNat (26 + value.length)) ∧
    (∀ bytes i, i = .frameReadResponse bytes ∨ i = .frameWriteResponse bytes ∨ i = .frameErrorResponse bytes →
      exec i s = .next t →
      t.ch = { t.ch with
        opA := s.ch.opA, opB := s.ch.opB, bufBase := s.ch.bufBase, capacity := s.ch.capacity
        valueMax := s.ch.valueMax, ckA := s.ch.ckA, ckB := s.ch.ckB } ∧
      sameMemoryOutside s t s.ch.bufBase.toNat (max 14 bytes.length))

/-- An operation neither reads nor writes the registers of another channel: with the other channels replaced by any
others it does the same (R20, R226). -/
def Obligations.OperationsIgnoreOtherChannels : Prop :=
  ∀ (i : Instr) (s : State) (before after : List Channel),
    exec i { s with before := before, after := after } =
      match exec i s with
      | .next t => .next { t with before := before, after := after }
      | .fault r => .fault r
      | .refused r => .refused r

/-! ### The machine -/

/-- A step runs the decoded instruction: where the next access is a packet at a channel's port that decodes to `i`, the
step is `exec i` with that channel selected and the access taken from the inbox (R70, R43). The channel already
selected is selected unchanged. With a table word placed before the other accesses, the step runs the word's instruction
on the state as it was. The inbox (log 8), the selection (log 16) and what a table word stands for (log 10, log 11, under
the parameters of log 2) are the model's choice. -/
def Obligations.StepRunsDecodedInstruction : Prop :=
  (∀ (s s' : State) (c : Nat) (act : Action) (rest : List Access) (p : Packet) (i : Instr),
    s.inbox = .port c act :: rest → selectChannel c (s.setInbox rest) = some s' → act.packet = some p →
    decode s'.config p = .ok i → i.wf s'.config = true → step s = exec i s') ∧
  (∀ s : State, selectChannel s.before.length s = some s) ∧
  (∀ (s : State) (nbits w : Nat) (i : Instr), s.config = Config.default → decodeTableWord nbits w = some i →
    step (s.withFetchWord nbits w) = exec i s)

/-- With no access to come the block idles: nothing executes until the host writes `CMD` (R240, R246; the idle step is
the model's, log 8). -/
def Obligations.IdleStepChangesNothing : Prop :=
  ∀ s : State, s.inbox = [] → step s = .next s

/-- The invariant of the machine is kept by every step: legal parameters, their number of channels, in every channel the
buffer inside `MEM` and `VALUE_MAX = CAPACITY - 24`, memory in canonical form (R3, R20, R39, R63). -/
def Obligations.StepKeepsInvariant : Prop :=
  ∀ s t : State, s.Inv → step s = .next t → t.Inv

/-- The invariant holds at reset, under the default parameters and under every legal choice of them. -/
def Obligations.ResetMeetsInvariant : Prop :=
  State.reset.Inv ∧ ∀ c : Config, c.wf → (State.resetWith c).Inv

/-- What reset leaves, as R50 states it: `LAST_ERROR` 0, `CK_A` 0xFF, `CK_B` 0x00, `CAPACITY` 0, `VALUE_MAX` -24, PHASE
new, in every channel; `VALUE_OFF` reads 24, `CK_SUM` 0x00FF, and `FRAME_LEN` follows from `DATA_LEN`. -/
def Obligations.ResetValues : Prop :=
  ∀ c : Config, ∀ x ∈ (State.resetWith c).channels,
    x.lastError = 0 ∧ x.ckA = 0xFF ∧ x.ckB = 0x00 ∧ x.capacity = 0 ∧ x.valueMax.toInt = -24 ∧ x.phase = .new ∧
    ckSum x = 0x00FF ∧ regValue x 0x18 = 24 ∧ (regValue x 0x13).toNat = 14 + x.dataLen.toNat + 2

/-- A hardware reset acts on all channels at once: each takes the values R50 states; the number of channels, the
parameters and (the model's choice, log 17) the bytes of memory and the accesses to come are as before. -/
def Obligations.HardwareResetResult : Prop :=
  ∀ (s : State) (rest : List Access), s.inbox = .reset :: rest →
    ∃ t, step s = .next t ∧ t.channels.length = s.channels.length ∧ t.config = s.config ∧ t.mem = s.mem ∧
      t.inbox = rest ∧ ∀ x ∈ t.channels,
        x.lastError = 0 ∧ x.ckA = 0xFF ∧ x.ckB = 0x00 ∧ x.capacity = 0 ∧ x.valueMax.toInt = -24 ∧ x.phase = .new

/-- What happens at one channel's port changes no register of another channel (R20, R226). -/
def Obligations.ChannelsIndependent : Prop :=
  ∀ (s t : State) (c : Nat) (act : Action) (rest : List Access), s.inbox = .port c act :: rest → step s = .next t →
    t.channels.length = s.channels.length ∧ t.inbox = rest ∧
    ∀ j, j ≠ c → t.channels[j]? = s.channels[j]?

/-- A host read has no side effect on the block: only the reply changes. Every number of R44 reads its own register;
`CMD` and the unassigned numbers read 0, and `FRAME_LEN`, `VALUE_OFF` and `CK_SUM` read as derived (R44, R31, R38, R42).
That the answer has 33 bits is the model's choice (log 25). -/
def Obligations.HostReadResult : Prop :=
  ∀ (s : State) (num : BitVec 8), ∃ v : BitVec 33,
    step (atPort s (.readReg num)) = .next (s.setReply (.value v)) ∧
    (num = 0x00 → v = 0) ∧
    (num = 0x01 → v.toNat = s.ch.opA.toNat) ∧ (num = 0x02 → v.toNat = s.ch.opB.toNat) ∧
    (num = 0x03 → v.toNat = s.ch.bufBase.toNat) ∧ (num = 0x04 → v.toNat = s.ch.capacity.toNat) ∧
    (num = 0x05 → v.toNat = s.ch.lastError.toNat) ∧
    (num = 0x06 → v.toNat = s.ch.ffDatalogFile.toNat) ∧ (num = 0x07 → v.toNat = s.ch.ffSdFull.toNat) ∧
    (num = 0x08 → v.toNat = s.ch.ffSdPresent.toNat) ∧ (num = 0x09 → v.toNat = s.ch.ffRccReset.toNat) ∧
    (num = 0x0A → v.toNat = s.ch.ffMsgPending.toNat) ∧ (num = 0x0B → v.toNat = s.ch.ffReserved.toNat) ∧
    (num = 0x0C → v.toNat = s.ch.srcAddr.toNat) ∧ (num = 0x0D → v.toNat = s.ch.dstAddr.toNat) ∧
    (num = 0x0E → v.toNat = s.ch.sfResponse.toNat) ∧ (num = 0x0F → v.toNat = s.ch.sfError.toNat) ∧
    (num = 0x10 → v.toNat = s.ch.sfReserved.toNat) ∧ (num = 0x11 → v.toNat = s.ch.serviceId.toNat) ∧
    (num = 0x12 → v.toNat = s.ch.dataLen.toNat) ∧ (num = 0x13 → v.toNat = 14 + s.ch.dataLen.toNat + 2) ∧
    (num = 0x14 → v.toNat = s.ch.objType.toNat) ∧ (num = 0x15 → v.toNat = s.ch.objId.toNat) ∧
    (num = 0x16 → v.toNat = s.ch.propId.toNat) ∧ (num = 0x17 → v.toNat = s.ch.valueLen.toNat) ∧
    (num = 0x18 → v = 24) ∧ (num = 0x19 → v.toInt = s.ch.valueMax.toInt) ∧
    (num = 0x1A → v.toNat = s.ch.ckA.toNat) ∧ (num = 0x1B → v.toNat = s.ch.ckB.toNat) ∧
    (num = 0x1C → v.toNat = 256 * s.ch.ckB.toNat + s.ch.ckA.toNat) ∧
    (0x1D ≤ num.toNat → v = 0)

/-- A host write to a read-only or unassigned register is ignored (R44). -/
def Obligations.HostWriteIgnored : Prop :=
  ∀ (s : State) (num : BitVec 8) (v : BitVec 32),
    (num.toNat = 0x03 ∨ num.toNat = 0x04 ∨ (0x06 ≤ num.toNat ∧ num.toNat ≤ 0x0B) ∨
      (0x0E ≤ num.toNat ∧ num.toNat ≤ 0x10) ∨ num.toNat = 0x13 ∨ 0x18 ≤ num.toNat) →
    step (atPort s (.writeReg num v)) = .next s

/-- A host write of a value that fits to a writable register is what the host then reads there, and no register of
another number reads otherwise than before, but `FRAME_LEN`, derived from `DATA_LEN` (R44). -/
def Obligations.HostWriteReadsBack : Prop :=
  ∀ (s : State) (num : BitVec 8) (v : BitVec 32),
    (num.toNat ∈ [0x01, 0x02, 0x0C, 0x0D, 0x12, 0x15, 0x17] ∨
      (num.toNat ∈ [0x05, 0x14, 0x16] ∧ v.toNat < 65536) ∨ (num.toNat = 0x11 ∧ v.toNat < 256)) →
    ∃ t, step (atPort s (.writeReg num v)) = .next t ∧
      step (atPort t (.readReg num)) = .next (t.setReply (.value (v.setWidth 33))) ∧
      t.mem = s.mem ∧ sameElsewhere s t ∧
      ∀ other : BitVec 8, other ≠ num → other ≠ 0x13 → regValue t.ch other = regValue s.ch other

/-- Stores and loads of the host or the transport, by buffer offset (R113) and by address (R60). A store is what the
memory then holds there; every other byte and every register is as before. A load answers the bytes that the memory
holds, lowest address first, and changes nothing but the reply (R69, R71). Offset `k` is address `BUF_BASE + k` without
a check against `CAPACITY`, and an access past the top of `MEM` faults whole: the model's choice (log 15). -/
def Obligations.HostStoreResult : Prop :=
  ∀ s : State, memWf s.mem →
    let base := s.ch.bufBase.toNat
    let stored (o : Host.Outcome State Fault Refusal) (addr : Nat) (bytes : List Byte) : Prop :=
      if addr + bytes.length ≤ 4294967296 then
        ∃ t, o = .next t ∧ t.ch = s.ch ∧ sameElsewhere s t ∧ t.reply = s.reply ∧ t.draws = s.draws ∧
          ∀ a, memGet t.mem a =
            if addr ≤ a ∧ a < addr + bytes.length then bytes.getD (a - addr) 0 else memGet s.mem a
      else bytes ≠ [] → o = .fault (.noSuchAddress (addr + bytes.length - 1))
    let loaded (o : Host.Outcome State Fault Refusal) (addr n : Nat) : Prop :=
      if addr + n ≤ 4294967296 then
        ∃ l : List Byte, o = .next (s.setReply (.bytes l)) ∧ l.length = n ∧
          ∀ j, j < n → l.getD j 0 = memGet s.mem (addr + j)
      else n ≠ 0 → o = .fault (.noSuchAddress (addr + n - 1))
    (∀ k bytes, stored (step (atPort s (.store k bytes))) (base + k) bytes) ∧
    (∀ addr bytes, stored (step (s.setInbox (.memStore addr bytes :: s.inbox))) addr bytes) ∧
    (∀ k n, loaded (step (atPort s (.load k n))) (base + k) n) ∧
    (∀ addr n, loaded (step (s.setInbox (.memLoad addr n :: s.inbox))) addr n)

/-- The transport's reports write their code into `LAST_ERROR` and nothing else (R216, R24). That a port or I/O failure
is a number into a list of codes among the parameters is the model's choice (log 24). -/
def Obligations.TransportErrorResult : Prop :=
  ∀ s : State,
    step (atPort s .deviceNotFound) = .next (s.setCh { s.ch with lastError := s.config.errDeviceNotFound }) ∧
    step (atPort s .responseTimeout) = .next (s.setCh { s.ch with lastError := s.config.errResponseTimeout }) ∧
    ∀ (k : Nat) (e : BitVec 16), s.config.errPortIo[k]? = some e →
      step (atPort s (.portIoFailure k)) = .next (s.setCh { s.ch with lastError := e })
end

