-- ==== Sys2Proof/Laws/Bytes.lean ====
section
/-! SUPPORT. The laws of byte order and of the checksum function. -/

namespace Sys2Proof.Machine

@[simp] theorem length_leBytes (n v : Nat) : (leBytes n v).length = n := by
  induction n generalizing v with
  | zero => rfl
  | succ n ih => simp [leBytes, ih]

/-- Writing a number and reading it back keeps its low bytes (R64, R65). -/
theorem leNat_leBytes (n v : Nat) : leNat (leBytes n v) = v % 256 ^ n := by
  induction n generalizing v with
  | zero => simp [leBytes, leNat, Nat.mod_one]
  | succ n ih =>
    rw [leBytes, leNat, ih, Nat.pow_succ', Nat.mod_mul, BitVec.toNat_ofNat]

/-- Reading bytes as a number and writing it gives the bytes. -/
theorem leBytes_leNat (l : List Byte) : leBytes l.length (leNat l) = l := by
  induction l with
  | nil => rfl
  | cons b bs ih =>
    have hb := b.isLt
    have h1 : (b.toNat + 256 * leNat bs) / 256 = leNat bs := by omega
    have h2 : BitVec.ofNat 8 (b.toNat + 256 * leNat bs) = b := by
      apply BitVec.eq_of_toNat_eq
      simp only [BitVec.toNat_ofNat]
      omega
    simp [leBytes, leNat, h1, h2, ih]

/-- A number of `n` bytes is below `256^n`. -/
theorem leNat_lt (l : List Byte) : leNat l < 256 ^ l.length := by
  induction l with
  | nil => simp [leNat]
  | cons b bs ih =>
    have hb := b.isLt
    simp only [leNat, List.length_cons, Nat.pow_succ]
    omega

/-- Only the low `8n` bits of a stored number count (R65). -/
theorem leBytes_mod (n v : Nat) : leBytes n (v % 256 ^ n) = leBytes n v := by
  rw [← leNat_leBytes]
  simpa using leBytes_leNat (leBytes n v)

/-- A register written as a field and read back as one is unchanged. -/
theorem ofNat_leNat_leBytes (n w : Nat) (v : BitVec w) (hw : 2 ^ w ≤ 256 ^ n) :
    BitVec.ofNat w (leNat (leBytes n v.toNat)) = v := by
  have : v.toNat < 256 ^ n := Nat.lt_of_lt_of_le v.isLt hw
  rw [leNat_leBytes, Nat.mod_eq_of_lt this, BitVec.ofNat_toNat, BitVec.setWidth_eq]

/-- One more byte at the end of the list: the streaming law of R133(b). -/
theorem ckRun_concat (acc : Byte × Byte) (l : List Byte) (b : Byte) :
    ckRun acc (l ++ [b]) = ckStep (ckRun acc l) b := by
  simp [ckRun]

@[simp] theorem ckRun_nil (acc : Byte × Byte) : ckRun acc [] = acc := rfl

@[simp] theorem ckRun_cons (acc : Byte × Byte) (b : Byte) (l : List Byte) :
    ckRun acc (b :: l) = ckRun (ckStep acc b) l := rfl

/-- The low byte of a joined pair is A (R130). -/
@[simp] theorem ckJoin_low (acc : Byte × Byte) : (ckJoin acc).setWidth 8 = acc.1 := by
  apply BitVec.eq_of_getLsbD_eq
  intro i hi
  rw [ckJoin, BitVec.getLsbD_setWidth, BitVec.getLsbD_append]
  simp [hi]

/-- The high byte of a joined pair is B (R130). -/
@[simp] theorem ckJoin_high (acc : Byte × Byte) : ((ckJoin acc) >>> 8).setWidth 8 = acc.2 := by
  apply BitVec.eq_of_getLsbD_eq
  intro i hi
  rw [ckJoin, BitVec.getLsbD_setWidth, BitVec.getLsbD_ushiftRight, BitVec.getLsbD_append]
  simp [hi]

end Sys2Proof.Machine
end

