-- ==== Sys2Proof/Laws/Memory.lean ====
section
/-! SUPPORT. The laws of `MEM`: a read after a write, every operation keeps the canonical form, and equal contents are
equal data. -/

namespace Sys2Proof.Machine

/-- An address below every entry reads as unlisted. -/
theorem memGet_below {m : List Host.Cell} {a : Nat} (h : ∀ c ∈ m, a < c.1) : memGet m a = memFill := by
  induction m with
  | nil => rfl
  | cons c cs ih =>
    have hc := h c (by simp)
    simp only [memGet, Nat.ne_of_gt hc, if_false]
    exact ih fun d hd => h d (by simp [hd])

/-- A read after a write gives the value written at that address and what was there at every other one. -/
theorem memGet_memPut {m : List Host.Cell} (hm : memWf m) (a b : Nat) (v : Byte) :
    memGet (memPut m a v) b = if b = a then v else memGet m b := by
  induction m with
  | nil => by_cases hv : v = memFill <;> by_cases hb : b = a <;> simp_all [memPut, memGet, eq_comm]
  | cons c cs ih =>
    obtain ⟨hp, hw⟩ := hm
    have hlt : ∀ d ∈ cs, c.1 < d.1 := (List.pairwise_cons.1 hp).1
    have ih := ih ⟨(List.pairwise_cons.1 hp).2, fun d hd => hw d (by simp [hd])⟩
    unfold memPut
    split
    · rename_i hac
      split
      · rename_i hv
        by_cases hb : b = a
        · subst hb
          rw [if_pos rfl, hv]
          exact memGet_below fun d hd => by
            rcases List.mem_cons.1 hd with rfl | hd
            · exact hac
            · exact Nat.lt_trans hac (hlt d hd)
        · simp [hb]
      · by_cases hb : b = a
        · subst hb; simp [memGet]
        · simp [memGet, hb, Ne.symm hb]
    · split
      · rename_i hac
        subst hac
        split
        · rename_i hv
          by_cases hb : b = c.1
          · subst hb; rw [if_pos rfl, hv]; exact memGet_below hlt
          · simp [memGet, hb, Ne.symm hb]
        · by_cases hb : b = c.1
          · subst hb; simp [memGet]
          · simp [memGet, hb, Ne.symm hb]
      · rename_i hac
        simp only [memGet, ih]
        by_cases hb : b = a
        · subst hb; simp [Ne.symm hac]
        · simp [hb]

/-- The entries of a written memory are the written one and old ones. -/
theorem mem_memPut {m : List Host.Cell} {a : Nat} {v : Byte} {c : Host.Cell} (h : c ∈ memPut m a v) :
    (c = (a, v) ∧ v ≠ memFill) ∨ c ∈ m := by
  induction m with
  | nil => unfold memPut at h; split at h <;> simp_all
  | cons d ds ih =>
    unfold memPut at h
    split at h
    · split at h <;> simp_all
    · split at h
      · split at h <;> simp_all
        tauto
      · rcases List.mem_cons.1 h with rfl | h
        · simp
        · rcases ih h with h | h <;> simp [h]

/-- A write keeps the canonical form. -/
theorem memWf_memPut {m : List Host.Cell} (hm : memWf m) {a : Nat} (ha : a < memSize) (v : Byte) :
    memWf (memPut m a v) := by
  refine ⟨?_, fun c hc => ?_⟩
  · induction m with
    | nil => unfold memPut; split <;> simp
    | cons d ds ih =>
      obtain ⟨hp, hw⟩ := hm
      have hlt := (List.pairwise_cons.1 hp).1
      have hds := (List.pairwise_cons.1 hp).2
      unfold memPut
      split
      · split
        · exact hp
        · rename_i had _
          exact List.pairwise_cons.2 ⟨fun c hc => by
            rcases List.mem_cons.1 hc with rfl | hc
            · exact had
            · exact Nat.lt_trans had (hlt c hc), hp⟩
      · split
        · rename_i had
          split
          · exact hds
          · exact List.pairwise_cons.2 ⟨fun c hc => by rw [had]; exact hlt c hc, hds⟩
        · rename_i h1 h2
          refine List.pairwise_cons.2 ⟨fun c hc => ?_, ih ⟨hds, fun c hc => hw c (by simp [hc])⟩⟩
          rcases mem_memPut hc with ⟨rfl, -⟩ | hc
          · exact Nat.lt_of_le_of_ne (Nat.le_of_not_lt h1) (Ne.symm h2)
          · exact hlt c hc
  · rcases mem_memPut hc with ⟨rfl, hv⟩ | hc
    · exact ⟨ha, hv⟩
    · exact hm.2 c hc

/-- The empty memory has the canonical form. -/
theorem memWf_nil : memWf [] := ⟨List.Pairwise.nil, by simp⟩

/-- A store of bytes keeps the canonical form. -/
theorem memWf_memStoreBytes {m : List Host.Cell} (hm : memWf m) (l : List Byte) (a : Nat)
    (ha : a + l.length ≤ memSize) : memWf (memStoreBytes m a l) := by
  induction l generalizing m a with
  | nil => exact hm
  | cons b bs ih =>
    simp only [List.length_cons] at ha
    exact ih (memWf_memPut hm (by omega) b) (a + 1) (by omega)

/-- A read after a store of bytes: the stored byte inside the stored range, what was there outside it. -/
theorem memGet_memStoreBytes {m : List Host.Cell} (hm : memWf m) (l : List Byte) (a x : Nat)
    (ha : a + l.length ≤ memSize) :
    memGet (memStoreBytes m a l) x = if a ≤ x then l.getD (x - a) (memGet m x) else memGet m x := by
  induction l generalizing m a with
  | nil => simp [memStoreBytes]
  | cons b bs ih =>
    simp only [List.length_cons] at ha
    rw [memStoreBytes, ih (memWf_memPut hm (by omega) b) (a + 1) (by omega), memGet_memPut hm]
    by_cases h1 : a + 1 ≤ x
    · have h2 : x - a = (x - (a + 1)) + 1 := by omega
      simp [h1, show a ≤ x by omega, h2, show x ≠ a by omega]
    · by_cases h2 : x = a
      · subst h2; simp [h1]
      · simp [h1, h2, show ¬ a ≤ x by omega]

/-- The same, inside the stored range or outside it. -/
theorem memGet_store {m : List Host.Cell} (hm : memWf m) (l : List Byte) (a x : Nat) (ha : a + l.length ≤ memSize) :
    memGet (memStoreBytes m a l) x = if a ≤ x ∧ x < a + l.length then l.getD (x - a) 0 else memGet m x := by
  rw [memGet_memStoreBytes hm l a x ha]
  by_cases h : a ≤ x
  · by_cases h2 : x < a + l.length
    · rw [if_pos h, if_pos ⟨h, h2⟩]
      simp [List.getD, show x - a < l.length by omega]
    · rw [if_pos h, if_neg (by omega)]
      simp [List.getD, show l.length ≤ x - a by omega]
  · rw [if_neg h, if_neg (by omega)]

/-- Reading `n` bytes gives `n` bytes. -/
@[simp] theorem length_memLoadBytes (m : List Host.Cell) (a n : Nat) : (memLoadBytes m a n).length = n := by
  induction n generalizing a with
  | zero => rfl
  | succ n ih => simp [memLoadBytes, ih]

/-- Byte `i` of a read is the byte at the `i`-th address. -/
theorem getElem_memLoadBytes (m : List Host.Cell) (a n i : Nat) (h : i < n) :
    (memLoadBytes m a n)[i]? = some (memGet m (a + i)) := by
  induction n generalizing a i with
  | zero => omega
  | succ n ih =>
    cases i with
    | zero => simp [memLoadBytes]
    | succ i =>
      rw [memLoadBytes, List.getElem?_cons_succ, ih (a + 1) i (by omega)]
      congr 2
      omega

/-- Two reads of bytes that agree byte by byte are equal. -/
theorem memLoadBytes_congr {m m' : List Host.Cell} {a b n : Nat}
    (h : ∀ i < n, memGet m (a + i) = memGet m' (b + i)) : memLoadBytes m a n = memLoadBytes m' b n := by
  induction n generalizing a b with
  | zero => rfl
  | succ n ih =>
    have h0 := h 0 (by omega)
    simp only [Nat.add_zero] at h0
    rw [memLoadBytes, memLoadBytes, h0, ih fun i hi => ?_]
    have := h (i + 1) (by omega)
    simpa [Nat.add_assoc, Nat.add_comm 1 i] using this

/-- Reading two stretches one after the other. -/
theorem memLoadBytes_add (m : List Host.Cell) (a n k : Nat) :
    memLoadBytes m a (n + k) = memLoadBytes m a n ++ memLoadBytes m (a + n) k := by
  induction n generalizing a with
  | zero => simp [memLoadBytes]
  | succ n ih =>
    rw [Nat.add_right_comm, memLoadBytes, ih, memLoadBytes, List.cons_append, Nat.add_right_comm, Nat.add_assoc]

/-- Storing two stretches one after the other. -/
theorem memStoreBytes_append (m : List Host.Cell) (a : Nat) (l l' : List Byte) :
    memStoreBytes m a (l ++ l') = memStoreBytes (memStoreBytes m a l) (a + l.length) l' := by
  induction l generalizing m a with
  | nil => rfl
  | cons b bs ih => simp [memStoreBytes, ih, Nat.add_assoc, Nat.add_comm 1]

/-- What was stored is read back. -/
theorem memLoadBytes_memStoreBytes {m : List Host.Cell} (hm : memWf m) (l : List Byte) (a : Nat)
    (ha : a + l.length ≤ memSize) : memLoadBytes (memStoreBytes m a l) a l.length = l := by
  apply List.ext_getElem?
  intro i
  by_cases hi : i < l.length
  · rw [getElem_memLoadBytes _ _ _ _ hi, memGet_memStoreBytes hm l a _ ha]
    simp [hi]
  · rw [List.getElem?_eq_none (by simpa using hi), List.getElem?_eq_none (by simpa using hi)]

/-- Equal contents are equal data: two memories in canonical form that read alike everywhere are the same list. -/
theorem memory_ext {m m' : List Host.Cell} (hm : memWf m) (hm' : memWf m')
    (h : ∀ a, memGet m a = memGet m' a) : m = m' := by
  induction m generalizing m' with
  | nil =>
    cases m' with
    | nil => rfl
    | cons d ds =>
      have := h d.1
      simp only [memGet, if_true] at this
      exact absurd this.symm (hm'.2 d (by simp)).2
  | cons c cs ih =>
    have hcs : memWf cs := ⟨(List.pairwise_cons.1 hm.1).2, fun x hx => hm.2 x (by simp [hx])⟩
    have hc := (List.pairwise_cons.1 hm.1).1
    have hcv := (hm.2 c (by simp)).2
    cases m' with
    | nil =>
      have := h c.1
      simp only [memGet, if_true] at this
      exact absurd this hcv
    | cons d ds =>
      have hds : memWf ds := ⟨(List.pairwise_cons.1 hm'.1).2, fun x hx => hm'.2 x (by simp [hx])⟩
      have hd := (List.pairwise_cons.1 hm'.1).1
      have hdv := (hm'.2 d (by simp)).2
      have key : c.1 = d.1 := by
        rcases Nat.lt_trichotomy c.1 d.1 with hlt | heq | hgt
        · have := h c.1
          rw [memGet_below (m := d :: ds) (by
            intro x hx
            rcases List.mem_cons.1 hx with rfl | hx
            · exact hlt
            · exact Nat.lt_trans hlt (hd x hx))] at this
          simp only [memGet, if_true] at this
          exact absurd this hcv
        · exact heq
        · have := h d.1
          rw [memGet_below (m := c :: cs) (by
            intro x hx
            rcases List.mem_cons.1 hx with rfl | hx
            · exact hgt
            · exact Nat.lt_trans hgt (hc x hx))] at this
          simp only [memGet, if_true] at this
          exact absurd this.symm hdv
      have hval : c.2 = d.2 := by
        have := h c.1
        simpa [memGet, key] using this
      have hcd : c = d := Prod.ext key hval
      subst hcd
      congr 1
      refine ih hcs hds fun a => ?_
      by_cases ha : c.1 = a
      · subst ha; rw [memGet_below hc, memGet_below hd]
      · have := h a
        simpa [memGet, ha] using this

end Sys2Proof.Machine
end

