-- ==== Sys2Proof/Laws/State.lean ====
section
/-! SUPPORT. One lemma per field per update of the state, each true by definition, so that no later proof unfolds a
record update. -/

namespace Sys2Proof.Machine

variable (s : State)

@[simp] theorem State.setCh_config (c : Channel) : (s.setCh c).config = s.config := rfl
@[simp] theorem State.setCh_before (c : Channel) : (s.setCh c).before = s.before := rfl
@[simp] theorem State.setCh_ch (c : Channel) : (s.setCh c).ch = c := rfl
@[simp] theorem State.setCh_after (c : Channel) : (s.setCh c).after = s.after := rfl
@[simp] theorem State.setCh_mem (c : Channel) : (s.setCh c).mem = s.mem := rfl
@[simp] theorem State.setCh_inbox (c : Channel) : (s.setCh c).inbox = s.inbox := rfl
@[simp] theorem State.setCh_reply (c : Channel) : (s.setCh c).reply = s.reply := rfl
@[simp] theorem State.setCh_draws (c : Channel) : (s.setCh c).draws = s.draws := rfl

@[simp] theorem State.setMem_config (m : List Host.Cell) : (s.setMem m).config = s.config := rfl
@[simp] theorem State.setMem_before (m : List Host.Cell) : (s.setMem m).before = s.before := rfl
@[simp] theorem State.setMem_ch (m : List Host.Cell) : (s.setMem m).ch = s.ch := rfl
@[simp] theorem State.setMem_after (m : List Host.Cell) : (s.setMem m).after = s.after := rfl
@[simp] theorem State.setMem_mem (m : List Host.Cell) : (s.setMem m).mem = m := rfl
@[simp] theorem State.setMem_inbox (m : List Host.Cell) : (s.setMem m).inbox = s.inbox := rfl
@[simp] theorem State.setMem_reply (m : List Host.Cell) : (s.setMem m).reply = s.reply := rfl
@[simp] theorem State.setMem_draws (m : List Host.Cell) : (s.setMem m).draws = s.draws := rfl

@[simp] theorem State.setInbox_config (l : List Access) : (s.setInbox l).config = s.config := rfl
@[simp] theorem State.setInbox_before (l : List Access) : (s.setInbox l).before = s.before := rfl
@[simp] theorem State.setInbox_ch (l : List Access) : (s.setInbox l).ch = s.ch := rfl
@[simp] theorem State.setInbox_after (l : List Access) : (s.setInbox l).after = s.after := rfl
@[simp] theorem State.setInbox_mem (l : List Access) : (s.setInbox l).mem = s.mem := rfl
@[simp] theorem State.setInbox_inbox (l : List Access) : (s.setInbox l).inbox = l := rfl
@[simp] theorem State.setInbox_reply (l : List Access) : (s.setInbox l).reply = s.reply := rfl
@[simp] theorem State.setInbox_draws (l : List Access) : (s.setInbox l).draws = s.draws := rfl

@[simp] theorem State.setReply_config (r : Reply) : (s.setReply r).config = s.config := rfl
@[simp] theorem State.setReply_before (r : Reply) : (s.setReply r).before = s.before := rfl
@[simp] theorem State.setReply_ch (r : Reply) : (s.setReply r).ch = s.ch := rfl
@[simp] theorem State.setReply_after (r : Reply) : (s.setReply r).after = s.after := rfl
@[simp] theorem State.setReply_mem (r : Reply) : (s.setReply r).mem = s.mem := rfl
@[simp] theorem State.setReply_inbox (r : Reply) : (s.setReply r).inbox = s.inbox := rfl
@[simp] theorem State.setReply_reply (r : Reply) : (s.setReply r).reply = r := rfl
@[simp] theorem State.setReply_draws (r : Reply) : (s.setReply r).draws = s.draws := rfl

@[simp] theorem State.addDraws_config (n : Nat) : (s.addDraws n).config = s.config := rfl
@[simp] theorem State.addDraws_before (n : Nat) : (s.addDraws n).before = s.before := rfl
@[simp] theorem State.addDraws_ch (n : Nat) : (s.addDraws n).ch = s.ch := rfl
@[simp] theorem State.addDraws_after (n : Nat) : (s.addDraws n).after = s.after := rfl
@[simp] theorem State.addDraws_mem (n : Nat) : (s.addDraws n).mem = s.mem := rfl
@[simp] theorem State.addDraws_inbox (n : Nat) : (s.addDraws n).inbox = s.inbox := rfl
@[simp] theorem State.addDraws_reply (n : Nat) : (s.addDraws n).reply = s.reply := rfl
@[simp] theorem State.addDraws_draws (n : Nat) : (s.addDraws n).draws = s.draws + n := rfl

@[simp] theorem State.setCh_setCh (c c' :  Channel) : (s.setCh c).setCh c' = s.setCh c' := rfl
@[simp] theorem State.setMem_setMem (m m' :  List Host.Cell) : (s.setMem m).setMem m' = s.setMem m' := rfl
@[simp] theorem State.setInbox_setInbox (l l' :  List Access) : (s.setInbox l).setInbox l' = s.setInbox l' := rfl
@[simp] theorem State.setReply_setReply (r r' :  Reply) : (s.setReply r).setReply r' = s.setReply r' := rfl

@[simp] theorem State.setCh_self : s.setCh s.ch = s := rfl
@[simp] theorem State.setMem_self : s.setMem s.mem = s := rfl
@[simp] theorem State.setInbox_self : s.setInbox s.inbox = s := rfl
@[simp] theorem State.setReply_self : s.setReply s.reply = s := rfl

/-- Memory and register updates commute; every later normal form writes the registers innermost. -/
theorem State.setMem_setCh (m : List Host.Cell) (c : Channel) : (s.setMem m).setCh c = (s.setCh c).setMem m := rfl

@[simp] theorem State.setCh_channels (c : Channel) : (s.setCh c).channels = s.before ++ c :: s.after := rfl
@[simp] theorem State.setMem_channels (m : List Host.Cell) : (s.setMem m).channels = s.channels := rfl
@[simp] theorem State.setInbox_channels (l : List Access) : (s.setInbox l).channels = s.channels := rfl
@[simp] theorem State.setReply_channels (r : Reply) : (s.setReply r).channels = s.channels := rfl
@[simp] theorem State.addDraws_channels (n : Nat) : (s.addDraws n).channels = s.channels := rfl

/-- The selected channel is one of the channels. -/
theorem State.ch_mem_channels : s.ch ∈ s.channels := by simp [State.channels]

/-! The two outcomes of a run. -/

@[simp] theorem outcome_ok : outcome (.ok s) = .next s := rfl

/-- A run that answers a next state ran to its end. -/
theorem outcome_eq_next {r : Run State} {t : State} : outcome r = .next t ↔ r = .ok t := by
  rcases r with (f | f) | x <;> simp [outcome]

/-- A run that refuses was stopped by a refusal. -/
theorem outcome_eq_refused {r : Run State} {e : Refusal} :
    outcome r = .refused e ↔ r = .error (.refuse e) := by
  rcases r with (f | f) | x <;> simp [outcome]

/-- Running on after a result. -/
@[simp] theorem run_ok_bind {α β : Type} (a : α) (f : α → Run β) : ((Except.ok a : Run α) >>= f) = f a := rfl

/-- Running on after a stop. -/
@[simp] theorem run_error_bind {α β : Type} (e : Stop) (f : α → Run β) :
    ((Except.error e : Run α) >>= f) = .error e := rfl

/-- A run of two parts ends well exactly when both do. -/
theorem run_bind_eq_ok {α β : Type} {r : Run α} {f : α → Run β} {b : β} :
    (r >>= f) = .ok b ↔ ∃ a, r = .ok a ∧ f a = .ok b := by
  cases r <;> simp

end Sys2Proof.Machine
end

