-- ==== Sys2Proof/Laws/Buffer.lean ====
section
/-! SUPPORT. What the buffer access primitives can do: the range form of the byte-by-byte loops of R64 and R65, once for
"it answers" and once for "it answers exactly when". -/

namespace Sys2Proof.Machine

variable {s t : State}

/-- An offset in range passes the check (R64). -/
theorem bufCheck_ok {k : Nat} (hb : s.ch.bound) (hk : k < s.ch.capacity.toNat) :
    bufCheck s k = .ok (s.ch.bufBase.toNat + k) := by
  have : s.ch.bufBase.toNat + k < memSize := by unfold Channel.bound at hb; omega
  simp [bufCheck, hk, this]

/-- What passing the check says (R64). -/
theorem bufCheck_inv {k a : Nat} (h : bufCheck s k = .ok a) :
    a = s.ch.bufBase.toNat + k ∧ k < s.ch.capacity.toNat ∧ s.ch.bufBase.toNat + k < memSize := by
  unfold bufCheck at h
  split at h
  · rename_i hk
    split at h
    · rename_i ha
      exact ⟨(Except.ok.inj h).symm, hk, ha⟩
    · cases h
  · cases h

/-- A range of offsets can be accessed: it is empty, or it lies inside the buffer and inside `MEM`. -/
def spans (s : State) (k n : Nat) : Prop :=
  n = 0 ∨ (k + n ≤ s.ch.capacity.toNat ∧ s.ch.bufBase.toNat + (k + n) ≤ memSize)

theorem spans_of_bound {k n : Nat} (hb : s.ch.bound) (h : k + n ≤ s.ch.capacity.toNat) : spans s k n := by
  unfold Channel.bound at hb
  exact Or.inr ⟨h, by omega⟩

/-- `Bytes(k, n)` of an accessible range is what the memory holds there (R6). -/
theorem bufBytes_ok {k n : Nat} (h : spans s k n) :
    bufBytes s k n = .ok (memLoadBytes s.mem (s.ch.bufBase.toNat + k) n) := by
  induction n generalizing k with
  | zero => rfl
  | succ n ih =>
    rcases h with h | ⟨h1, h2⟩
    · omega
    have ha : bufCheck s k = .ok (s.ch.bufBase.toNat + k) := by
      have h3 : k < s.ch.capacity.toNat := by omega
      have h4 : s.ch.bufBase.toNat + k < memSize := by omega
      simp [bufCheck, h3, h4]
    have hn : bufBytes s (k + 1) n = .ok (memLoadBytes s.mem (s.ch.bufBase.toNat + (k + 1)) n) := by
      refine ih ?_
      by_cases h0 : n = 0
      · exact Or.inl h0
      · exact Or.inr ⟨by omega, by omega⟩
    simp [bufBytes, bufReadByte, ha, hn, memLoadBytes, Nat.add_assoc]

/-- `Bytes(k, n)` answers only for an accessible range. -/
theorem bufBytes_inv {k n : Nat} {l : List Byte} (h : bufBytes s k n = .ok l) :
    spans s k n ∧ l = memLoadBytes s.mem (s.ch.bufBase.toNat + k) n := by
  have hs : spans s k n := by
    induction n generalizing k l with
    | zero => exact Or.inl rfl
    | succ n ih =>
      rw [bufBytes, run_bind_eq_ok] at h
      obtain ⟨b, hb, h⟩ := h
      rw [run_bind_eq_ok] at h
      obtain ⟨bs, hbs, -⟩ := h
      rw [bufReadByte, run_bind_eq_ok] at hb
      obtain ⟨a, ha, -⟩ := hb
      obtain ⟨-, h1, h2⟩ := bufCheck_inv ha
      rcases ih hbs with h0 | ⟨h3, h4⟩
      · subst h0; exact Or.inr ⟨by omega, by omega⟩
      · exact Or.inr ⟨by omega, by omega⟩
  exact ⟨hs, by rw [bufBytes_ok hs] at h; exact (Except.ok.inj h).symm⟩

/-- A range that runs out of a bound buffer is refused at its first bad offset (R66). -/
theorem bufBytes_refused {k n : Nat} (hb : s.ch.bound) (hn : 0 < n) (h : s.ch.capacity.toNat < k + n) :
    bufBytes s k n = .error (.refuse (.outOfBuffer (max k s.ch.capacity.toNat))) := by
  induction n generalizing k with
  | zero => omega
  | succ n ih =>
    by_cases hk : k < s.ch.capacity.toNat
    · have := ih (k := k + 1) (by omega) (by omega)
      have hmax : max (k + 1) s.ch.capacity.toNat = max k s.ch.capacity.toNat := by omega
      rw [bufBytes, bufReadByte, bufCheck_ok hb hk]
      simp only [run_ok_bind, this, run_error_bind, hmax]
    · have : max k s.ch.capacity.toNat = k := by omega
      simp [bufBytes, bufReadByte, bufCheck, hk, this]

/-- A store to an accessible range puts the bytes there (R65). -/
theorem bufStore_ok {k : Nat} {l : List Byte} (h : spans s k l.length) :
    bufStore s k l = .ok (s.setMem (memStoreBytes s.mem (s.ch.bufBase.toNat + k) l)) := by
  induction l generalizing s k with
  | nil => rfl
  | cons b bs ih =>
    rcases h with h | ⟨h1, h2⟩
    · simp at h
    simp only [List.length_cons] at h1 h2
    have h3 : k < s.ch.capacity.toNat := by omega
    have h4 : s.ch.bufBase.toNat + k < memSize := by omega
    have hn : spans (s.setMem (memPut s.mem (s.ch.bufBase.toNat + k) b)) (k + 1) bs.length := by
      by_cases h0 : bs.length = 0
      · exact Or.inl h0
      · exact Or.inr ⟨by simp only [State.setMem_ch]; omega, by simp only [State.setMem_ch]; omega⟩
    simp [bufStore, bufWriteByte, bufCheck, h3, h4, ih hn, memStoreBytes, Nat.add_assoc]

/-- A store answers only for an accessible range. -/
theorem bufStore_inv {k : Nat} {l : List Byte} (h : bufStore s k l = .ok t) :
    spans s k l.length ∧ t = s.setMem (memStoreBytes s.mem (s.ch.bufBase.toNat + k) l) := by
  have hs : spans s k l.length := by
    induction l generalizing s k with
    | nil => exact Or.inl rfl
    | cons b bs ih =>
      rw [bufStore, run_bind_eq_ok] at h
      obtain ⟨u, hu, h⟩ := h
      rw [bufWriteByte, run_bind_eq_ok] at hu
      obtain ⟨a, ha, hu⟩ := hu
      obtain ⟨-, h1, h2⟩ := bufCheck_inv ha
      cases hu
      simp only [List.length_cons]
      rcases ih h with h0 | ⟨h3, h4⟩
      · rw [h0]; exact Or.inr ⟨by omega, by omega⟩
      · simp only [State.setMem_ch] at h3 h4; exact Or.inr ⟨by omega, by omega⟩
  exact ⟨hs, by rw [bufStore_ok hs] at h; exact (Except.ok.inj h).symm⟩

/-- A store that runs out of a bound buffer is refused at its first bad offset (R66). -/
theorem bufStore_refused {k : Nat} {l : List Byte} (hb : s.ch.bound) (hn : l ≠ [])
    (h : s.ch.capacity.toNat < k + l.length) :
    bufStore s k l = .error (.refuse (.outOfBuffer (max k s.ch.capacity.toNat))) := by
  induction l generalizing s k with
  | nil => exact absurd rfl hn
  | cons b bs ih =>
    simp only [List.length_cons] at h
    by_cases hk : k < s.ch.capacity.toNat
    · have hne : bs ≠ [] := by rintro rfl; simp at h; omega
      have := ih (s := s.setMem (memPut s.mem (s.ch.bufBase.toNat + k) b)) (k := k + 1) hb hne
        (by simp only [State.setMem_ch]; omega)
      have hmax : max (k + 1) s.ch.capacity.toNat = max k s.ch.capacity.toNat := by omega
      rw [bufStore, bufWriteByte, bufCheck_ok hb hk]
      simp only [run_ok_bind, this, State.setMem_ch, hmax]
    · have : max k s.ch.capacity.toNat = k := by omega
      simp [bufStore, bufWriteByte, bufCheck, hk, this]

/-- `MemRead` of an accessible field is the field's value (R64). -/
theorem memRead_ok {k n : Nat} (h : spans s k n) : memRead s k n = .ok (bufField s k n) := by
  simp [memRead, bufBytes_ok h, bufField, bufList]

/-- `MemRead` answers only for an accessible field. -/
theorem memRead_inv {k n v : Nat} (h : memRead s k n = .ok v) : spans s k n ∧ v = bufField s k n := by
  rw [memRead, run_bind_eq_ok] at h
  obtain ⟨l, hl, h⟩ := h
  obtain ⟨hs, rfl⟩ := bufBytes_inv hl
  exact ⟨hs, (Except.ok.inj h).symm⟩

/-- `MemWrite` to an accessible field stores its bytes (R65). -/
theorem memWrite_ok {k n v : Nat} (h : spans s k n) :
    memWrite s k n v = .ok (s.setMem (memStoreBytes s.mem (s.ch.bufBase.toNat + k) (leBytes n v))) :=
  bufStore_ok (by simpa using h)

/-- `MemWrite` answers only for an accessible field. -/
theorem memWrite_inv {k n v : Nat} (h : memWrite s k n v = .ok t) :
    spans s k n ∧ t = s.setMem (memStoreBytes s.mem (s.ch.bufBase.toNat + k) (leBytes n v)) := by
  simpa using bufStore_inv h

@[simp] theorem length_bufList (s : State) (k n : Nat) : (bufList s k n).length = n := by simp [bufList]

end Sys2Proof.Machine
end

