-- ==== Sys2Proof/Laws/Codec.lean ====
section
/-! SUPPORT. What each shared operation of the codecs can do: its result where its accesses are in bounds, and that it
answers only there. -/

namespace Sys2Proof.Machine

variable {s t : State}

/-! ### Accessible ranges -/

theorem spans_mono {k n k' n' : Nat} (h : spans s k n) (h1 : k' + n' ≤ k + n) (hn : n ≠ 0) : spans s k' n' := by
  rcases h with h | ⟨h2, h3⟩
  · exact absurd h hn
  · exact Or.inr ⟨by omega, by omega⟩

@[simp] theorem spans_setMem {m : List Host.Cell} {k n : Nat} : spans (s.setMem m) k n ↔ spans s k n := Iff.rfl

@[simp] theorem spans_setReply {r : Reply} {k n : Nat} : spans (s.setReply r) k n ↔ spans s k n := Iff.rfl

/-- Accessibility depends on the binding alone (R63). -/
theorem spans_setCh {c : Channel} {k n : Nat} (h1 : c.bufBase = s.ch.bufBase) (h2 : c.capacity = s.ch.capacity) :
    spans (s.setCh c) k n ↔ spans s k n := by
  simp [spans, h1, h2]

/-- A non-empty accessible range ends inside the buffer and inside `MEM`. -/
theorem spans_bounds {k n : Nat} (h : spans s k n) (hn : n ≠ 0) :
    k + n ≤ s.ch.capacity.toNat ∧ s.ch.bufBase.toNat + (k + n) ≤ memSize := h.resolve_left hn

/-! ### The buffer does not see a register update

Reads of the buffer depend on `BUF_BASE`, `CAPACITY` and the memory alone (R63), which the updates below leave. -/

/-- Two states with the same binding and memory read the same bytes. -/
theorem bufBytes_congr {u : State} (h1 : u.ch.bufBase = s.ch.bufBase) (h2 : u.ch.capacity = s.ch.capacity)
    (h3 : u.mem = s.mem) (k n : Nat) : bufBytes u k n = bufBytes s k n := by
  induction n generalizing k with
  | zero => rfl
  | succ n ih => simp only [bufBytes, bufReadByte, bufCheck, h1, h2, h3, ih]

/-- Two states with the same binding and memory read the same fields. -/
theorem memRead_congr {u : State} (h1 : u.ch.bufBase = s.ch.bufBase) (h2 : u.ch.capacity = s.ch.capacity)
    (h3 : u.mem = s.mem) (k n : Nat) : memRead u k n = memRead s k n := by
  rw [memRead, memRead, bufBytes_congr h1 h2 h3]

@[simp] theorem recordError_config (e : BitVec 16) : (recordError s e).config = s.config := rfl
@[simp] theorem recordError_mem (e : BitVec 16) : (recordError s e).mem = s.mem := rfl
@[simp] theorem recordError_draws (e : BitVec 16) : (recordError s e).draws = s.draws := rfl
@[simp] theorem recordError_reply (e : BitVec 16) : (recordError s e).reply = s.reply := rfl
@[simp] theorem recordError_before (e : BitVec 16) : (recordError s e).before = s.before := rfl
@[simp] theorem recordError_after (e : BitVec 16) : (recordError s e).after = s.after := rfl
@[simp] theorem recordError_inbox (e : BitVec 16) : (recordError s e).inbox = s.inbox := rfl
@[simp] theorem recordError_bufBase (e : BitVec 16) : (recordError s e).ch.bufBase = s.ch.bufBase := rfl
@[simp] theorem recordError_capacity (e : BitVec 16) : (recordError s e).ch.capacity = s.ch.capacity := rfl
@[simp] theorem memRead_recordError (e : BitVec 16) (k n : Nat) : memRead (recordError s e) k n = memRead s k n :=
  memRead_congr (by simp) (by simp) (by simp) k n
@[simp] theorem bufBytes_recordError (e : BitVec 16) (k n : Nat) : bufBytes (recordError s e) k n = bufBytes s k n :=
  bufBytes_congr (by simp) (by simp) (by simp) k n

@[simp] theorem recordIf_config (b : Bool) (e : BitVec 16) : (recordIf b s e).config = s.config := by
    unfold recordIf; split <;> rfl
@[simp] theorem recordIf_mem (b : Bool) (e : BitVec 16) : (recordIf b s e).mem = s.mem := by
    unfold recordIf; split <;> rfl
@[simp] theorem recordIf_draws (b : Bool) (e : BitVec 16) : (recordIf b s e).draws = s.draws := by
    unfold recordIf; split <;> rfl
@[simp] theorem recordIf_reply (b : Bool) (e : BitVec 16) : (recordIf b s e).reply = s.reply := by
    unfold recordIf; split <;> rfl
@[simp] theorem recordIf_before (b : Bool) (e : BitVec 16) : (recordIf b s e).before = s.before := by
    unfold recordIf; split <;> rfl
@[simp] theorem recordIf_after (b : Bool) (e : BitVec 16) : (recordIf b s e).after = s.after := by
    unfold recordIf; split <;> rfl
@[simp] theorem recordIf_inbox (b : Bool) (e : BitVec 16) : (recordIf b s e).inbox = s.inbox := by
    unfold recordIf; split <;> rfl
@[simp] theorem recordIf_bufBase (b : Bool) (e : BitVec 16) : (recordIf b s e).ch.bufBase = s.ch.bufBase := by
    unfold recordIf; split <;> rfl
@[simp] theorem recordIf_capacity (b : Bool) (e : BitVec 16) : (recordIf b s e).ch.capacity = s.ch.capacity := by
    unfold recordIf; split <;> rfl
@[simp] theorem memRead_recordIf (b : Bool) (e : BitVec 16) (k n : Nat) :
    memRead (recordIf b s e) k n = memRead s k n :=
  memRead_congr (by simp) (by simp) (by simp) k n
@[simp] theorem bufBytes_recordIf (b : Bool) (e : BitVec 16) (k n : Nat) :
    bufBytes (recordIf b s e) k n = bufBytes s k n :=
  bufBytes_congr (by simp) (by simp) (by simp) k n

@[simp] theorem setFrameFlags_config (f : FrameFlags) : (setFrameFlags s f).config = s.config := rfl
@[simp] theorem setFrameFlags_mem (f : FrameFlags) : (setFrameFlags s f).mem = s.mem := rfl
@[simp] theorem setFrameFlags_draws (f : FrameFlags) : (setFrameFlags s f).draws = s.draws := rfl
@[simp] theorem setFrameFlags_reply (f : FrameFlags) : (setFrameFlags s f).reply = s.reply := rfl
@[simp] theorem setFrameFlags_before (f : FrameFlags) : (setFrameFlags s f).before = s.before := rfl
@[simp] theorem setFrameFlags_after (f : FrameFlags) : (setFrameFlags s f).after = s.after := rfl
@[simp] theorem setFrameFlags_inbox (f : FrameFlags) : (setFrameFlags s f).inbox = s.inbox := rfl
@[simp] theorem setFrameFlags_bufBase (f : FrameFlags) : (setFrameFlags s f).ch.bufBase = s.ch.bufBase := rfl
@[simp] theorem setFrameFlags_capacity (f : FrameFlags) : (setFrameFlags s f).ch.capacity = s.ch.capacity := rfl
@[simp] theorem memRead_setFrameFlags (f : FrameFlags) (k n : Nat) : memRead (setFrameFlags s f) k n = memRead s k n :=
  memRead_congr (by simp) (by simp) (by simp) k n
@[simp] theorem bufBytes_setFrameFlags (f : FrameFlags) (k n : Nat) :
    bufBytes (setFrameFlags s f) k n = bufBytes s k n :=
  bufBytes_congr (by simp) (by simp) (by simp) k n

@[simp] theorem setServiceFlags_config (f : ServiceFlags) : (setServiceFlags s f).config = s.config := rfl
@[simp] theorem setServiceFlags_mem (f : ServiceFlags) : (setServiceFlags s f).mem = s.mem := rfl
@[simp] theorem setServiceFlags_draws (f : ServiceFlags) : (setServiceFlags s f).draws = s.draws := rfl
@[simp] theorem setServiceFlags_reply (f : ServiceFlags) : (setServiceFlags s f).reply = s.reply := rfl
@[simp] theorem setServiceFlags_before (f : ServiceFlags) : (setServiceFlags s f).before = s.before := rfl
@[simp] theorem setServiceFlags_after (f : ServiceFlags) : (setServiceFlags s f).after = s.after := rfl
@[simp] theorem setServiceFlags_inbox (f : ServiceFlags) : (setServiceFlags s f).inbox = s.inbox := rfl
@[simp] theorem setServiceFlags_bufBase (f : ServiceFlags) : (setServiceFlags s f).ch.bufBase = s.ch.bufBase := rfl
@[simp] theorem setServiceFlags_capacity (f : ServiceFlags) : (setServiceFlags s f).ch.capacity = s.ch.capacity := rfl
@[simp] theorem memRead_setServiceFlags (f : ServiceFlags) (k n : Nat) :
    memRead (setServiceFlags s f) k n = memRead s k n :=
  memRead_congr (by simp) (by simp) (by simp) k n
@[simp] theorem bufBytes_setServiceFlags (f : ServiceFlags) (k n : Nat) :
    bufBytes (setServiceFlags s f) k n = bufBytes s k n :=
  bufBytes_congr (by simp) (by simp) (by simp) k n

@[simp] theorem setHeaderFields_config (a b c : Nat) : (setHeaderFields s a b c).config = s.config := rfl
@[simp] theorem setHeaderFields_mem (a b c : Nat) : (setHeaderFields s a b c).mem = s.mem := rfl
@[simp] theorem setHeaderFields_draws (a b c : Nat) : (setHeaderFields s a b c).draws = s.draws := rfl
@[simp] theorem setHeaderFields_reply (a b c : Nat) : (setHeaderFields s a b c).reply = s.reply := rfl
@[simp] theorem setHeaderFields_before (a b c : Nat) : (setHeaderFields s a b c).before = s.before := rfl
@[simp] theorem setHeaderFields_after (a b c : Nat) : (setHeaderFields s a b c).after = s.after := rfl
@[simp] theorem setHeaderFields_inbox (a b c : Nat) : (setHeaderFields s a b c).inbox = s.inbox := rfl
@[simp] theorem setHeaderFields_bufBase (a b c : Nat) : (setHeaderFields s a b c).ch.bufBase = s.ch.bufBase := rfl
@[simp] theorem setHeaderFields_capacity (a b c : Nat) : (setHeaderFields s a b c).ch.capacity = s.ch.capacity := rfl
@[simp] theorem memRead_setHeaderFields (a b c : Nat) (k n : Nat) :
    memRead (setHeaderFields s a b c) k n = memRead s k n :=
  memRead_congr (by simp) (by simp) (by simp) k n
@[simp] theorem bufBytes_setHeaderFields (a b c : Nat) (k n : Nat) :
    bufBytes (setHeaderFields s a b c) k n = bufBytes s k n :=
  bufBytes_congr (by simp) (by simp) (by simp) k n

@[simp] theorem setServiceId_config (b : Byte) : (setServiceId s b).config = s.config := rfl
@[simp] theorem setServiceId_mem (b : Byte) : (setServiceId s b).mem = s.mem := rfl
@[simp] theorem setServiceId_draws (b : Byte) : (setServiceId s b).draws = s.draws := rfl
@[simp] theorem setServiceId_reply (b : Byte) : (setServiceId s b).reply = s.reply := rfl
@[simp] theorem setServiceId_before (b : Byte) : (setServiceId s b).before = s.before := rfl
@[simp] theorem setServiceId_after (b : Byte) : (setServiceId s b).after = s.after := rfl
@[simp] theorem setServiceId_inbox (b : Byte) : (setServiceId s b).inbox = s.inbox := rfl
@[simp] theorem setServiceId_bufBase (b : Byte) : (setServiceId s b).ch.bufBase = s.ch.bufBase := rfl
@[simp] theorem setServiceId_capacity (b : Byte) : (setServiceId s b).ch.capacity = s.ch.capacity := rfl
@[simp] theorem memRead_setServiceId (b : Byte) (k n : Nat) : memRead (setServiceId s b) k n = memRead s k n :=
  memRead_congr (by simp) (by simp) (by simp) k n
@[simp] theorem bufBytes_setServiceId (b : Byte) (k n : Nat) : bufBytes (setServiceId s b) k n = bufBytes s k n :=
  bufBytes_congr (by simp) (by simp) (by simp) k n

@[simp] theorem setPhase_config (p : Phase) : (setPhase s p).config = s.config := rfl
@[simp] theorem setPhase_mem (p : Phase) : (setPhase s p).mem = s.mem := rfl
@[simp] theorem setPhase_draws (p : Phase) : (setPhase s p).draws = s.draws := rfl
@[simp] theorem setPhase_reply (p : Phase) : (setPhase s p).reply = s.reply := rfl
@[simp] theorem setPhase_before (p : Phase) : (setPhase s p).before = s.before := rfl
@[simp] theorem setPhase_after (p : Phase) : (setPhase s p).after = s.after := rfl
@[simp] theorem setPhase_inbox (p : Phase) : (setPhase s p).inbox = s.inbox := rfl
@[simp] theorem setPhase_bufBase (p : Phase) : (setPhase s p).ch.bufBase = s.ch.bufBase := rfl
@[simp] theorem setPhase_capacity (p : Phase) : (setPhase s p).ch.capacity = s.ch.capacity := rfl
@[simp] theorem memRead_setPhase (p : Phase) (k n : Nat) : memRead (setPhase s p) k n = memRead s k n :=
  memRead_congr (by simp) (by simp) (by simp) k n
@[simp] theorem bufBytes_setPhase (p : Phase) (k n : Nat) : bufBytes (setPhase s p) k n = bufBytes s k n :=
  bufBytes_congr (by simp) (by simp) (by simp) k n

@[simp] theorem setValueLen_config (v : BitVec 32) : (setValueLen s v).config = s.config := rfl
@[simp] theorem setValueLen_mem (v : BitVec 32) : (setValueLen s v).mem = s.mem := rfl
@[simp] theorem setValueLen_draws (v : BitVec 32) : (setValueLen s v).draws = s.draws := rfl
@[simp] theorem setValueLen_reply (v : BitVec 32) : (setValueLen s v).reply = s.reply := rfl
@[simp] theorem setValueLen_before (v : BitVec 32) : (setValueLen s v).before = s.before := rfl
@[simp] theorem setValueLen_after (v : BitVec 32) : (setValueLen s v).after = s.after := rfl
@[simp] theorem setValueLen_inbox (v : BitVec 32) : (setValueLen s v).inbox = s.inbox := rfl
@[simp] theorem setValueLen_bufBase (v : BitVec 32) : (setValueLen s v).ch.bufBase = s.ch.bufBase := rfl
@[simp] theorem setValueLen_capacity (v : BitVec 32) : (setValueLen s v).ch.capacity = s.ch.capacity := rfl
@[simp] theorem memRead_setValueLen (v : BitVec 32) (k n : Nat) : memRead (setValueLen s v) k n = memRead s k n :=
  memRead_congr (by simp) (by simp) (by simp) k n
@[simp] theorem bufBytes_setValueLen (v : BitVec 32) (k n : Nat) : bufBytes (setValueLen s v) k n = bufBytes s k n :=
  bufBytes_congr (by simp) (by simp) (by simp) k n

@[simp] theorem setServiceFlags_sfResponse (f : ServiceFlags) : (setServiceFlags s f).ch.sfResponse = f.response := rfl
@[simp] theorem setHeaderFields_dataLen (a b c : Nat) :
    (setHeaderFields s a b c).ch.dataLen = BitVec.ofNat 32 c := rfl

/-! ### The request header -/

@[simp] theorem length_headerRange (src dst : BitVec 32) (len : Nat) : (headerRange src dst len).length = 11 := by
  simp [headerRange]

@[simp] theorem length_requestHeader (sm : Byte) (src dst : BitVec 32) (len : Nat) :
    (requestHeader sm src dst len).length = 14 := by
  simp [requestHeader]

@[simp] theorem length_propHeader (otype : BitVec 16) (oid : BitVec 32) (pid : BitVec 16) :
    (propHeader otype oid pid).length = 8 := by
  simp [propHeader]

/-- The header depends on the low 16 bits of the length alone (R155). -/
theorem headerRange_mod (src dst : BitVec 32) (len : Nat) :
    headerRange src dst (len % 65536) = headerRange src dst len := by
  simp only [headerRange]
  rw [show (65536 : Nat) = 256 ^ 2 by norm_num, leBytes_mod]

/-- The sixteen bytes that ENCODE_REQUEST stores unconditionally (R154). -/
def headerBytes (s : State) : List Byte :=
  requestHeader s.config.startMarker s.ch.srcAddr s.ch.dstAddr s.ch.dataLen.toNat ++ [0, s.ch.serviceId]

@[simp] theorem length_headerBytes (s : State) : (headerBytes s).length = 16 := by simp [headerBytes]

/-- The unconditional stores of ENCODE_REQUEST put `headerBytes` at offset 0 (R154). -/
theorem storeHeaders_ok (hm : memWf s.mem) (h : spans s 0 16) :
    storeHeaders s = .ok (s.setMem (memStoreBytes s.mem s.ch.bufBase.toNat (headerBytes s))) := by
  obtain ⟨h1, h2⟩ := spans_bounds h (by omega)
  have sp : ∀ k n, k + n ≤ 16 → spans s k n := fun k n hk => spans_mono h (by omega) (by omega)
  have read : ∀ (m : List Host.Cell) (sm : Byte) (l : List Byte), memWf m → l.length = 11 →
      memLoadBytes (memStoreBytes m s.ch.bufBase.toNat (sm :: l)) (s.ch.bufBase.toNat + 1) 11 = l := by
    intro m sm l hw hl
    rw [memStoreBytes, ← hl]
    exact memLoadBytes_memStoreBytes (memWf_memPut hw (by omega) sm) l _ (by omega)
  have e1 : leBytes 1 s.config.startMarker.toNat = [s.config.startMarker] := by simp [leBytes]
  have e2 : leBytes 1 s.ch.serviceId.toNat = [s.ch.serviceId] := by simp [leBytes]
  have e0 : leBytes 1 0x00 = [(0 : Byte)] := rfl
  have el : leBytes 2 (s.ch.dataLen.toNat % 65536) = leBytes 2 s.ch.dataLen.toNat := by
    rw [show (65536 : Nat) = 256 ^ 2 by norm_num, leBytes_mod]
  have join : ∀ (k : Nat) (l l' : List Byte), l.length = k →
      memStoreBytes (memStoreBytes s.mem s.ch.bufBase.toNat l) (s.ch.bufBase.toNat + k) l' =
      memStoreBytes s.mem s.ch.bufBase.toNat (l ++ l') := by
    rintro k l l' rfl; exact (memStoreBytes_append _ _ _ _).symm
  have j0 := memWrite_ok (s := s) (v := s.config.startMarker.toNat) (sp 0 1 (by omega))
  simp only [storeHeaders, j0, run_ok_bind, memWrite_ok, sp, spans_setMem, State.setMem_ch, State.setMem_mem,
    State.setMem_setMem, e0, e1, e2, el, Nat.add_zero, show (1 : Nat) + 1 ≤ 16 by omega,
    show (2 : Nat) + 4 ≤ 16 by omega, show (6 : Nat) + 4 ≤ 16 by omega, show (10 : Nat) + 2 ≤ 16 by omega,
    show (12 : Nat) + 2 ≤ 16 by omega, show (14 : Nat) + 1 ≤ 16 by omega, show (15 : Nat) + 1 ≤ 16 by omega]
  rw [join 1 _ _ rfl, join 2 _ _ (by simp), join 6 _ _ (by simp), join 10 _ _ (by simp)]
  rw [bufBytes_ok (by simpa using sp 1 11 (by omega))]
  simp only [run_ok_bind, State.setMem_mem, State.setMem_ch]
  have hr : [s.config.startMarker] ++ [(0 : Byte)] ++ leBytes 4 s.ch.srcAddr.toNat ++ leBytes 4 s.ch.dstAddr.toNat ++
      leBytes 2 s.ch.dataLen.toNat =
      s.config.startMarker :: headerRange s.ch.srcAddr s.ch.dstAddr s.ch.dataLen.toNat := by
    simp [headerRange]
  rw [hr, read _ _ _ hm (by simp), join 12 _ _ (by simp), join 14 _ _ (by simp), join 15 _ _ (by simp)]
  simp [headerBytes, requestHeader]

/-- ENCODE_REQUEST's unconditional stores answer only where offsets 0 to 15 are accessible (R156). -/
theorem storeHeaders_inv (h : storeHeaders s = .ok t) : spans s 0 16 := by
  simp only [storeHeaders, run_bind_eq_ok] at h
  obtain ⟨s1, h1, s2, h2, s3, h3, s4, h4, s5, h5, r, -, s6, h6, s7, h7, h8⟩ := h
  obtain ⟨-, rfl⟩ := memWrite_inv h1
  obtain ⟨-, rfl⟩ := memWrite_inv h2
  obtain ⟨-, rfl⟩ := memWrite_inv h3
  obtain ⟨-, rfl⟩ := memWrite_inv h4
  obtain ⟨-, rfl⟩ := memWrite_inv h5
  obtain ⟨-, rfl⟩ := memWrite_inv h6
  obtain ⟨-, rfl⟩ := memWrite_inv h7
  obtain ⟨h8, -⟩ := memWrite_inv h8
  exact spans_mono (k := 15) (n := 1) (by simpa using h8) (by omega) (by omega)

/-! ### The property header -/

/-- `WritePropHeader` puts the eight bytes at offset 16 (R182). -/
theorem writePropHeader_ok (h : spans s 16 8) :
    writePropHeader s = .ok (s.setMem (memStoreBytes s.mem (s.ch.bufBase.toNat + 16)
      (propHeader s.ch.objType s.ch.objId s.ch.propId))) := by
  have sp : ∀ k n, k + n ≤ 24 → spans s k n := fun k n hk => spans_mono h (by omega) (by omega)
  simp only [writePropHeader, memWrite_ok, run_ok_bind, sp, spans_setMem, State.setMem_ch, State.setMem_mem,
    State.setMem_setMem, show (16 : Nat) + 2 ≤ 24 by omega, show (18 : Nat) + 4 ≤ 24 by omega,
    show (22 : Nat) + 2 ≤ 24 by omega]
  have a1 : s.ch.bufBase.toNat + 18 = s.ch.bufBase.toNat + 16 + (leBytes 2 s.ch.objType.toNat).length := by simp
  have a2 : s.ch.bufBase.toNat + 22 =
      s.ch.bufBase.toNat + 16 + (leBytes 2 s.ch.objType.toNat ++ leBytes 4 s.ch.objId.toNat).length := by simp
  rw [a1, ← memStoreBytes_append, a2, ← memStoreBytes_append]
  rfl

/-- `WritePropHeader` answers only where offsets 16 to 23 are accessible (R182). -/
theorem writePropHeader_inv (h : writePropHeader s = .ok t) : spans s 16 8 := by
  simp only [writePropHeader, run_bind_eq_ok] at h
  obtain ⟨s1, h1, s2, h2, h3⟩ := h
  obtain ⟨-, rfl⟩ := memWrite_inv h1
  obtain ⟨-, rfl⟩ := memWrite_inv h2
  obtain ⟨h3, -⟩ := memWrite_inv h3
  exact spans_mono (k := 22) (n := 2) (by simpa using h3) (by omega) (by omega)

/-- The channel with its Property registers decoded from the buffer (R182). -/
def decodedProp (s : State) : Channel :=
  { s.ch with
    objType := BitVec.ofNat 16 (bufField s 16 2)
    objId := BitVec.ofNat 32 (bufField s 18 4)
    propId := BitVec.ofNat 16 (bufField s 22 2) }

/-- `ReadPropHeader` decodes the three registers (R182). -/
theorem readPropHeader_ok (h : spans s 16 8) : readPropHeader s = .ok (s.setCh (decodedProp s)) := by
  have sp : ∀ k n, k + n ≤ 24 → spans s k n := fun k n hk => spans_mono h (by omega) (by omega)
  simp [readPropHeader, memRead_ok, sp, decodedProp]

/-- `ReadPropHeader` after `VALUE_LEN` is set (R190, R193). -/
theorem readPropHeader_setValueLen (v : BitVec 32) (h : spans s 16 8) :
    readPropHeader (setValueLen s v) = .ok (s.setCh { decodedProp s with valueLen := v }) :=
  readPropHeader_ok (s := setValueLen s v) h

/-- `ReadPropHeader` answers only where offsets 16 to 23 are accessible (R182). -/
theorem readPropHeader_inv (h : readPropHeader s = .ok t) : spans s 16 8 ∧ t = s.setCh (decodedProp s) := by
  have hs : spans s 16 8 := by
    simp only [readPropHeader, run_bind_eq_ok] at h
    obtain ⟨a, -, b, -, c, h3, -⟩ := h
    exact spans_mono (memRead_inv h3).1 (by omega) (by omega)
  exact ⟨hs, by rw [readPropHeader_ok hs] at h; exact (Except.ok.inj h).symm⟩

/-! ### The recordings -/

/-- A conditional recording, as an update of one register (R159, R161). -/
theorem recordIf_eq (b : Bool) (s : State) (code : BitVec 16) :
    recordIf b s code = s.setCh { s.ch with lastError := if b then code else s.ch.lastError } := by
  unfold recordIf
  split <;> rfl

/-! ### The frame decodes -/

/-- The three checks of DECODE_FRAME_HEADER (R158). -/
abbrev headerBad (s : State) : Prop :=
  bufField s 0 1 ≠ s.config.startMarker.toNat ∨
  (bufField s 10 2 < 2 ∨ 14 + bufField s 10 2 + 2 > s.ch.capacity.toNat) ∨
  (cksum (bufList s 1 11)).toNat ≠ bufField s 12 2

/-- The channel after DECODE_FRAME_HEADER, with `LAST_ERROR` as given (R158). -/
def decodedHeader (s : State) (e : BitVec 16) : Channel :=
  let f := unpackFf s.config.fflags (bufAt s 1)
  { s.ch with
    ffDatalogFile := f.datalogFile, ffSdFull := f.sdFull, ffSdPresent := f.sdPresent,
    ffRccReset := f.rccReset, ffMsgPending := f.msgPending, ffReserved := f.reserved,
    srcAddr := BitVec.ofNat 32 (bufField s 2 4)
    dstAddr := BitVec.ofNat 32 (bufField s 6 4)
    dataLen := BitVec.ofNat 32 (bufField s 10 2)
    lastError := e
    phase := .headerDecoded }

/-- A field is below `256^n`. -/
theorem bufField_lt (s : State) (k n : Nat) : bufField s k n < 256 ^ n := by
  have := leNat_lt (bufList s k n)
  simpa [bufField] using this

/-- A one-byte field is its byte. -/
theorem bufField_one (s : State) (k : Nat) : bufField s k 1 = (bufAt s k).toNat := by
  simp [bufField, bufList, memLoadBytes, leNat, bufAt]

/-- DECODE_FRAME_HEADER where offsets 0 to 13 are accessible (R158, R159). -/
theorem decodeFrameHeaderOp_ok (h : spans s 0 14) :
    decodeFrameHeaderOp s = .ok (s.setCh (decodedHeader s
      (if headerBad s then s.config.errInvalidFrame else s.ch.lastError))) := by
  have sp : ∀ k n, k + n ≤ 14 → spans s k n := fun k n hk => spans_mono h (by omega) (by omega)
  have hl : (BitVec.ofNat 32 (bufField s 10 2)).toNat = bufField s 10 2 := by
    have := bufField_lt s 10 2
    simp only [BitVec.toNat_ofNat]
    omega
  simp only [decodeFrameHeaderOp, memRead_ok, bufBytes_ok, sp, run_ok_bind, memRead_setFrameFlags, memRead_recordIf,
    memRead_setHeaderFields, bufBytes_setHeaderFields, bufBytes_recordIf, bufBytes_setFrameFlags, recordIf_config,
    setFrameFlags_config, setHeaderFields_config, setHeaderFields_dataLen, setHeaderFields_capacity, recordIf_capacity,
    setFrameFlags_capacity, hl, show (1 : Nat) + 1 ≤ 14 by omega, show (0 : Nat) + 1 ≤ 14 by omega,
    show (2 : Nat) + 4 ≤ 14 by omega, show (6 : Nat) + 4 ≤ 14 by omega, show (10 : Nat) + 2 ≤ 14 by omega,
    show (12 : Nat) + 2 ≤ 14 by omega]
  rw [show memLoadBytes s.mem (s.ch.bufBase.toNat + 1) 11 = bufList s 1 11 from rfl,
    show BitVec.ofNat 8 (bufField s 1 1) = bufAt s 1 by simp [bufField_one]]
  by_cases h1 : (cksum (bufList s 1 11)).toNat = bufField s 12 2 <;>
    by_cases h2 : bufField s 10 2 < 2 ∨ 14 + bufField s 10 2 + 2 > s.ch.capacity.toNat <;>
    by_cases h3 : bufField s 0 1 = s.config.startMarker.toNat <;>
    simp only [recordIf, headerBad, ne_eq, decide_eq_true_eq, h1, h2, h3, not_true_eq_false, not_false_eq_true,
      if_true, if_false, or_true, or_false, recordError, setFrameFlags, setHeaderFields, setPhase, decodedHeader,
      State.setCh_setCh, State.setCh_ch, or_self]

/-- DECODE_FRAME_HEADER answers only where offsets 0 to 13 are accessible (R158). -/
theorem decodeFrameHeaderOp_inv (h : decodeFrameHeaderOp s = .ok t) : spans s 0 14 := by
  simp only [decodeFrameHeaderOp, run_bind_eq_ok] at h
  obtain ⟨f, -, m, -, a, -, b, -, l, -, r, -, c, hc, -⟩ := h
  simp only [memRead_recordIf, memRead_setHeaderFields, memRead_setFrameFlags] at hc
  exact spans_mono (memRead_inv hc).1 (by omega) (by omega)

/-- The two checks of DECODE_FRAME_DATA (R160). -/
abbrev dataBad (s : State) : Prop :=
  (cksum (bufList s 14 s.ch.dataLen.toNat)).toNat ≠ bufField s (14 + s.ch.dataLen.toNat) 2 ∨
  (unpackSf s.config.sflags (bufAt s 14)).response = 0

/-- The channel after a DECODE_FRAME_DATA that was not short-circuited, with `LAST_ERROR` as given (R160). -/
def decodedData (s : State) (e : BitVec 16) : Channel :=
  let f := unpackSf s.config.sflags (bufAt s 14)
  { s.ch with
    sfResponse := f.response, sfError := f.error, sfReserved := f.reserved
    serviceId := bufAt s 15
    lastError := e
    phase := .dataDecoded }

/-- A short-circuited DECODE_FRAME_DATA (R161, R221). -/
theorem decodeFrameDataOp_skip (h : s.ch.lastError ≠ 0) : decodeFrameDataOp s = .ok s := by
  unfold decodeFrameDataOp
  rw [if_pos h]

/-- DECODE_FRAME_DATA where offsets 14 to `15+DATA_LEN` are accessible (R160, R161). -/
theorem decodeFrameDataOp_ok (h0 : s.ch.lastError = 0) (h : spans s 14 (s.ch.dataLen.toNat + 2)) :
    decodeFrameDataOp s = .ok (s.setCh (decodedData s
      (if dataBad s then s.config.errInvalidFrame else s.ch.lastError))) := by
  have sp : ∀ k n, k + n ≤ 16 + s.ch.dataLen.toNat → spans s k n :=
    fun k n hk => spans_mono h (by omega) (by omega)
  have hw : ∀ k, BitVec.ofNat 8 (bufField s k 1) = bufAt s k := by intro k; simp [bufField_one]
  unfold decodeFrameDataOp
  rw [if_neg (by simp [h0])]
  simp only [memRead_ok (sp (14 + s.ch.dataLen.toNat) 2 (by omega)), memRead_ok (sp 14 1 (by omega)),
    memRead_ok (sp 15 1 (by omega)), bufBytes_ok (sp 14 s.ch.dataLen.toNat (by omega)), run_ok_bind,
    memRead_recordIf, memRead_setServiceFlags, recordIf_config, setServiceFlags_config, setServiceFlags_sfResponse, hw]
  rw [show memLoadBytes s.mem (s.ch.bufBase.toNat + 14) s.ch.dataLen.toNat = bufList s 14 s.ch.dataLen.toNat from rfl]
  by_cases h1 : (cksum (bufList s 14 s.ch.dataLen.toNat)).toNat = bufField s (14 + s.ch.dataLen.toNat) 2 <;>
    by_cases h2 : (unpackSf s.config.sflags (bufAt s 14)).response = 0 <;>
    simp only [recordIf, dataBad, ne_eq, decide_eq_true_eq, h1, h2, not_true_eq_false, not_false_eq_true, if_true,
      if_false, or_true, or_false, recordError, setServiceFlags, setServiceId, setPhase, decodedData,
      State.setCh_setCh, State.setCh_ch]

/-- A DECODE_FRAME_DATA that is not short-circuited answers only where its offsets are accessible (R160, R222). -/
theorem decodeFrameDataOp_inv (h0 : s.ch.lastError = 0) (h : decodeFrameDataOp s = .ok t) :
    spans s 14 (s.ch.dataLen.toNat + 2) := by
  unfold decodeFrameDataOp at h
  rw [if_neg (by simp [h0])] at h
  simp only [run_bind_eq_ok] at h
  obtain ⟨p, -, m, hm, -⟩ := h
  exact spans_mono (memRead_inv hm).1 (by omega) (by omega)

/-! ### The property decodes -/

/-- `ErrorResponse` of a well-formed error response (R196). -/
theorem errorResponse_two (h : spans s 16 10) :
    errorResponse s 2 = .ok ((s.setCh { decodedProp s with
      lastError := BitVec.ofNat 16 (bufField s 24 2), valueLen := s.anyValue 32 0 }).addDraws 1) := by
  have h1 : spans s 16 8 := spans_mono h (by omega) (by omega)
  have h2 : spans (s.setCh (decodedProp s)) 24 2 :=
    (spans_setCh rfl rfl).2 (spans_mono h (by omega) (by omega))
  rw [errorResponse, if_pos rfl, readPropHeader_ok h1, run_ok_bind, memRead_ok h2, run_ok_bind]
  rfl

/-- `ErrorResponse` of any other length (R196). -/
theorem errorResponse_other {n : Int} (h : n ≠ 2) :
    errorResponse s n = .ok (s.setCh { s.ch with valueLen := 0, lastError := s.config.errInvalidFrame }) := by
  simp [errorResponse, h, recordError, setValueLen]

/-- A well-formed error response is decoded only where offsets 16 to 25 are accessible (R196). -/
theorem errorResponse_inv (h : errorResponse s 2 = .ok t) : spans s 16 10 := by
  rw [errorResponse, if_pos rfl] at h
  simp only [run_bind_eq_ok] at h
  obtain ⟨u, hu, c, hc, -⟩ := h
  obtain ⟨-, rfl⟩ := readPropHeader_inv hu
  exact spans_mono ((spans_setCh rfl rfl).1 (memRead_inv hc).1) (by omega) (by omega)

/-! ### The rest -/

/-- The selected channel after FRAME_INIT (R150). -/
def initChannel (s : State) : Channel :=
  { s.ch with
    bufBase := s.ch.opA, capacity := s.ch.opB, lastError := 0, valueMax := valueMaxOf s.ch.opB, phase := .new
    ffDatalogFile := s.anyValue 1 0, ffSdFull := s.anyValue 1 1, ffSdPresent := s.anyValue 1 2
    ffRccReset := s.anyValue 1 3, ffMsgPending := s.anyValue 1 4, ffReserved := s.anyValue 3 5
    srcAddr := s.anyValue 32 6, dstAddr := s.anyValue 32 7
    sfResponse := s.anyValue 1 8, sfError := s.anyValue 1 9, sfReserved := s.anyValue 6 10
    serviceId := s.anyValue 8 11, dataLen := s.anyValue 32 12 }

/-- FRAME_INIT in its effect on the state, where the buffer fits `MEM` (R150). -/
theorem frameInitOp_ok (h : s.ch.opA.toNat + s.ch.opB.toNat ≤ memSize) :
    frameInitOp s = .ok ((s.setCh (initChannel s)).addDraws 13) := by
  rw [frameInitOp, initBase, initCapacity, if_pos h]
  rfl

/-- FRAME_INIT answers only where the buffer fits `MEM` (R152). -/
theorem frameInitOp_inv (h : frameInitOp s = .ok t) :
    s.ch.opA.toNat + s.ch.opB.toNat ≤ memSize ∧ t = (s.setCh (initChannel s)).addDraws 13 := by
  by_cases hf : s.ch.opA.toNat + s.ch.opB.toNat ≤ memSize
  · rw [frameInitOp_ok hf] at h
    exact ⟨hf, (Except.ok.inj h).symm⟩
  · rw [frameInitOp, initBase, initCapacity, if_neg hf] at h
    cases h

/-- The 33-bit `VALUE_MAX` holds `CAPACITY - 24` exactly (R39). -/
theorem valueMaxOf_toInt (cap : BitVec 32) : (valueMaxOf cap).toInt = (cap.toNat : Int) - 24 := by
  have := cap.isLt
  rw [valueMaxOf, BitVec.toInt_ofInt, Int.bmod_def]
  split <;> omega

end Sys2Proof.Machine
end

