-- ==== Sys2Proof/Laws/Ops.lean ====
section
/-! SUPPORT. One lemma per operation saying once everything it can do: if it answers `t`, then `t` is this. The later
proofs cite these and unfold no operation again. -/

namespace Sys2Proof.Machine

variable {s t : State}

/-- `MemWrite` writes memory alone (R65). -/
theorem memWrite_frame {k n v : Nat} (h : memWrite s k n v = .ok t) : ∃ m, t = s.setMem m :=
  ⟨_, (memWrite_inv h).2⟩

/-! ### The frame that every operation keeps -/

theorem sameElsewhere_refl (s : State) : sameElsewhere s s := ⟨rfl, rfl, rfl, rfl⟩

theorem sameElsewhere.trans {u : State} (h : sameElsewhere s t) (h' : sameElsewhere t u) : sameElsewhere s u :=
  ⟨h'.1.trans h.1, h'.2.1.trans h.2.1, h'.2.2.1.trans h.2.2.1, h'.2.2.2.trans h.2.2.2⟩
@[simp] theorem sameElsewhere_setCh (c : Channel) : sameElsewhere s (t.setCh c) ↔ sameElsewhere s t := Iff.rfl
@[simp] theorem sameElsewhere_setMem (m : List Host.Cell) : sameElsewhere s (t.setMem m) ↔ sameElsewhere s t := Iff.rfl
@[simp] theorem sameElsewhere_setReply (r : Reply) : sameElsewhere s (t.setReply r) ↔ sameElsewhere s t := Iff.rfl
@[simp] theorem sameElsewhere_addDraws (n : Nat) : sameElsewhere s (t.addDraws n) ↔ sameElsewhere s t := Iff.rfl

/-- An operation that ran to its end is a next state. -/
theorem outcome_of_ok {r : Run State} (h : r = .ok t) : outcome r = .next t := by rw [h]; rfl

/-! ### The operations -/

/-- `storeHeaders` writes memory alone (R154). -/
theorem storeHeaders_frame (h : storeHeaders s = .ok t) : ∃ m, t = s.setMem m := by
  simp only [storeHeaders, run_bind_eq_ok] at h
  obtain ⟨s1, h1, s2, h2, s3, h3, s4, h4, s5, h5, r, -, s6, h6, s7, h7, h8⟩ := h
  obtain ⟨m1, rfl⟩ := memWrite_frame h1
  obtain ⟨m2, rfl⟩ := memWrite_frame h2
  obtain ⟨m3, rfl⟩ := memWrite_frame h3
  obtain ⟨m4, rfl⟩ := memWrite_frame h4
  obtain ⟨m5, rfl⟩ := memWrite_frame h5
  obtain ⟨m6, rfl⟩ := memWrite_frame h6
  obtain ⟨m7, rfl⟩ := memWrite_frame h7
  obtain ⟨m8, rfl⟩ := memWrite_frame h8
  exact ⟨m8, by simp only [State.setMem_setMem]⟩

/-- `writePropHeader` in full (R182). -/
theorem writePropHeader_cases (h : writePropHeader s = .ok t) :
    spans s 16 8 ∧ t = s.setMem (memStoreBytes s.mem (s.ch.bufBase.toNat + 16)
      (propHeader s.ch.objType s.ch.objId s.ch.propId)) := by
  have hs := writePropHeader_inv h
  rw [writePropHeader_ok hs] at h
  exact ⟨hs, (Except.ok.inj h).symm⟩

/-- A frame of the present `DATA_LEN` does not fit the buffer (R154). -/
abbrev tooBig (s : State) : Prop := 14 + s.ch.dataLen.toNat + 2 > s.ch.capacity.toNat

/-- `storeTrailer` in full (R154). -/
theorem storeTrailer_cases (h : storeTrailer s = .ok t) :
    (tooBig s ∧ t = recordError s s.config.errBufferTooSmall) ∨
    (¬ tooBig s ∧ spans s 14 (s.ch.dataLen.toNat + 2) ∧
      t = s.setMem (memStoreBytes s.mem (s.ch.bufBase.toNat + (14 + s.ch.dataLen.toNat))
        (leBytes 2 (cksum (bufList s 14 s.ch.dataLen.toNat)).toNat))) := by
  unfold storeTrailer at h
  split at h
  · rename_i hb
    exact Or.inl ⟨hb, (Except.ok.inj h).symm⟩
  · rename_i hb
    rw [run_bind_eq_ok] at h
    obtain ⟨p, hp, h⟩ := h
    obtain ⟨-, rfl⟩ := bufBytes_inv hp
    obtain ⟨hs, rfl⟩ := memWrite_inv h
    exact Or.inr ⟨hb, spans_mono hs (by omega) (by omega), rfl⟩

/-- `storeTrailer` where the frame fits and its offsets are accessible (R154). -/
theorem storeTrailer_ok (hb : ¬ tooBig s) (hs : spans s 14 (s.ch.dataLen.toNat + 2)) :
    storeTrailer s = .ok (s.setMem (memStoreBytes s.mem (s.ch.bufBase.toNat + (14 + s.ch.dataLen.toNat))
      (leBytes 2 (cksum (bufList s 14 s.ch.dataLen.toNat)).toNat))) := by
  rw [storeTrailer, if_neg hb, bufBytes_ok (spans_mono hs (by omega) (by omega)), run_ok_bind,
    memWrite_ok (spans_mono hs (by omega) (by omega))]
  rfl

/-- `storeTrailer` where the frame does not fit (R156). -/
theorem storeTrailer_tooBig (hb : tooBig s) : storeTrailer s = .ok (recordError s s.config.errBufferTooSmall) := by
  rw [storeTrailer, if_pos hb]

/-- The state in which ENCODE_REQUEST has stored its headers. -/
def headersStored (s : State) : State := s.setMem (memStoreBytes s.mem s.ch.bufBase.toNat (headerBytes s))

@[simp] theorem headersStored_ch : (headersStored s).ch = s.ch := rfl
@[simp] theorem headersStored_config : (headersStored s).config = s.config := rfl
@[simp] theorem headersStored_mem :
    (headersStored s).mem = memStoreBytes s.mem s.ch.bufBase.toNat (headerBytes s) := rfl
@[simp] theorem spans_headersStored {k n : Nat} : spans (headersStored s) k n ↔ spans s k n := Iff.rfl

/-- The memory in which ENCODE_REQUEST has stored its headers and its payload checksum (R154). -/
def requestMem (s : State) : List Host.Cell :=
  memStoreBytes (headersStored s).mem (s.ch.bufBase.toNat + (14 + s.ch.dataLen.toNat))
    (leBytes 2 (cksum (bufList (headersStored s) 14 s.ch.dataLen.toNat)).toNat)

/-- The memory with its headers stored has the canonical form. -/
theorem memWf_headersStored (hm : memWf s.mem) (h : spans s 0 16) : memWf (headersStored s).mem := by
  obtain ⟨-, h2⟩ := spans_bounds h (by omega)
  exact memWf_memStoreBytes hm _ _ (by simpa using h2)

/-- The payload that the checksum covers: the two service header bytes just stored, and what stood after them
(R154, R157). -/
theorem bufList_headersStored (hm : memWf s.mem) (h0 : spans s 0 16) (n : Nat) :
    bufList (headersStored s) 14 n = (0x00 :: s.ch.serviceId :: bufList s 16 (n - 2)).take n := by
  obtain ⟨-, h2⟩ := spans_bounds h0 (by omega)
  have hg := fun x => memGet_store hm (headerBytes s) s.ch.bufBase.toNat x (by simpa using h2)
  apply List.ext_getElem?
  intro i
  by_cases hi : i < n
  · rw [bufList, getElem_memLoadBytes _ _ _ _ hi, List.getElem?_take, if_pos hi, headersStored_mem, hg,
      headersStored_ch]
    match i, hi with
    | 0, _ =>
      rw [if_pos (by rw [length_headerBytes]; omega)]
      simp [headerBytes, List.getD]
    | 1, _ =>
      rw [if_pos (by rw [length_headerBytes]; omega)]
      simp only [headerBytes]
      simp [List.getD, show s.ch.bufBase.toNat + 14 + 1 - s.ch.bufBase.toNat = 15 by omega]
    | i + 2, hi =>
      rw [if_neg (by rw [length_headerBytes]; omega)]
      simp only [List.getElem?_cons_succ]
      rw [bufList, getElem_memLoadBytes _ _ _ _ (by omega)]
      congr 2
      omega
  · rw [List.getElem?_eq_none (by simpa [bufList] using hi), List.getElem?_eq_none (by simp; omega)]

/-- The memory that holds a whole request has the canonical form. -/
theorem memWf_requestMem (hm : memWf s.mem) (h : spans s 0 16) (hs : spans s 14 (s.ch.dataLen.toNat + 2)) :
    memWf (requestMem s) := by
  obtain ⟨-, h2⟩ := spans_bounds hs (by omega)
  exact memWf_memStoreBytes (memWf_headersStored hm h) _ _ (by simp only [length_leBytes]; omega)

/-- PHASE and an error recorded after a store, in normal form. -/
theorem setPhase_setMem (m : List Host.Cell) (p : Phase) :
    setPhase (s.setMem m) p = (s.setCh { s.ch with phase := p }).setMem m := rfl

/-- ENCODE_REQUEST of a frame that fits (R154). -/
theorem encodeRequestOp_fits (hm : memWf s.mem) (hb : ¬ tooBig s) (h0 : spans s 0 16)
    (hs : spans s 14 (s.ch.dataLen.toNat + 2)) :
    encodeRequestOp s = .ok ((s.setCh { s.ch with phase := .encoded }).setMem (requestMem s)) := by
  rw [encodeRequestOp, storeHeaders_ok hm h0, run_ok_bind]
  have := storeTrailer_ok (s := headersStored s) hb hs
  rw [headersStored] at this
  rw [this, run_ok_bind, State.setMem_setMem, setPhase_setMem]
  rfl

/-- ENCODE_REQUEST of a frame that does not fit (R156). -/
theorem encodeRequestOp_tooBig (hm : memWf s.mem) (hb : tooBig s) (h0 : spans s 0 16) :
    encodeRequestOp s = .ok ((s.setCh { s.ch with phase := .encoded, lastError := s.config.errBufferTooSmall }).setMem
      (headersStored s).mem) := by
  rw [encodeRequestOp, storeHeaders_ok hm h0, run_ok_bind]
  have := storeTrailer_tooBig (s := headersStored s) hb
  rw [headersStored] at this
  rw [this, run_ok_bind, recordError, State.setMem_setCh, setPhase_setMem]
  rfl

/-- ENCODE_REQUEST in full, over a memory in canonical form (R154, R156). -/
theorem encodeRequestOp_cases (hm : memWf s.mem) (h : encodeRequestOp s = .ok t) :
    spans s 0 16 ∧
    ((tooBig s ∧ t = (s.setCh { s.ch with phase := .encoded, lastError := s.config.errBufferTooSmall }).setMem
        (headersStored s).mem) ∨
    (¬ tooBig s ∧ spans s 14 (s.ch.dataLen.toNat + 2) ∧
      t = (s.setCh { s.ch with phase := .encoded }).setMem (requestMem s))) := by
  have hs : spans s 0 16 := by
    simp only [encodeRequestOp, run_bind_eq_ok] at h
    obtain ⟨u, hu, -⟩ := h
    exact storeHeaders_inv hu
  refine ⟨hs, ?_⟩
  by_cases hb : tooBig s
  · rw [encodeRequestOp_tooBig hm hb hs] at h
    exact Or.inl ⟨hb, (Except.ok.inj h).symm⟩
  · have ht : spans s 14 (s.ch.dataLen.toNat + 2) := by
      simp only [encodeRequestOp, run_bind_eq_ok] at h
      obtain ⟨u, hu, v, hv, -⟩ := h
      rw [storeHeaders_ok hm hs] at hu
      cases hu
      rcases storeTrailer_cases hv with ⟨hb', -⟩ | ⟨-, hsp, -⟩
      · exact absurd hb' hb
      · exact hsp
    rw [encodeRequestOp_fits hm hb hs ht] at h
    exact Or.inr ⟨hb, ht, (Except.ok.inj h).symm⟩

/-- ENCODE_REQUEST writes memory, `LAST_ERROR` and PHASE alone (R45). -/
theorem encodeRequestOp_frame (h : encodeRequestOp s = .ok t) :
    ∃ m e, t = (s.setCh { s.ch with lastError := e, phase := .encoded }).setMem m ∧
      (e = s.ch.lastError ∨ e = s.config.errBufferTooSmall) := by
  unfold encodeRequestOp at h
  simp only [run_bind_eq_ok] at h
  obtain ⟨u, hu, v, hv, h⟩ := h
  obtain ⟨m, rfl⟩ := storeHeaders_frame hu
  cases h
  rcases storeTrailer_cases hv with ⟨-, rfl⟩ | ⟨-, -, rfl⟩
  · exact ⟨m, _, rfl, Or.inr rfl⟩
  · exact ⟨_, s.ch.lastError, rfl, Or.inl rfl⟩

/-- CK_RANGE in full (R136). -/
theorem ckRangeOp_cases (h : ckRangeOp s = .ok t) :
    spans s s.ch.opA.toNat s.ch.opB.toNat ∧ t = setAccumulators s
      ((cksum (bufList s s.ch.opA.toNat s.ch.opB.toNat)).setWidth 8,
        (cksum (bufList s s.ch.opA.toNat s.ch.opB.toNat) >>> 8).setWidth 8) := by
  simp only [ckRangeOp, run_bind_eq_ok] at h
  obtain ⟨l, hl, h⟩ := h
  obtain ⟨hs, rfl⟩ := bufBytes_inv hl
  exact ⟨hs, (Except.ok.inj h).symm⟩

/-- CK_RANGE of an accessible range (R136). -/
theorem ckRangeOp_ok (h : spans s s.ch.opA.toNat s.ch.opB.toNat) :
    ckRangeOp s = .ok (setAccumulators s
      ((cksum (bufList s s.ch.opA.toNat s.ch.opB.toNat)).setWidth 8,
        (cksum (bufList s s.ch.opA.toNat s.ch.opB.toNat) >>> 8).setWidth 8)) := by
  rw [ckRangeOp, show rangeOffset s.ch = s.ch.opA.toNat from rfl, show rangeLength s.ch = s.ch.opB.toNat from rfl,
    bufBytes_ok h]
  rfl

/-- DECODE_FRAME_HEADER in full (R158). -/
theorem decodeFrameHeaderOp_cases (h : decodeFrameHeaderOp s = .ok t) :
    spans s 0 14 ∧
    t = s.setCh (decodedHeader s (if headerBad s then s.config.errInvalidFrame else s.ch.lastError)) := by
  have hs := decodeFrameHeaderOp_inv h
  rw [decodeFrameHeaderOp_ok hs] at h
  exact ⟨hs, (Except.ok.inj h).symm⟩

/-- DECODE_FRAME_DATA in full (R160). -/
theorem decodeFrameDataOp_cases (h : decodeFrameDataOp s = .ok t) :
    (s.ch.lastError ≠ 0 ∧ t = s) ∨
    (s.ch.lastError = 0 ∧ spans s 14 (s.ch.dataLen.toNat + 2) ∧
      t = s.setCh (decodedData s (if dataBad s then s.config.errInvalidFrame else s.ch.lastError))) := by
  by_cases h0 : s.ch.lastError = 0
  · have hs := decodeFrameDataOp_inv h0 h
    rw [decodeFrameDataOp_ok h0 hs] at h
    exact Or.inr ⟨h0, hs, (Except.ok.inj h).symm⟩
  · rw [decodeFrameDataOp_skip h0] at h
    exact Or.inl ⟨h0, (Except.ok.inj h).symm⟩

/-- `ErrorResponse` in full (R196). -/
theorem errorResponse_cases {n : Int} (h : errorResponse s n = .ok t) :
    (n = 2 ∧ spans s 16 10 ∧ t = (s.setCh { decodedProp s with
      lastError := BitVec.ofNat 16 (bufField s 24 2), valueLen := s.anyValue 32 0 }).addDraws 1) ∨
    (n ≠ 2 ∧ t = s.setCh { s.ch with valueLen := 0, lastError := s.config.errInvalidFrame }) := by
  by_cases hn : n = 2
  · subst hn
    have hs := errorResponse_inv h
    rw [errorResponse_two hs] at h
    exact Or.inl ⟨rfl, hs, (Except.ok.inj h).symm⟩
  · rw [errorResponse_other hn] at h
    exact Or.inr ⟨hn, (Except.ok.inj h).symm⟩

/-- The branch of the table of R198 that either property decode took: an error response, an acceptance with the value
length `v`, or a rejection. -/
inductive PropDecoded (s t : State) (v : BitVec 32) : Prop where
  | errorCode (h1 : s.ch.sfError = 1) (h2 : s.ch.dataLen.toNat = 12) (h3 : spans s 16 10)
      (h4 : t = (s.setCh { decodedProp s with
        lastError := BitVec.ofNat 16 (bufField s 24 2), valueLen := s.anyValue 32 0 }).addDraws 1)
  | malformed (h1 : s.ch.sfError = 1) (h2 : s.ch.dataLen.toNat ≠ 12)
      (h3 : t = s.setCh { s.ch with valueLen := 0, lastError := s.config.errInvalidFrame })
  | accepted (h1 : s.ch.sfError ≠ 1) (h2 : spans s 16 8) (h3 : t = s.setCh { decodedProp s with valueLen := v })
  | rejected (h1 : s.ch.sfError ≠ 1)
      (h2 : t = s.setCh { s.ch with valueLen := 0, lastError := s.config.errBufferTooSmall })

/-- An implied length of 2 is a payload of 12 bytes (R196). -/
theorem impliedLength_eq_two (c : Channel) : impliedLength c = 2 ↔ c.dataLen.toNat = 12 := by
  unfold impliedLength; omega

/-- DECODE_READ_PROPERTY in full (R190, R198). -/
theorem decodeReadPropertyOp_cases (h : decodeReadPropertyOp s = .ok t) :
    PropDecoded s t (BitVec.ofInt 32 (impliedLength s.ch)) := by
  unfold decodeReadPropertyOp at h
  simp only at h
  split at h
  · rename_i he
    rcases errorResponse_cases h with ⟨hn, hs, rfl⟩ | ⟨hn, rfl⟩
    · exact .errorCode he ((impliedLength_eq_two _).1 hn) hs rfl
    · exact .malformed he (fun h2 => hn ((impliedLength_eq_two _).2 h2)) rfl
  · rename_i he
    split at h
    · obtain ⟨hs, rfl⟩ := readPropHeader_inv h
      exact .accepted he ((spans_setCh rfl rfl).1 hs) rfl
    · cases h
      exact .rejected he rfl

/-- DECODE_WRITE_PROPERTY in full (R193, R198). -/
theorem decodeWritePropertyOp_cases (h : decodeWritePropertyOp s = .ok t) : PropDecoded s t 0 := by
  unfold decodeWritePropertyOp at h
  simp only at h
  split at h
  · rename_i he
    rcases errorResponse_cases h with ⟨hn, hs, rfl⟩ | ⟨hn, rfl⟩
    · exact .errorCode he ((impliedLength_eq_two _).1 hn) hs rfl
    · exact .malformed he (fun h2 => hn ((impliedLength_eq_two _).2 h2)) rfl
  · rename_i he
    split at h
    · obtain ⟨hs, rfl⟩ := readPropHeader_inv h
      exact .accepted he ((spans_setCh rfl rfl).1 hs) rfl
    · cases h
      exact .rejected he rfl

/-- ENCODE_READ in full (R183). -/
theorem encodeReadOp_cases (h : encodeReadOp s = .ok t) :
    spans s 16 8 ∧ t = (s.setCh { s.ch with serviceId := 1, valueLen := 0, dataLen := 10 }).setMem
      (memStoreBytes s.mem (s.ch.bufBase.toNat + 16) (propHeader s.ch.objType s.ch.objId s.ch.propId)) := by
  obtain ⟨hs, rfl⟩ := writePropHeader_cases h
  exact ⟨(spans_setCh rfl rfl).1 hs, rfl⟩

/-- ENCODE_READ where offsets 16 to 23 are accessible (R183). -/
theorem encodeReadOp_ok (hs : spans s 16 8) :
    encodeReadOp s = .ok ((s.setCh { s.ch with serviceId := 1, valueLen := 0, dataLen := 10 }).setMem
      (memStoreBytes s.mem (s.ch.bufBase.toNat + 16) (propHeader s.ch.objType s.ch.objId s.ch.propId))) :=
  writePropHeader_ok ((spans_setCh rfl rfl).2 hs)

/-- ENCODE_WRITE in full (R185, R187). -/
theorem encodeWriteOp_cases (h : encodeWriteOp s = .ok t) :
    10 + s.ch.valueLen.toNat < 4294967296 ∧ spans s 16 8 ∧
    t = (s.setCh { s.ch with serviceId := 2, dataLen := 10 + s.ch.valueLen }).setMem
      (memStoreBytes s.mem (s.ch.bufBase.toNat + 16) (propHeader s.ch.objType s.ch.objId s.ch.propId)) := by
  unfold encodeWriteOp at h
  split at h
  · rename_i hl
    obtain ⟨hs, rfl⟩ := writePropHeader_cases h
    exact ⟨hl, (spans_setCh rfl rfl).1 hs, rfl⟩
  · cases h

/-- ENCODE_WRITE where its length and its offsets are in range (R185). -/
theorem encodeWriteOp_ok (hl : 10 + s.ch.valueLen.toNat < 4294967296) (hs : spans s 16 8) :
    encodeWriteOp s = .ok ((s.setCh { s.ch with serviceId := 2, dataLen := 10 + s.ch.valueLen }).setMem
      (memStoreBytes s.mem (s.ch.bufBase.toNat + 16) (propHeader s.ch.objType s.ch.objId s.ch.propId))) := by
  rw [encodeWriteOp, if_pos hl]
  exact writePropHeader_ok ((spans_setCh rfl rfl).2 hs)

/-- The sum written to `DATA_LEN` does not wrap (R185). -/
theorem dataLen_toNat {v : BitVec 32} (h : 10 + v.toNat < 4294967296) : ((10 : BitVec 32) + v).toNat = 10 + v.toNat :=
    by
  rw [BitVec.toNat_add]
  simpa using h

/-! ### The host's accesses and the messages -/

/-- A host store in full (R60, R69). -/
theorem hostStore_cases {a : Nat} {l : List Byte} (h : hostStore s a l = .ok t) :
    (a + l.length ≤ memSize ∨ l = []) ∧ t = s.setMem (memStoreBytes s.mem a l) := by
  unfold hostStore at h
  split at h
  · rename_i hl
    exact ⟨hl, (Except.ok.inj h).symm⟩
  · cases h

/-- A host store inside `MEM` (R60). -/
theorem hostStore_ok {a : Nat} {l : List Byte} (h : a + l.length ≤ memSize ∨ l = []) :
    hostStore s a l = .ok (s.setMem (memStoreBytes s.mem a l)) := by
  rw [hostStore, if_pos h]

/-- A host store keeps the canonical form. -/
theorem memWf_hostStore {a : Nat} {l : List Byte} (hm : memWf s.mem) (h : a + l.length ≤ memSize ∨ l = []) :
    memWf (memStoreBytes s.mem a l) := by
  rcases h with h | rfl
  · exact memWf_memStoreBytes hm _ _ h
  · exact hm

/-- What a store leaves alone: every byte outside the stored stretch. -/
theorem memGet_outside {m : List Host.Cell} (hm : memWf m) {a x : Nat} {l : List Byte}
    (h : a + l.length ≤ memSize ∨ l = []) (hx : ¬(a ≤ x ∧ x < a + l.length)) :
    memGet (memStoreBytes m a l) x = memGet m x := by
  rcases h with h | rfl
  · rw [memGet_memStoreBytes hm l a x h]
    split
    · have : l.length ≤ x - a := by omega
      simp [List.getD, List.getElem?_eq_none this]
    · rfl
  · rfl

/-- RECV in full (R114): the first 14 bytes stored and decoded, and, if no error is then recorded, the rest. -/
theorem recv_cases {bytes : List Byte} (h : recv s bytes = .ok t) :
    ∃ u v, storeAt s 0 (bytes.take 14) = .ok u ∧ decodeFrameHeaderOp u = .ok v ∧
      ((v.ch.lastError ≠ 0 ∧ t = getReg v regLastError) ∨
       (v.ch.lastError = 0 ∧ ∃ w, storeAt (getReg v regLastError) 14 (bytes.drop 14) = .ok w ∧
          decodeFrameDataOp w = .ok t)) := by
  unfold recv at h
  simp only [run_bind_eq_ok] at h
  obtain ⟨u, hu, v, hv, h⟩ := h
  refine ⟨u, v, hu, hv, ?_⟩
  split at h
  · rename_i h0
    rw [run_bind_eq_ok] at h
    exact Or.inr ⟨h0, h⟩
  · rename_i h0
    exact Or.inl ⟨h0, (Except.ok.inj h).symm⟩

/-- A property decode after GET LAST_ERROR (R114). -/
theorem ifAccepted_cases {f : State → Run State} (h : ifAccepted s f = .ok t) :
    (s.ch.lastError = 0 ∧ f (getReg s regLastError) = .ok t) ∨
    (s.ch.lastError ≠ 0 ∧ t = getReg s regLastError) := by
  unfold ifAccepted at h
  split at h
  · rename_i h0; exact Or.inl ⟨h0, h⟩
  · rename_i h0; exact Or.inr ⟨h0, (Except.ok.inj h).symm⟩

/-- Selecting a channel in full (R20): the list of channels is unchanged, and the selected one is number `c`. -/
theorem selectChannel_cases {c : Nat} (h : selectChannel c s = some t) :
    t.channels = s.channels ∧ t.before = s.channels.take c ∧ t.before.length = c ∧
    t = { s with before := t.before, ch := t.ch, after := t.after } := by
  unfold selectChannel at h
  split at h
  · cases h
  · rename_i x xs hd
    cases h
    have hlt : c < s.channels.length := by
      by_contra hc
      rw [List.drop_eq_nil_of_le (by omega)] at hd
      cases hd
    refine ⟨?_, rfl, by simp; omega, rfl⟩
    simp only [State.channels]
    rw [← hd]
    exact List.take_append_drop c s.channels

end Sys2Proof.Machine
end

