-- ==== Sys2Proof/Laws/Request.lean ====
section
/-! SUPPORT. What the buffer holds after a request, and what the frame decode reads in it. -/

namespace Sys2Proof.Machine

/-- The buffer holds, after a request that fits, its headers, payload and checksum. -/
theorem load_requestMem (s : State) (hm : memWf s.mem) (h0 : spans s 0 16) (hs : spans s 14 (s.ch.dataLen.toNat + 2))
   (h2 : 2 ≤ s.ch.dataLen.toNat) :
   memLoadBytes (requestMem s) s.ch.bufBase.toNat (16 + s.ch.dataLen.toNat) =
     headerBytes s ++ (bufList s 16 (s.ch.dataLen.toNat - 2) ++ leBytes 2
         (cksum (0 :: s.ch.serviceId :: bufList s 16 (s.ch.dataLen.toNat - 2))).toNat) := by
  obtain ⟨-, b1⟩ := spans_bounds h0 (by omega)
  obtain ⟨-, b2⟩ := spans_bounds hs (by omega)
  have hck : (0x00 :: s.ch.serviceId :: bufList s 16
      (s.ch.dataLen.toNat - 2)).take s.ch.dataLen.toNat = 0x00 :: s.ch.serviceId :: bufList s 16
      (s.ch.dataLen.toNat - 2) := by
    apply List.take_of_length_le; simp; omega
  have e : 16 + s.ch.dataLen.toNat = (14 + s.ch.dataLen.toNat) + 2 := by omega
  rw [e, memLoadBytes_add]
  have hck2 : bufList (headersStored s) 14 s.ch.dataLen.toNat = _ := (bufList_headersStored hm h0 _).trans hck
  have tail : memLoadBytes (requestMem s) (s.ch.bufBase.toNat + (14 + s.ch.dataLen.toNat)) 2 = leBytes 2
      (cksum (0 :: s.ch.serviceId :: bufList s 16 (s.ch.dataLen.toNat - 2))).toNat := by
    rw [requestMem, hck2]
    have := memLoadBytes_memStoreBytes (memWf_headersStored hm h0)
        (leBytes 2 (cksum (0 :: s.ch.serviceId :: bufList s 16 (s.ch.dataLen.toNat - 2))).toNat)
        (s.ch.bufBase.toNat + (14 + s.ch.dataLen.toNat)) (by rw [length_leBytes]; omega)
    rw [length_leBytes] at this
    exact this
  rw [tail, ← List.append_assoc]
  refine congrArg (· ++ _) ?_
  have front : memLoadBytes (requestMem s) s.ch.bufBase.toNat (14 + s.ch.dataLen.toNat) = memLoadBytes
      (headersStored s).mem s.ch.bufBase.toNat (14 + s.ch.dataLen.toNat) := by
    apply memLoadBytes_congr
    intro i hi
    rw [requestMem, memGet_store (memWf_headersStored hm h0) _ _ _ (by rw [length_leBytes]; omega), if_neg (by omega)]
  rw [front, show 14 + s.ch.dataLen.toNat = 16 + (s.ch.dataLen.toNat - 2) by omega, memLoadBytes_add]
  refine congrArg₂ (· ++ ·) ?_ ?_
  · have := memLoadBytes_memStoreBytes hm (headerBytes s) s.ch.bufBase.toNat (by rw [length_headerBytes]; omega)
    rw [length_headerBytes] at this
    exact this
  · apply memLoadBytes_congr
    intro i hi
    rw [headersStored_mem, memGet_store hm _ _ _ (by rw [length_headerBytes]; omega),
        if_neg (by rw [length_headerBytes]; omega)]

/-- A byte of a read is the byte at its address. -/
theorem getD_memLoad (m : List Host.Cell) (a n i : Nat) (h : i < n) :
    (memLoadBytes m a n).getD i 0 = memGet m (a + i) := by
  rw [List.getD, getElem_memLoadBytes _ _ _ _ h]; rfl

/-- A stretch of a read is the read of the stretch. -/
theorem take_drop_memLoad (m : List Host.Cell) (a n k j : Nat) (h : k + j ≤ n) :
    ((memLoadBytes m a n).drop k).take j = memLoadBytes m (a + k) j := by
  have e : n = k + (j + (n - k - j)) := by omega
  rw [e, memLoadBytes_add, List.drop_left' (by simp), memLoadBytes_add, List.take_left' (by simp)]

/-- The fields that the header decode finds in a request's header. -/
theorem header_fields (t : State) (sm : Byte) (src dst : BitVec 32) (len : Nat) (rest : List Byte) (n : Nat)
    (hn : 14 ≤ n)
   (h : memLoadBytes t.mem t.ch.bufBase.toNat n = requestHeader sm src dst len ++ rest) :
   bufAt t 0 = sm ∧ bufAt t 1 = 0 ∧ bufField t 2 4 = src.toNat ∧ bufField t 6 4 = dst.toNat ∧
       bufField t 10 2 = len % 65536 ∧
   bufList t 1 11 = headerRange src dst len ∧ bufField t 12 2 = (cksum (headerRange src dst len)).toNat := by
  have hb : ∀ i, i < n → bufAt t i = (requestHeader sm src dst len ++ rest).getD i 0 := by
    intro i hi; rw [← h, getD_memLoad _ _ _ _ hi]; rfl
  have hl : ∀ k j, k + j ≤ n → bufList t k j = ((requestHeader sm src dst len ++ rest).drop k).take j := by
    intro k j hi; rw [← h, take_drop_memLoad _ _ _ _ _ hi]; rfl
  have hr : ∀ (pre l suf : List Byte), requestHeader sm src dst len = pre ++ (l ++ suf) →
      bufList t pre.length l.length = l := by
    intro pre l suf e
    have hle : pre.length + l.length ≤ 14 := by
      have := congrArg List.length e
      simp at this; omega
    rw [hl _ _ (by omega), e, List.append_assoc, List.drop_left, List.append_assoc, List.take_left]
  have b1 := src.isLt
  have b2 := dst.isLt
  have b3 := (cksum (headerRange src dst len)).isLt
  have f : ∀ (pre : List Byte) k j v suf, requestHeader sm src dst len = pre ++ (leBytes j v ++ suf) →
      pre.length = k → bufField t k j = v % 256 ^ j := by
    intro pre k j v suf e hk
    have := hr pre (leBytes j v) suf e
    rw [length_leBytes, hk] at this
    rw [bufField, this, leNat_leBytes]
  refine ⟨?_, ?_, ?_, ?_, ?_, ?_, ?_⟩
  · rw [hb 0 (by omega)]; rfl
  · rw [hb 1 (by omega)]; rfl
  · rw [f [sm, 0] 2 4 src.toNat (leBytes 4 dst.toNat ++ leBytes 2 len ++ leBytes 2
      (cksum (headerRange src dst len)).toNat) (by simp [requestHeader, headerRange]) rfl]; omega
  · rw [f ([sm, 0] ++ leBytes 4 src.toNat) 6 4 dst.toNat (leBytes 2 len ++ leBytes 2
      (cksum (headerRange src dst len)).toNat) (by simp [requestHeader, headerRange]) (by simp)]; omega
  · exact f ([sm, 0] ++ leBytes 4 src.toNat ++ leBytes 4 dst.toNat) 10 2 len
      (leBytes 2 (cksum (headerRange src dst len)).toNat) (by simp [requestHeader, headerRange]) (by simp)
  · have := hr [sm] (headerRange src dst len) (leBytes 2 (cksum (headerRange src dst len)).toNat)
      (by simp [requestHeader])
    simpa using this
  · rw [f (sm :: headerRange src dst len) 12 2 (cksum (headerRange src dst len)).toNat [] (by simp [requestHeader])
      (by simp)]; omega


/-- Two states with the same binding have the same accessible ranges (R63). -/
theorem spans_congr {s t : State} (h1 : t.ch.bufBase = s.ch.bufBase) (h2 : t.ch.capacity = s.ch.capacity)
    {k n : Nat} : spans t k n ↔ spans s k n := by
  unfold spans; rw [h1, h2]

/-- ENCODE_REQUEST of a frame that fits, field by field (R154). -/
theorem request_encoded {s : State} (hm : memWf s.mem) (hb : s.ch.bound)
    (hfit : 16 + s.ch.dataLen.toNat ≤ s.ch.capacity.toNat) :
   ∃ t, encodeRequestOp s = .ok t ∧ t.ch = { s.ch with phase := .encoded } ∧ t.mem = requestMem s ∧
       sameElsewhere s t ∧ t.reply = s.reply ∧ t.draws = s.draws := by
  have h0 : spans s 0 16 := spans_of_bound hb (by omega)
  have hs : spans s 14 (s.ch.dataLen.toNat + 2) := spans_of_bound hb (by omega)
  have hbig : ¬ tooBig s := by unfold tooBig; omega
  exact ⟨_, encodeRequestOp_fits hm hbig h0 hs, by simp, by simp, by simp [sameElsewhere_refl], by simp, by simp⟩

/-- A DECODE_FRAME_HEADER that finds nothing wrong, field by field (R158). -/
theorem header_decoded {t : State} (ht0 : spans t 0 14) (hgood : ¬ headerBad t) :
   ∃ u, decodeFrameHeaderOp t = .ok u ∧ u.ch = decodedHeader t t.ch.lastError ∧ u.mem = t.mem ∧ sameElsewhere t u ∧
       u.reply = t.reply ∧ u.draws = t.draws := by
  have hu := decodeFrameHeaderOp_ok ht0
  rw [if_neg hgood] at hu
  exact ⟨_, hu, by simp, by simp, by simp [sameElsewhere_refl], by simp, by simp⟩

/-- The header decode finds nothing wrong in a request just encoded, and reads its fields back (R165). -/
theorem good_request_header {s t : State} (hm : memWf s.mem) (hb : s.ch.bound) (h2 : 2 ≤ s.ch.dataLen.toNat)
    (hff : s.ch.dataLen.toNat ≤ 0xFFFF)
   (hfit : 16 + s.ch.dataLen.toNat ≤ s.ch.capacity.toNat) (hch : t.ch = { s.ch with phase := .encoded })
       (hme : t.mem = requestMem s) (hc : t.config = s.config) :
   ¬ headerBad t ∧ bufAt t 1 = 0 ∧ bufField t 2 4 = s.ch.srcAddr.toNat ∧ bufField t 6 4 = s.ch.dstAddr.toNat ∧
       bufField t 10 2 = s.ch.dataLen.toNat ∧ bufAt t 14 = 0 := by
  have h0 : spans s 0 16 := spans_of_bound hb (by omega)
  have hs : spans s 14 (s.ch.dataLen.toNat + 2) := spans_of_bound hb (by omega)
  have hbase : t.ch.bufBase = s.ch.bufBase := by rw [hch]
  have hcap : t.ch.capacity = s.ch.capacity := by rw [hch]
  have hload := load_requestMem s hm h0 hs h2
  rw [← hme, ← hbase] at hload
  have hload2 := hload
  rw [headerBytes, List.append_assoc] at hload2
  obtain ⟨f0, f1, f2, f6, f10, fr, f12⟩ :=
      header_fields t s.config.startMarker s.ch.srcAddr s.ch.dstAddr s.ch.dataLen.toNat _ _ (by omega) hload2
  have hmod : s.ch.dataLen.toNat % 65536 = s.ch.dataLen.toNat := by omega
  rw [hmod] at f10
  refine ⟨?_, f1, f2, f6, f10, ?_⟩
  · simp only [headerBad, bufField_one, f0, f10, fr, f12, hc, hcap]
    omega
  · rw [bufAt, ← getD_memLoad t.mem _ (16 + s.ch.dataLen.toNat) 14 (by omega), hload]
    rfl

/-- Eight bytes stored at offset 16 are what the buffer then holds there (R182). -/
theorem bufList_prop {s : State} (hm : memWf s.mem) (hs : spans s 16 8) (l : List Byte) (h8 : l.length = 8) (t : State)
   (hb : t.ch.bufBase = s.ch.bufBase) (h : t.mem = memStoreBytes s.mem (s.ch.bufBase.toNat + 16) l) :
       bufList t 16 8 = l := by
  obtain ⟨-, b1⟩ := spans_bounds hs (by omega)
  have := memLoadBytes_memStoreBytes hm l (s.ch.bufBase.toNat + 16) (by omega)
  rw [h8] at this
  rw [bufList, h, hb, this]

/-- What ENCODE_REQUEST leaves in the buffer, where the property header and the value stand, is a whole frame (R92). -/
theorem frame_of_request (s : State) (src dst : BitVec 32) (sid : Byte) (otype : BitVec 16) (oid : BitVec 32)
    (pid : BitVec 16) (value : List Byte)
  (h1 : s.ch.srcAddr = src) (h2 : s.ch.dstAddr = dst) (h3 : s.ch.serviceId = sid)
      (h4 : s.ch.dataLen.toNat = 10 + value.length)
  (h5 : bufList s 16 (8 + value.length) = propHeader otype oid pid ++ value) :
  requestFrame s.config.startMarker src dst sid otype oid pid value = headerBytes s ++
      (bufList s 16 (s.ch.dataLen.toNat - 2) ++ leBytes 2 (cksum
      (0 :: s.ch.serviceId :: bufList s 16 (s.ch.dataLen.toNat - 2))).toNat) := by
  have e : s.ch.dataLen.toNat - 2 = 8 + value.length := by omega
  rw [e, h5, headerBytes, h1, h2, h3, h4, requestFrame, requestPayload]
  simp

/-- ENCODE_REQUEST leaves every byte outside the frame as it was (R154). -/
theorem requestMem_outside {s : State} (hm : memWf s.mem) (hb : s.ch.bound)
    (hfit : 16 + s.ch.dataLen.toNat ≤ s.ch.capacity.toNat) (x : Nat)
   (hx : ¬ (s.ch.bufBase.toNat ≤ x ∧ x < s.ch.bufBase.toNat + (16 + s.ch.dataLen.toNat))) :
       memGet (requestMem s) x = memGet s.mem x := by
  have h0 : spans s 0 16 := spans_of_bound hb (by omega)
  have hbb : s.ch.bufBase.toNat + s.ch.capacity.toNat ≤ memSize := hb
  rw [requestMem, memGet_store (memWf_headersStored hm h0) _ _ _ (by rw [length_leBytes]; omega),
      if_neg (by rw [length_leBytes]; omega), headersStored_mem,
    memGet_store hm _ _ _ (by rw [length_headerBytes]; omega), if_neg (by rw [length_headerBytes]; omega)]

end Sys2Proof.Machine
end

