-- ==== Sys2Proof/Laws/Message.lean ====
section
/-! SUPPORT. What the reception of a message does: RECV of a frame that is accepted, and of one whose header is not. -/

namespace Sys2Proof.Machine

variable {s t : State}

/-- Reading the buffer over a byte list just stored from offset 0. -/
theorem bufList_stored {u : State} {m : List Host.Cell} (hm : memWf m) (l : List Byte)
    (h : u.ch.bufBase.toNat + l.length ≤ memSize)
   (hu : u.mem = memStoreBytes m u.ch.bufBase.toNat l) (k j : Nat) (hk : k + j ≤ l.length) :
       bufList u k j = (l.drop k).take j := by
  rw [← memLoadBytes_memStoreBytes hm l _ h, take_drop_memLoad _ _ _ _ _ hk, bufList, hu]

/-- The same, of a field. -/
theorem bufField_stored {u : State} {m : List Host.Cell} (hm : memWf m) (l : List Byte)
    (h : u.ch.bufBase.toNat + l.length ≤ memSize)
   (hu : u.mem = memStoreBytes m u.ch.bufBase.toNat l) (k j : Nat) (hk : k + j ≤ l.length) :
       bufField u k j = fieldAt l k j := by
  rw [bufField, bufList_stored hm l h hu k j hk, fieldAt]

/-- The same, of one byte. -/
theorem bufAt_stored {u : State} {m : List Host.Cell} (hm : memWf m) (l : List Byte)
    (h : u.ch.bufBase.toNat + l.length ≤ memSize)
   (hu : u.mem = memStoreBytes m u.ch.bufBase.toNat l) (k : Nat) (hk : k < l.length) : bufAt u k = l.getD k 0 := by
  rw [bufAt, hu, memGet_store hm l _ _ h, if_pos (by omega), Nat.add_sub_cancel_left]

/-- A field inside the first `n` bytes is the same field of the whole list. -/
theorem take_fields (l : List Byte) (k j n : Nat) (h : k + j ≤ n) :
    (((l.take n).drop k).take j) = (l.drop k).take j := by
  rw [List.drop_take, List.take_take, Nat.min_eq_left (by omega)]

/-- The channel after the header of a message has been decoded, with `LAST_ERROR` as given (R158). -/
def headerChannel (c : Config) (ch : Channel) (bytes : List Byte) (e : BitVec 16) : Channel :=
  { receivedChannel c ch bytes with
        sfResponse := ch.sfResponse, sfError := ch.sfError, sfReserved := ch.sfReserved
        serviceId := ch.serviceId, lastError := e, phase := .headerDecoded }

/-- What makes DECODE_FRAME_HEADER record an error in a message's header (R158). -/
def messageHeaderBad (c : Config) (cap : Nat) (bytes : List Byte) : Prop :=
  bytes.getD 0 0 ≠ c.startMarker ∨ imageLen bytes < 2 ∨ cap < 16 + imageLen bytes ∨
      (cksum ((bytes.drop 1).take 11)).toNat ≠ fieldAt bytes 12 2

/-- A store at buffer offset 0. -/
theorem storeAt_zero {l : List Byte} (h : s.ch.bufBase.toNat + l.length ≤ memSize) :
   storeAt s 0 l = .ok (s.setMem (memStoreBytes s.mem s.ch.bufBase.toNat l)) := hostStore_ok (Or.inl h)

/-- The first lines of RECV: the header of a message stored and decoded (R114). -/
theorem message_header (hm : memWf s.mem) (hb : s.ch.bound) (h14 : 14 ≤ s.ch.capacity.toNat) (bytes : List Byte)
    (hl : 14 ≤ bytes.length) :
   ∃ u v, storeAt s 0 (bytes.take 14) = .ok u ∧ decodeFrameHeaderOp u = .ok v ∧
     (∃ e, v.ch = headerChannel s.config s.ch bytes e ∧ (messageHeaderBad s.config s.ch.capacity.toNat bytes →
         e = s.config.errInvalidFrame) ∧
      (¬ messageHeaderBad s.config s.ch.capacity.toNat bytes → e = s.ch.lastError)) ∧
     v.mem = memStoreBytes s.mem s.ch.bufBase.toNat (bytes.take 14) ∧ sameElsewhere s v ∧ v.reply = s.reply ∧
         v.draws = s.draws := by
  have hbb : s.ch.bufBase.toNat + s.ch.capacity.toNat ≤ memSize := hb
  have ht : (bytes.take 14).length = 14 := by simp; omega
  have hle : s.ch.bufBase.toNat + (bytes.take 14).length ≤ memSize := by omega
  obtain ⟨u, hu, uch, umem, ue, ur, ud⟩ : ∃ u, storeAt s 0 (bytes.take 14) = .ok u ∧ u.ch = s.ch ∧
     u.mem = memStoreBytes s.mem s.ch.bufBase.toNat (bytes.take 14) ∧ sameElsewhere s u ∧ u.reply = s.reply ∧
         u.draws = s.draws :=
    ⟨_, storeAt_zero hle, by simp, by simp, by simp [sameElsewhere_refl], by simp, by simp⟩
  have hbu : u.ch.bound := by rw [uch]; exact hb
  have hv := decodeFrameHeaderOp_ok (s := u) (spans_of_bound hbu (by rw [uch]; omega))
  have hle' : u.ch.bufBase.toNat + (bytes.take 14).length ≤ memSize := by rw [uch]; exact hle
  have umem' : u.mem = memStoreBytes s.mem u.ch.bufBase.toNat (bytes.take 14) := by rw [uch]; exact umem
  have bf : ∀ k j, k + j ≤ 14 → bufField u k j = fieldAt bytes k j := by
    intro k j h
    rw [bufField_stored hm _ hle' umem' k j (by omega), fieldAt, take_fields _ _ _ _ h, fieldAt]
  have bl : ∀ k j, k + j ≤ 14 → bufList u k j = (bytes.drop k).take j := by
    intro k j h
    rw [bufList_stored hm _ hle' umem' k j (by omega), take_fields _ _ _ _ h]
  have ba : ∀ k, k < 14 → bufAt u k = bytes.getD k 0 := by
    intro k h
    rw [bufAt_stored hm _ hle' umem' k (by omega), List.getD, List.getD, List.getElem?_take, if_pos h]
  have hbad : headerBad u ↔ messageHeaderBad s.config s.ch.capacity.toNat bytes := by
    rw [headerBad, messageHeaderBad, bufField_one, ba 0 (by omega), bf 10 2 (by omega), bf 12 2 (by omega),
        bl 1 11 (by omega), ue.1, uch, ← imageLen]
    constructor
    · rintro (h | (h | h) | h)
      · exact Or.inl (fun h2 => h (by rw [h2]))
      · exact Or.inr (Or.inl h)
      · exact Or.inr (Or.inr (Or.inl (by omega)))
      · exact Or.inr (Or.inr (Or.inr h))
    · rintro (h | h | h | h)
      · exact Or.inl (fun h2 => h (BitVec.eq_of_toNat_eq h2))
      · exact Or.inr (Or.inl (Or.inl h))
      · exact Or.inr (Or.inl (Or.inr (by omega)))
      · exact Or.inr (Or.inr h)
  refine ⟨u, _, hu, hv, ⟨if headerBad u then u.config.errInvalidFrame else u.ch.lastError, ?_, ?_, ?_⟩, ?_, ?_, ?_, ?_⟩
  · generalize (if headerBad u then u.config.errInvalidFrame else u.ch.lastError) = e
    rw [State.setCh_ch, decodedHeader, ba 1 (by omega), bf 2 4 (by omega), bf 6 4 (by omega), bf 10 2 (by omega), uch,
        ue.1]
    rfl
  · intro h; rw [if_pos (hbad.2 h), ue.1]
  · intro h; rw [if_neg (fun h2 => h (hbad.1 h2)), uch]
  · rw [State.setCh_mem, umem]
  · rw [sameElsewhere_setCh]; exact ue
  · rw [State.setCh_reply, ur]
  · rw [State.setCh_draws, ud]

/-- A payload length is below `2^16` (R100). -/
theorem imageLen_lt (bytes : List Byte) : imageLen bytes < 65536 := by
  have h1 := leNat_lt ((bytes.drop 10).take 2)
  have h2 : ((bytes.drop 10).take 2).length ≤ 2 := by simp
  exact Nat.lt_of_lt_of_le h1 (Nat.pow_le_pow_right (by omega) h2)

/-- RECV of a frame that the frame codec accepts (R114, R166). -/
theorem received_good (hm : memWf s.mem) (hb : s.ch.bound) (h0 : s.ch.lastError = 0) (bytes : List Byte)
    (hg : goodFrame s.config s.ch.capacity.toNat bytes) :
    ∃ w, recv s bytes = .ok w ∧ w.ch = receivedChannel s.config s.ch bytes ∧
        w.mem = memStoreBytes s.mem s.ch.bufBase.toNat bytes ∧
      sameElsewhere s w ∧ w.draws = s.draws := by
  obtain ⟨g1, g2, g3, g4, g5, g6, g7⟩ := hg
  have hbb : s.ch.bufBase.toNat + s.ch.capacity.toNat ≤ memSize := hb
  obtain ⟨u, v, hu, hv, ⟨e, vch, -, he⟩, vmem, ve, vr, vd⟩ := message_header hm hb (by omega) bytes (by omega)
  have he := he (by
    rintro (h | h | h | h)
    · exact h g4
    · omega
    · omega
    · exact h g5)
  rw [h0] at he
  subst he
  have vb : v.ch.bufBase = s.ch.bufBase := by rw [vch]; rfl
  have vc : v.ch.capacity = s.ch.capacity := by rw [vch]; rfl
  have vdl : v.ch.dataLen.toNat = imageLen bytes := by
    rw [vch]
    show (BitVec.ofNat 32 (imageLen bytes)).toNat = _
    have := imageLen_lt bytes
    simp only [BitVec.toNat_ofNat]; omega
  have hd : (bytes.drop 14).length = bytes.length - 14 := by simp
  have htake : (bytes.take 14).length = 14 := by simp; omega
  obtain ⟨x, hx, xch, xmem, xe, xr, xd⟩ : ∃ x, storeAt (getReg v regLastError) 14 (bytes.drop 14) = .ok x ∧
      x.ch = v.ch ∧
     x.mem = memStoreBytes s.mem s.ch.bufBase.toNat bytes ∧ sameElsewhere s x ∧
         x.reply = (getReg v regLastError).reply ∧ x.draws = s.draws := by
    refine ⟨_, hostStore_ok (Or.inl ?_), ?_, ?_, ?_, ?_, ?_⟩
    · show v.ch.bufBase.toNat + 14 + _ ≤ _; rw [vb]; omega
    · rw [State.setMem_ch]; rfl
    · rw [State.setMem_mem]
      show memStoreBytes v.mem (v.ch.bufBase.toNat + 14) _ = _
      rw [vb, vmem]
      have := memStoreBytes_append s.mem s.ch.bufBase.toNat (bytes.take 14) (bytes.drop 14)
      rw [htake, List.take_append_drop] at this
      exact this.symm
    · rw [sameElsewhere_setMem]; exact ve
    · rfl
    · exact vd
  have xb : x.ch.bufBase = s.ch.bufBase := by rw [xch, vb]
  have xl : x.ch.lastError = 0 := by rw [xch, vch]; rfl
  have hbx : x.ch.bound := by rw [Channel.bound, xch, vb, vc]; exact hb
  have hle : x.ch.bufBase.toNat + bytes.length ≤ memSize := by rw [xb]; omega
  have xmem' : x.mem = memStoreBytes s.mem x.ch.bufBase.toNat bytes := by rw [xb]; exact xmem
  have xdl : x.ch.dataLen.toNat = imageLen bytes := by rw [xch, vdl]
  have hw := decodeFrameDataOp_ok xl (spans_of_bound hbx (by rw [xdl, xch, vc]; omega))
  have hgood : ¬ dataBad x := by
    rw [dataBad, xdl, bufList_stored hm bytes hle xmem' 14 _ (by omega),
        bufField_stored hm bytes hle xmem' _ _ (by omega),
      bufAt_stored hm bytes hle xmem' 14 (by omega), xe.1]
    rintro (h | h)
    · exact h g6
    · have g7' : (unpackSf s.config.sflags (bytes.getD 14 0)).response = 1 := g7
      rw [g7'] at h; exact absurd h (by decide)
  rw [if_neg hgood] at hw
  refine ⟨x.setCh (decodedData x x.ch.lastError), ?_, ?_, ?_, ?_, ?_⟩
  · rw [recv, hu, run_ok_bind, hv, run_ok_bind]
    have : (getReg v regLastError).ch.lastError = 0 := by show v.ch.lastError = 0; rw [vch]; rfl
    simp only
    rw [if_pos this, hx, run_ok_bind, hw]
  · rw [State.setCh_ch, decodedData, bufAt_stored hm bytes hle xmem' 14 (by omega),
      bufAt_stored hm bytes hle xmem' 15 (by omega), xe.1, xl, xch, vch]
    simp only [headerChannel, receivedChannel, h0, sflagsByte, sidByte]
  · rw [State.setCh_mem, xmem]
  · rw [sameElsewhere_setCh]; exact xe
  · rw [State.setCh_draws, xd]
end Sys2Proof.Machine
end

