-- ==== Sys2Proof/Laws/Frames.lean ====
section
/-! SUPPORT. What each operation and each message leaves as it was. -/

namespace Sys2Proof.Machine

variable {s t : State}

/-- A property decode writes the five registers that R45 lists for it and no byte. -/
theorem prop_frame {v : BitVec 32} (h : PropDecoded s t v) :
   t.ch = { s.ch with
        valueLen := t.ch.valueLen, objType := t.ch.objType, objId := t.ch.objId, propId := t.ch.propId
        lastError := t.ch.lastError } ∧ t.mem = s.mem ∧ t.reply = s.reply ∧ sameElsewhere s t := by
  cases h with
  | errorCode _ _ _ h => subst h; exact ⟨rfl, rfl, rfl, by simp [sameElsewhere_refl]⟩
  | malformed _ _ h => subst h; exact ⟨rfl, rfl, rfl, by simp [sameElsewhere_refl]⟩
  | accepted _ _ h => subst h; exact ⟨rfl, rfl, rfl, by simp [sameElsewhere_refl]⟩
  | rejected _ h => subst h; exact ⟨rfl, rfl, rfl, by simp [sameElsewhere_refl]⟩

/-- The operand registers, the binding, `VALUE_MAX`, the accumulators and everything outside the channel as before: what
every operation but FRAME_INIT, PROP_INIT and the checksum unit's keeps (R45). -/
structure KeepsHost (s t : State) : Prop where
  opA : t.ch.opA = s.ch.opA
  opB : t.ch.opB = s.ch.opB
  base : t.ch.bufBase = s.ch.bufBase
  cap : t.ch.capacity = s.ch.capacity
  vmax : t.ch.valueMax = s.ch.valueMax
  ckA : t.ch.ckA = s.ch.ckA
  ckB : t.ch.ckB = s.ch.ckB
  els : sameElsewhere s t

/-- One keeping after another keeps. -/
theorem KeepsHost.trans {u : State} (h : KeepsHost s t) (g : KeepsHost t u) : KeepsHost s u :=
  ⟨g.1.trans h.1, g.2.trans h.2, g.3.trans h.3, g.4.trans h.4, g.5.trans h.5, g.6.trans h.6, g.7.trans h.7,
      h.8.trans g.8⟩

/-- Doing nothing keeps. -/
theorem KeepsHost.refl (s : State) : KeepsHost s s := ⟨rfl, rfl, rfl, rfl, rfl, rfl, rfl, sameElsewhere_refl s⟩

/-- Either property decode keeps the host's registers. -/
theorem keeps_prop {v : BitVec 32} (h : PropDecoded s t v) : KeepsHost s t := by
  cases h with
  | errorCode _ _ _ h => subst h; exact ⟨rfl, rfl, rfl, rfl, rfl, rfl, rfl, ⟨rfl, rfl, rfl, rfl⟩⟩
  | malformed _ _ h => subst h; exact ⟨rfl, rfl, rfl, rfl, rfl, rfl, rfl, ⟨rfl, rfl, rfl, rfl⟩⟩
  | accepted _ _ h => subst h; exact ⟨rfl, rfl, rfl, rfl, rfl, rfl, rfl, ⟨rfl, rfl, rfl, rfl⟩⟩
  | rejected _ h => subst h; exact ⟨rfl, rfl, rfl, rfl, rfl, rfl, rfl, ⟨rfl, rfl, rfl, rfl⟩⟩

/-- ENCODE_REQUEST keeps the host's registers. -/
theorem keeps_req (h : encodeRequestOp s = .ok t) : KeepsHost s t := by
  obtain ⟨m, e, rfl, -⟩ := encodeRequestOp_frame h
  exact ⟨rfl, rfl, rfl, rfl, rfl, rfl, rfl, by simp [sameElsewhere_refl]⟩

/-- DECODE_FRAME_HEADER keeps the host's registers. -/
theorem keeps_dfh (h : decodeFrameHeaderOp s = .ok t) : KeepsHost s t := by
  have hs := decodeFrameHeaderOp_inv h
  rw [decodeFrameHeaderOp_ok hs] at h
  cases h
  exact ⟨rfl, rfl, rfl, rfl, rfl, rfl, rfl, by simp [sameElsewhere_refl]⟩

/-- DECODE_FRAME_DATA keeps the host's registers. -/
theorem keeps_dfd (h : decodeFrameDataOp s = .ok t) : KeepsHost s t := by
  rcases decodeFrameDataOp_cases h with ⟨-, rfl⟩ | ⟨-, -, rfl⟩
  · exact .refl _
  · exact ⟨rfl, rfl, rfl, rfl, rfl, rfl, rfl, by simp [sameElsewhere_refl]⟩

/-- ENCODE_READ keeps the host's registers. -/
theorem keeps_er (h : encodeReadOp s = .ok t) : KeepsHost s t := by
  obtain ⟨-, rfl⟩ := encodeReadOp_cases h
  exact ⟨rfl, rfl, rfl, rfl, rfl, rfl, rfl, by simp [sameElsewhere_refl]⟩

/-- ENCODE_WRITE keeps the host's registers. -/
theorem keeps_ew (h : encodeWriteOp s = .ok t) : KeepsHost s t := by
  obtain ⟨-, -, rfl⟩ := encodeWriteOp_cases h
  exact ⟨rfl, rfl, rfl, rfl, rfl, rfl, rfl, by simp [sameElsewhere_refl]⟩

/-- A store keeps the host's registers. -/
theorem keeps_store {k : Nat} {l : List Byte} (h : storeAt s k l = .ok t) : KeepsHost s t := by
  obtain ⟨-, rfl⟩ := hostStore_cases h
  exact ⟨rfl, rfl, rfl, rfl, rfl, rfl, rfl, by simp [sameElsewhere_refl]⟩

/-- RECV keeps the host's registers. -/
theorem keeps_recv {l : List Byte} (h : recv s l = .ok t) : KeepsHost s t := by
  obtain ⟨u, v, hu, hv, h⟩ := recv_cases h
  have k1 := (keeps_store hu).trans (keeps_dfh hv)
  rcases h with ⟨-, rfl⟩ | ⟨-, w, hw, h⟩
  · exact k1.trans ⟨rfl, rfl, rfl, rfl, rfl, rfl, rfl, ⟨rfl, rfl, rfl, rfl⟩⟩
  · exact k1.trans ((KeepsHost.trans (s := v) (t := getReg v regLastError)
      ⟨rfl, rfl, rfl, rfl, rfl, rfl, rfl, ⟨rfl, rfl, rfl, rfl⟩⟩ (keeps_store hw)).trans (keeps_dfd h))

/-- A conditional property decode keeps what its decode keeps. -/
theorem keeps_if {f : State → Run State} (hf : ∀ {s t}, f s = .ok t → KeepsHost s t) (h : ifAccepted s f = .ok t) :
    KeepsHost s t := by
  have k : KeepsHost s (getReg s regLastError) := ⟨rfl, rfl, rfl, rfl, rfl, rfl, rfl, ⟨rfl, rfl, rfl, rfl⟩⟩
  rcases ifAccepted_cases h with ⟨-, h⟩ | ⟨-, rfl⟩
  · exact k.trans (hf h)
  · exact k

/-- READ_REQ keeps the host's registers. -/
theorem keeps_readReq {src dst : BitVec 32} {otype oid pid} (h : readReq s src dst otype oid pid = .ok t) :
    KeepsHost s t := by
  rw [readReq, run_bind_eq_ok] at h
  obtain ⟨u, hu, h⟩ := h
  have k : KeepsHost s (setRequest s src dst otype oid pid) := ⟨rfl, rfl, rfl, rfl, rfl, rfl, rfl, ⟨rfl, rfl, rfl, rfl⟩⟩
  exact (k.trans (keeps_er hu)).trans (keeps_req h)

/-- WRITE_REQ keeps the host's registers. -/
theorem keeps_writeReq {src dst : BitVec 32} {otype oid pid} {value : List Byte}
    (h : writeReq s src dst otype oid pid value = .ok t) : KeepsHost s t := by
  rw [writeReq] at h
  simp only [run_bind_eq_ok] at h
  obtain ⟨u, hu, v, hv, w, hw, h⟩ := h
  have k : KeepsHost s (setRequest s src dst otype oid pid) := ⟨rfl, rfl, rfl, rfl, rfl, rfl, rfl, ⟨rfl, rfl, rfl, rfl⟩⟩
  have kv : KeepsHost u v := by
    rw [setValueLength] at hv
    split at hv
    · cases hv; exact ⟨rfl, rfl, rfl, rfl, rfl, rfl, rfl, ⟨rfl, rfl, rfl, rfl⟩⟩
    · cases hv
  exact (((k.trans (keeps_store hu)).trans kv).trans (keeps_ew hw)).trans (keeps_req h)

/-- A response keeps what its decode keeps. -/
theorem keeps_rsp {l : List Byte} {f : State → Run State} (hf : ∀ {s t}, f s = .ok t → KeepsHost s t)
    (h : (recv s l >>= fun s => ifAccepted s f) = .ok t) : KeepsHost s t := by
  rw [run_bind_eq_ok] at h
  obtain ⟨u, hu, h⟩ := h
  exact (keeps_recv hu).trans (keeps_if hf h)

/-- ENCODE_REQUEST's headers leave every byte outside offsets 0 to 15 (R154). -/
theorem headers_outside (hm : memWf s.mem) (h0 : spans s 0 16) (x : Nat)
    (hx : ¬ (s.ch.bufBase.toNat ≤ x ∧ x < s.ch.bufBase.toNat + 16)) :
   memGet (headersStored s).mem x = memGet s.mem x := by
  obtain ⟨-, h2⟩ := spans_bounds h0 (by omega)
  rw [headersStored_mem, memGet_store hm _ _ _ (by rw [length_headerBytes]; omega),
      if_neg (by rw [length_headerBytes]; exact hx)]

/-- ENCODE_REQUEST leaves every byte outside its headers and its checksum (R154). -/
theorem request_outside (hm : memWf s.mem) (h0 : spans s 0 16) (h1 : spans s 14 (s.ch.dataLen.toNat + 2)) (x : Nat)
    (hx : ¬ (s.ch.bufBase.toNat ≤ x ∧ x < s.ch.bufBase.toNat + 16))
   (hx2 : ¬ (s.ch.bufBase.toNat + (14 + s.ch.dataLen.toNat) ≤ x ∧
       x < s.ch.bufBase.toNat + (14 + s.ch.dataLen.toNat) + 2)) :
   memGet (requestMem s) x = memGet s.mem x := by
  obtain ⟨-, h2⟩ := spans_bounds h1 (by omega)
  rw [requestMem, memGet_store (memWf_headersStored hm h0) _ _ _ (by rw [length_leBytes]; omega),
      if_neg (by rw [length_leBytes]; exact hx2), headers_outside hm h0 x hx]

/-- A property header leaves every byte outside offsets 16 to 23 (R182). -/
theorem prop_outside (hm : memWf s.mem) (h : spans s 16 8) (o i p) (x : Nat)
    (hx : ¬ (s.ch.bufBase.toNat + 16 ≤ x ∧ x < s.ch.bufBase.toNat + 16 + 8)) :
   memGet (memStoreBytes s.mem (s.ch.bufBase.toNat + 16) (propHeader o i p)) x = memGet s.mem x := by
  obtain ⟨-, h2⟩ := spans_bounds h (by omega)
  rw [memGet_store hm _ _ _ (by rw [length_propHeader]; omega), if_neg (by rw [length_propHeader]; exact hx)]

end Sys2Proof.Machine
end

