-- ==== Sys2Proof/Laws/Step.lean ====
section
/-! SUPPORT. How a step takes an access: the two cases of a fetch, and the packets at a port. -/

namespace Sys2Proof.Machine

variable {s s' t : State}

/-- Selecting the channel already selected changes nothing (R20). -/
theorem selectChannel_self (s : State) : selectChannel s.before.length s = some s := by
  simp [selectChannel, State.channels]

/-- A step whose access is an instruction runs it (R70). -/
theorem step_of_instr {i : Instr} (h : fetch s = .instr i s') : step s = exec i s' := by
  rw [step, h]

/-- A step whose access is a plain one does it. -/
theorem step_of_done {r : Run State} (h : fetch s = .done r) : step s = outcome r := by
  rw [step, h]

/-- The next access at the selected channel's port is fetched there. -/
theorem fetch_atPort (s : State) (act : Action) : fetch (atPort s act) = fetchAction s act := by
  have hsel : selectChannel s.before.length ((atPort s act).setInbox s.inbox) = some s := by
    simpa [atPort] using selectChannel_self s
  have hin : (atPort s act).inbox = .port s.before.length act :: s.inbox := rfl
  rw [fetch, hin]
  simp only [fetchAccess, hsel]

/-- An action that is no packet is done as it is. -/
theorem fetchAction_plain {act : Action} (h : act.packet = none) : fetchAction s act = .done (hostAction s act) := by
  rw [fetchAction, h]

/-- A packet that decodes is its instruction. -/
theorem fetchAction_instr {act : Action} {p : Packet} {i : Instr} (h : act.packet = some p)
    (hd : decode s.config p = .ok i) : fetchAction s act = .instr i s := by
  simp only [fetchAction, h, hd]

/-- A packet that the decoder rejects is refused. -/
theorem fetchAction_rejected {act : Action} {p : Packet} {e : DecodeError} (h : act.packet = some p)
    (hd : decode s.config p = .error e) : fetchAction s act = .done (.error (.refuse (refusalOf e))) := by
  simp only [fetchAction, h, hd]

/-- A write of a command code to `CMD` is that code's packet (R43). -/
theorem packet_cmd (code : BitVec 8) : (Action.writeReg 0x00 (code.setWidth 32)).packet = some (.cmd code) := by
  have : code.toNat % 4294967296 < 256 := by have := code.isLt; omega
  simp [Action.packet, this]

/-- A write of any other register is a plain access. -/
theorem packet_writeReg {num : BitVec 8} (h : num ≠ 0x00) (v : BitVec 32) : (Action.writeReg num v).packet = none :=
  if_neg fun hc => h hc.1

/-- A read of any register but `FRAME_LEN` is a plain access. -/
theorem packet_readReg {num : BitVec 8} (h : num ≠ 0x13) : (Action.readReg num).packet = none :=
  if_neg h

/-- The action of a table word's packet hands over that packet. -/
theorem packet_tablePacket (nbits w : Nat) :
    (Packet.action (tablePacket nbits w)).packet = some (tablePacket nbits w) := by
  unfold tablePacket
  split
  · split
    · rfl
    · exact packet_cmd _
  · rfl

end Sys2Proof.Machine
end

