-- ==== Sys2Proof/Laws/Local.lean ====
section
/-! SUPPORT. Every operation and message is local: it neither reads nor writes the other channels and the accesses to
come, so it commutes with replacing them. -/

namespace Sys2Proof.Machine

/-- `s` with other channels around its own, and other accesses to come. -/
def State.elsewhere (s : State) (b a : List Channel) (l : List Access) : State :=
  { s with before := b, after := a, inbox := l }

section
variable (s : State) (b a : List Channel) (l : List Access)

@[simp] theorem State.elsewhere_config : (s.elsewhere b a l).config = s.config := rfl
@[simp] theorem State.elsewhere_before : (s.elsewhere b a l).before = b := rfl
@[simp] theorem State.elsewhere_ch : (s.elsewhere b a l).ch = s.ch := rfl
@[simp] theorem State.elsewhere_after : (s.elsewhere b a l).after = a := rfl
@[simp] theorem State.elsewhere_mem : (s.elsewhere b a l).mem = s.mem := rfl
@[simp] theorem State.elsewhere_inbox : (s.elsewhere b a l).inbox = l := rfl
@[simp] theorem State.elsewhere_reply : (s.elsewhere b a l).reply = s.reply := rfl
@[simp] theorem State.elsewhere_draws : (s.elsewhere b a l).draws = s.draws := rfl
@[simp] theorem State.elsewhere_self : s.elsewhere s.before s.after s.inbox = s := rfl

theorem State.setInbox_eq_elsewhere : s.setInbox l = s.elsewhere s.before s.after l := rfl

end

/-- A run that commutes with replacing what lies elsewhere. -/
def Local (f : State → Run State) : Prop :=
  ∀ s b a l, f (s.elsewhere b a l) = (f s).map (·.elsewhere b a l)

/-- An update that commutes with replacing what lies elsewhere. -/
def LocalUpdate (u : State → State) : Prop := ∀ s b a l, u (s.elsewhere b a l) = (u s).elsewhere b a l

/-- A query that does not see what lies elsewhere. -/
def LocalQuery {α : Type} (r : State → α) : Prop := ∀ s b a l, r (s.elsewhere b a l) = r s

theorem Local.bind {f g : State → Run State} (hf : Local f) (hg : Local g) : Local fun s => f s >>= g := by
  intro s b a l
  change f (s.elsewhere b a l) >>= g = (f s >>= g).map _
  rw [hf]
  cases f s with
  | ok x => exact hg x b a l
  | error e => rfl

theorem Local.pure {u : State → State} (hu : LocalUpdate u) : Local fun s => .ok (u s) := by
  intro s b a l
  change Except.ok (u (s.elsewhere b a l)) = _
  rw [hu]; rfl

theorem Local.ret : Local fun s => .ok s := fun _ _ _ _ => rfl

theorem Local.error (e : State → Stop) (he : LocalQuery e) : Local fun s => .error (e s) := by
  intro s b a l
  change Except.error (e (s.elsewhere b a l)) = _
  rw [he]; rfl

theorem Local.read {α : Type} {r : State → Run α} {g : α → State → Run State} (hr : LocalQuery r)
    (hg : ∀ v, Local (g v)) : Local fun s => r s >>= fun v => g v s := by
  intro s b a l
  change r (s.elsewhere b a l) >>= (fun v => g v (s.elsewhere b a l)) = _
  rw [hr]
  cases h : r s with
  | ok x => simp only [run_ok_bind, h]; exact hg x s b a l
  | error e => simp only [run_error_bind, h]; rfl

theorem Local.ite {p : State → Prop} {_ : ∀ s, Decidable (p s)} {f g : State → Run State}
    (hp : ∀ s b a l, p (s.elsewhere b a l) ↔ p s) (hf : Local f) (hg : Local g) :
    Local fun s => if p s then f s else g s := by
  intro s b a l
  simp only [hp s b a l]
  split
  · exact hf s b a l
  · exact hg s b a l

theorem Local.update {u : State → State} {g : State → Run State} (hu : LocalUpdate u) (hg : Local g) :
    Local fun s => g (u s) := by
  intro s b a l
  change g (u (s.elsewhere b a l)) = _
  rw [hu, hg]

/-! ### The operations -/

theorem local_bufBytes (k n : Nat) : LocalQuery fun s => bufBytes s k n :=
    fun _ _ _ _ => bufBytes_congr (by rfl) (by rfl) (by rfl) k n

theorem local_memRead (k n : Nat) : LocalQuery fun s => memRead s k n :=
    fun _ _ _ _ => memRead_congr (by rfl) (by rfl) (by rfl) k n

theorem local_bufStore (l : List Byte) : ∀ k, Local fun s => bufStore s k l := by
  induction l with
  | nil => intro k; exact Local.ret
  | cons b bs ih =>
    intro k
    refine Local.bind (f := fun s => bufWriteByte s k b) ?_ (ih (k + 1))
    refine Local.read (r := fun s => bufCheck s k) (g := fun x s => .ok (s.setMem (memPut s.mem x b))) ?_ fun x => ?_
    · intro s _ _ _; rfl
    · exact Local.pure fun _ _ _ _ => rfl

theorem local_memWrite (k n : Nat) (v : State → Nat) (hv : LocalQuery v) : Local fun s => memWrite s k n (v s) := by
  intro s b a l
  change bufStore _ k (leBytes n (v (s.elsewhere b a l))) = _
  rw [hv]
  exact local_bufStore _ k s b a l

/-- A store, then the rest. -/
theorem Local.write (k n : Nat) (v : State → Nat) {g : State → Run State} (hv : LocalQuery v) (hg : Local g) :
    Local fun s => memWrite s k n (v s) >>= g := Local.bind (local_memWrite k n v hv) hg

theorem local_storeHeaders : Local storeHeaders := by
  refine Local.write 0 1 (fun s => s.config.startMarker.toNat) (fun _ _ _ _ => rfl) ?_
  refine Local.write 1 1 (fun _ => 0x00) (fun _ _ _ _ => rfl) ?_
  refine Local.write 2 4 (fun s => s.ch.srcAddr.toNat) (fun _ _ _ _ => rfl) ?_
  refine Local.write 6 4 (fun s => s.ch.dstAddr.toNat) (fun _ _ _ _ => rfl) ?_
  refine Local.write 10 2 (fun s => s.ch.dataLen.toNat % 65536) (fun _ _ _ _ => rfl) ?_
  refine Local.read (r := fun s => bufBytes s 1 11) (local_bufBytes 1 11) fun range => ?_
  refine Local.write 12 2 (fun _ => (cksum range).toNat) (fun _ _ _ _ => rfl) ?_
  refine Local.write 14 1 (fun _ => 0x00) (fun _ _ _ _ => rfl) ?_
  exact local_memWrite 15 1 (fun s => s.ch.serviceId.toNat) (fun _ _ _ _ => rfl)

theorem local_storeTrailer : Local storeTrailer := by
  refine Local.ite (p := fun s => 14 + s.ch.dataLen.toNat + 2 > s.ch.capacity.toNat) (fun _ _ _ _ => Iff.rfl)
    (Local.pure fun _ _ _ _ => rfl) ?_
  refine Local.read (r := fun s => bufBytes s 14 s.ch.dataLen.toNat) (fun _ _ _ _ => local_bufBytes _ _ _ _ _ _)
    fun payload => ?_
  intro s b a l
  exact local_memWrite (14 + s.ch.dataLen.toNat) 2 (fun _ => (cksum payload).toNat) (fun _ _ _ _ => rfl) s b a l

theorem local_encodeRequestOp : Local encodeRequestOp :=
  Local.bind local_storeHeaders (Local.bind local_storeTrailer (Local.pure fun _ _ _ _ => rfl))

theorem local_writePropHeader : Local writePropHeader := by
  refine Local.write 16 2 (fun s => s.ch.objType.toNat) (fun _ _ _ _ => rfl) ?_
  refine Local.write 18 4 (fun s => s.ch.objId.toNat) (fun _ _ _ _ => rfl) ?_
  exact local_memWrite 22 2 (fun s => s.ch.propId.toNat) (fun _ _ _ _ => rfl)

theorem local_readPropHeader : Local readPropHeader := by
  refine Local.read (r := fun s => memRead s 16 2) (local_memRead 16 2) fun otype => ?_
  refine Local.read (r := fun s => memRead s 18 4) (local_memRead 18 4) fun oid => ?_
  refine Local.read (r := fun s => memRead s 22 2) (local_memRead 22 2) fun pid => ?_
  exact Local.pure fun _ _ _ _ => rfl

theorem local_encodeReadOp : Local encodeReadOp :=
  Local.update (u := fun s => s.setCh { s.ch with serviceId := Config.serviceRead, valueLen := 0, dataLen := 10 })
    (fun _ _ _ _ => rfl) local_writePropHeader

theorem local_encodeWriteOp : Local encodeWriteOp :=
  Local.ite (p := fun s => 10 + s.ch.valueLen.toNat < 4294967296) (fun _ _ _ _ => Iff.rfl)
    (Local.update (u := fun s => s.setCh { s.ch with serviceId := Config.serviceWrite, dataLen := 10 + s.ch.valueLen })
      (fun _ _ _ _ => rfl) local_writePropHeader)
    (Local.error (fun s => .refuse (.dataLenOverflow s.ch.valueLen)) fun _ _ _ _ => rfl)

theorem local_frameInitOp : Local frameInitOp :=
  Local.ite (p := fun s => (initBase s.ch).toNat + (initCapacity s.ch).toNat ≤ memSize) (fun _ _ _ _ => Iff.rfl)
    (Local.pure fun _ _ _ _ => rfl)
    (Local.error (fun s => .refuse (.bufferPastTop (initBase s.ch) (initCapacity s.ch))) fun _ _ _ _ => rfl)

theorem local_ckRangeOp : Local ckRangeOp :=
  Local.read (r := fun s => bufBytes s (rangeOffset s.ch) (rangeLength s.ch))
    (fun _ _ _ _ => local_bufBytes _ _ _ _ _ _) fun _ => Local.pure fun _ _ _ _ => rfl

/-- DECODE_FRAME_HEADER as its reads, then one update (R158). -/
theorem decodeFrameHeaderOp_reads (s : State) : decodeFrameHeaderOp s = (do
    let f ← memRead s 1 1
    let marker ← memRead s 0 1
    let src ← memRead s 2 4
    let dst ← memRead s 6 4
    let len ← memRead s 10 2
    let range ← bufBytes s 1 11
    let sum ← memRead s 12 2
    let s := setFrameFlags s (unpackFf s.config.fflags (BitVec.ofNat 8 f))
    let s := recordIf (decide (marker ≠ s.config.startMarker.toNat)) s s.config.errInvalidFrame
    let s := setHeaderFields s src dst len
    let s := recordIf (decide (s.ch.dataLen.toNat < 2 ∨ 14 + s.ch.dataLen.toNat + 2 > s.ch.capacity.toNat)) s
      s.config.errInvalidFrame
    let s := recordIf (decide ((cksum range).toNat ≠ sum)) s s.config.errInvalidFrame
    .ok (setPhase s .headerDecoded)) := by
  simp only [decodeFrameHeaderOp, memRead_setFrameFlags, memRead_recordIf, memRead_setHeaderFields,
    bufBytes_setHeaderFields, bufBytes_recordIf, bufBytes_setFrameFlags]

/-- DECODE_FRAME_DATA as its reads, then one update (R160). -/
theorem decodeFrameDataOp_reads (s : State) : decodeFrameDataOp s =
    if s.ch.lastError ≠ 0 then .ok s else (do
      let payload ← bufBytes s 14 s.ch.dataLen.toNat
      let sum ← memRead s (14 + s.ch.dataLen.toNat) 2
      let f ← memRead s 14 1
      let sid ← memRead s 15 1
      let s := recordIf (decide ((cksum payload).toNat ≠ sum)) s s.config.errInvalidFrame
      let s := setServiceFlags s (unpackSf s.config.sflags (BitVec.ofNat 8 f))
      let s := recordIf (decide (s.ch.sfResponse = 0)) s s.config.errInvalidFrame
      let s := setServiceId s (BitVec.ofNat 8 sid)
      .ok (setPhase s .dataDecoded)) := by
  simp only [decodeFrameDataOp, memRead_setServiceFlags, memRead_recordIf]

theorem elsewhere_setCh (s : State) (c : Channel) (b a : List Channel) (l : List Access) :
    (s.setCh c).elsewhere b a l = (s.elsewhere b a l).setCh c := rfl

theorem local_decodeFrameHeaderOp : Local decodeFrameHeaderOp := by
  rw [funext decodeFrameHeaderOp_reads]
  refine Local.read (local_memRead 1 1) fun f => ?_
  refine Local.read (local_memRead 0 1) fun marker => ?_
  refine Local.read (local_memRead 2 4) fun src => ?_
  refine Local.read (local_memRead 6 4) fun dst => ?_
  refine Local.read (local_memRead 10 2) fun len => ?_
  refine Local.read (local_bufBytes 1 11) fun range => ?_
  refine Local.read (local_memRead 12 2) fun sum => ?_
  refine Local.pure fun s b a l => ?_
  simp only [recordIf_eq, setPhase, setFrameFlags, setHeaderFields, State.setCh_setCh, State.setCh_ch,
    State.setCh_config, elsewhere_setCh, State.elsewhere_ch, State.elsewhere_config]
  rfl

theorem local_decodeFrameDataOp : Local decodeFrameDataOp := by
  rw [funext decodeFrameDataOp_reads]
  refine Local.ite (p := fun s => s.ch.lastError ≠ 0) (fun _ _ _ _ => Iff.rfl) Local.ret ?_
  refine Local.read (r := fun s => bufBytes s 14 s.ch.dataLen.toNat) (fun _ _ _ _ => local_bufBytes _ _ _ _ _ _)
    fun payload => ?_
  refine Local.read (r := fun s => memRead s (14 + s.ch.dataLen.toNat) 2) (fun _ _ _ _ => local_memRead _ _ _ _ _ _)
    fun sum => ?_
  refine Local.read (local_memRead 14 1) fun f => ?_
  refine Local.read (local_memRead 15 1) fun sid => ?_
  refine Local.pure fun s b a l => ?_
  simp only [recordIf_eq, setPhase, setServiceFlags, setServiceId, State.setCh_setCh, State.setCh_ch,
    State.setCh_config, elsewhere_setCh, State.elsewhere_ch, State.elsewhere_config]

theorem local_errorResponse (n : Int) : Local fun s => errorResponse s n := by
  refine Local.ite (p := fun _ => n = 2) (fun _ _ _ _ => Iff.rfl) ?_ (Local.pure fun _ _ _ _ => rfl)
  refine Local.bind local_readPropHeader ?_
  refine Local.read (local_memRead 24 2) fun code => ?_
  exact Local.pure fun _ _ _ _ => rfl

theorem local_decodeReadPropertyOp : Local decodeReadPropertyOp :=
  Local.ite (p := fun s => s.ch.sfError = 1) (fun _ _ _ _ => Iff.rfl)
    (fun s b a l => local_errorResponse (impliedLength s.ch) s b a l)
    (Local.ite (p := fun s => 0 ≤ impliedLength s.ch ∧ impliedLength s.ch ≤ valueMaxInt s.ch)
      (fun _ _ _ _ => Iff.rfl)
      (Local.update (u := fun s => setValueLen s (BitVec.ofInt 32 (impliedLength s.ch))) (fun _ _ _ _ => rfl)
        local_readPropHeader)
      (Local.pure fun _ _ _ _ => rfl))

theorem local_decodeWritePropertyOp : Local decodeWritePropertyOp :=
  Local.ite (p := fun s => s.ch.sfError = 1) (fun _ _ _ _ => Iff.rfl)
    (fun s b a l => local_errorResponse (impliedLength s.ch) s b a l)
    (Local.ite (p := fun s => 0 ≤ impliedLength s.ch ∧ impliedLength s.ch ≤ valueMaxInt s.ch ∧ impliedLength s.ch = 0)
      (fun _ _ _ _ => Iff.rfl)
      (Local.update (u := fun s => setValueLen s 0) (fun _ _ _ _ => rfl)
        local_readPropHeader)
      (Local.pure fun _ _ _ _ => rfl))

/-! ### The messages -/

theorem local_storeAt (k : Nat) (bytes : List Byte) : Local fun s => storeAt s k bytes :=
  Local.ite (p := fun s => s.ch.bufBase.toNat + k + bytes.length ≤ memSize ∨ bytes = []) (fun _ _ _ _ => Iff.rfl)
    (Local.pure fun _ _ _ _ => rfl)
    (Local.error (fun s => .fault (.noSuchAddress (s.ch.bufBase.toNat + k + bytes.length - 1))) fun _ _ _ _ => rfl)

theorem local_setValueLength (n : Nat) : Local fun s => setValueLength s n :=
  Local.ite (p := fun _ => n < 4294967296) (fun _ _ _ _ => Iff.rfl) (Local.pure fun _ _ _ _ => rfl)
    (Local.error (fun _ => .refuse (.valueTooWide regValueLen n)) fun _ _ _ _ => rfl)

theorem local_readReq (src dst : BitVec 32) (otype : BitVec 16) (oid : BitVec 32) (pid : BitVec 16) :
    Local fun s => readReq s src dst otype oid pid :=
  Local.bind (f := fun s => encodeReadOp (setRequest s src dst otype oid pid))
    (Local.update (fun _ _ _ _ => rfl) local_encodeReadOp) local_encodeRequestOp

theorem local_writeReq (src dst : BitVec 32) (otype : BitVec 16) (oid : BitVec 32) (pid : BitVec 16)
    (value : List Byte) : Local fun s => writeReq s src dst otype oid pid value :=
  Local.bind (f := fun s => storeAt (setRequest s src dst otype oid pid) 24 value)
    (Local.update (u := fun s => setRequest s src dst otype oid pid) (g := fun s => storeAt s 24 value)
      (fun _ _ _ _ => rfl) (local_storeAt 24 value))
    (Local.bind (local_setValueLength _) (Local.bind local_encodeWriteOp local_encodeRequestOp))

theorem local_ifAccepted {f : State → Run State} (hf : Local f) : Local fun s => ifAccepted s f :=
  Local.ite (p := fun s => (getReg s regLastError).ch.lastError = 0) (fun _ _ _ _ => Iff.rfl)
    (Local.update (fun _ _ _ _ => rfl) hf) (Local.pure fun _ _ _ _ => rfl)

theorem local_recv (bytes : List Byte) : Local fun s => recv s bytes := by
  refine Local.bind (local_storeAt 0 _) (Local.bind local_decodeFrameHeaderOp ?_)
  refine Local.ite (p := fun s => (getReg s regLastError).ch.lastError = 0) (fun _ _ _ _ => Iff.rfl) ?_
    (Local.pure fun _ _ _ _ => rfl)
  exact Local.bind (Local.update (g := fun s => storeAt s 14 (bytes.drop 14)) (fun _ _ _ _ => rfl)
    (local_storeAt 14 _)) local_decodeFrameDataOp

/-- A response is local if its property decode is. -/
theorem local_response (bytes : List Byte) {f : State → Run State} (hf : Local f) :
    Local fun s => recv s bytes >>= fun s => ifAccepted s f := Local.bind (local_recv bytes) (local_ifAccepted hf)

end Sys2Proof.Machine
end

