-- ==== Sys2Proof/Laws/Masking.lean ====
section
/-! SUPPORT. No operation but DECODE_FRAME_DATA reads `LAST_ERROR` (R221): each does the same whatever it holds. -/

namespace Sys2Proof.Machine

/-- A run that does the same from states that differ in `LAST_ERROR` alone, but for what that register holds (R221). -/
def Blind (f : State → Run State) : Prop :=
  ∀ s e, (f (recordError s e)).map (recordError · e) = (f s).map (recordError · e)

/-- The two runs stop alike, or both answer and differ in `LAST_ERROR` alone. -/
theorem Blind.cases {f : State → Run State} (hf : Blind f) (s e) :
    (∃ x, f (recordError s e) = .error x ∧ f s = .error x) ∨
    ∃ u t, f (recordError s e) = .ok u ∧ f s = .ok t ∧ recordError u e = recordError t e := by
  have := hf s e
  cases h1 : f (recordError s e) <;> cases h2 : f s <;> rw [h1, h2] at this <;> simp [Except.map] at this
  · exact Or.inl ⟨_, rfl, by rw [this]⟩
  · exact Or.inr ⟨_, _, rfl, rfl, this⟩

theorem Blind.bind {f g : State → Run State} (hf : Blind f) (hg : Blind g) : Blind fun s => f s >>= g := by
  intro s e
  show (f (recordError s e) >>= g).map _ = (f s >>= g).map _
  rcases hf.cases s e with ⟨x, h1, h2⟩ | ⟨u, t, h1, h2, h3⟩
  · rw [h1, h2]
  · rw [h1, h2, run_ok_bind, run_ok_bind, ← hg u e, h3, hg t e]

/-- A run that commutes with recording an error. -/
theorem Blind.strong {f : State → Run State} (h : ∀ s e, f (recordError s e) = (f s).map (recordError · e)) :
    Blind f := by
  intro s e; rw [h]; cases f s <;> rfl

/-- An update that does not read `LAST_ERROR`. -/
theorem Blind.upd {u : State → State} (h : ∀ s e, recordError (u (recordError s e)) e = recordError (u s) e) :
    Blind fun s => .ok (u s) := by
  intro s e; exact congrArg Except.ok (h s e)

/-- A read that does not see `LAST_ERROR`, and what follows it. -/
theorem Blind.read {α : Type} {r : State → Run α} {g : α → State → Run State} (hr : ∀ s e, r (recordError s e) = r s)
    (hg : ∀ v, Blind (g v)) : Blind fun s => r s >>= fun v => g v s := by
  intro s e
  show (r (recordError s e) >>= fun v => g v (recordError s e)).map _ = (r s >>= fun v => g v s).map _
  rw [hr]
  cases h : r s with
  | ok x => rw [run_ok_bind, run_ok_bind]; exact hg x s e
  | error e => rfl

theorem Blind.ite {p : State → Prop} {_ : ∀ s, Decidable (p s)} {f g : State → Run State}
    (hp : ∀ s e, p (recordError s e) ↔ p s) (hf : Blind f) (hg : Blind g) :
    Blind fun s => if p s then f s else g s := by
  intro s e
  simp only [hp s e]
  split
  · exact hf s e
  · exact hg s e

theorem Blind.error (x : State → Stop) (hx : ∀ s e, x (recordError s e) = x s) : Blind fun s => .error (x s) := by
  intro s e; show Except.error _ = Except.error _; rw [hx]

theorem Blind.update {u : State → State} {g : State → Run State}
    (hu : ∀ s e, u (recordError s e) = recordError (u s) e) (hg : Blind g) : Blind fun s => g (u s) := by
  intro s e; show (g (u (recordError s e))).map _ = _; rw [hu, hg]

theorem blind_bufBytes (k n : Nat) (s e) : bufBytes (recordError s e) k n = bufBytes s k n :=
  bufBytes_congr (by rfl) (by rfl) (by rfl) k n

theorem blind_memRead (k n : Nat) (s e) : memRead (recordError s e) k n = memRead s k n :=
  memRead_congr (by rfl) (by rfl) (by rfl) k n

theorem blind_bufStore (l : List Byte) : ∀ k, Blind fun s => bufStore s k l := by
  induction l with
  | nil => intro k; exact Blind.strong fun _ _ => rfl
  | cons b bs ih =>
    intro k
    refine Blind.bind (f := fun s => bufWriteByte s k b) ?_ (ih (k + 1))
    refine Blind.read (r := fun s => bufCheck s k) (g := fun x s => .ok (s.setMem (memPut s.mem x b)))
      (fun _ _ => rfl) fun x => ?_
    exact Blind.upd fun _ _ => rfl

theorem blind_memWrite (k n : Nat) (v : State → Nat) (hv : ∀ s e, v (recordError s e) = v s) :
    Blind fun s => memWrite s k n (v s) := by
  intro s e
  show (bufStore _ k (leBytes n (v (recordError s e)))).map _ = _
  rw [hv]; exact blind_bufStore _ k s e

/-- A store, then the rest. -/
theorem Blind.write (k n : Nat) (v : State → Nat) {g : State → Run State}
    (hv : ∀ s e, v (recordError s e) = v s) (hg : Blind g) :
    Blind fun s => memWrite s k n (v s) >>= g :=
  Blind.bind (blind_memWrite k n v hv) hg

theorem blind_storeHeaders : Blind storeHeaders := by
  refine Blind.write 0 1 (fun s => s.config.startMarker.toNat) (fun _ _ => rfl) ?_
  refine Blind.write 1 1 (fun _ => 0x00) (fun _ _ => rfl) ?_
  refine Blind.write 2 4 (fun s => s.ch.srcAddr.toNat) (fun _ _ => rfl) ?_
  refine Blind.write 6 4 (fun s => s.ch.dstAddr.toNat) (fun _ _ => rfl) ?_
  refine Blind.write 10 2 (fun s => s.ch.dataLen.toNat % 65536) (fun _ _ => rfl) ?_
  refine Blind.read (r := fun s => bufBytes s 1 11) (blind_bufBytes 1 11) fun range => ?_
  refine Blind.write 12 2 (fun _ => (cksum range).toNat) (fun _ _ => rfl) ?_
  refine Blind.write 14 1 (fun _ => 0x00) (fun _ _ => rfl) ?_
  exact blind_memWrite 15 1 (fun s => s.ch.serviceId.toNat) (fun _ _ => rfl)

theorem blind_storeTrailer : Blind storeTrailer := by
  refine Blind.ite (p := fun s => 14 + s.ch.dataLen.toNat + 2 > s.ch.capacity.toNat) (fun _ _ => Iff.rfl)
    (Blind.upd fun _ _ => rfl) ?_
  refine Blind.read (r := fun s => bufBytes s 14 s.ch.dataLen.toNat) (fun s e => blind_bufBytes _ _ s e)
    fun payload => ?_
  intro s e
  exact blind_memWrite (14 + s.ch.dataLen.toNat) 2 (fun _ => (cksum payload).toNat) (fun _ _ => rfl) s e

theorem blind_encodeRequestOp : Blind encodeRequestOp :=
  Blind.bind blind_storeHeaders (Blind.bind blind_storeTrailer (Blind.upd fun _ _ => rfl))

theorem blind_writePropHeader : Blind writePropHeader := by
  refine Blind.write 16 2 (fun s => s.ch.objType.toNat) (fun _ _ => rfl) ?_
  refine Blind.write 18 4 (fun s => s.ch.objId.toNat) (fun _ _ => rfl) ?_
  exact blind_memWrite 22 2 (fun s => s.ch.propId.toNat) (fun _ _ => rfl)

theorem blind_readPropHeader : Blind readPropHeader := by
  refine Blind.read (r := fun s => memRead s 16 2) (blind_memRead 16 2) fun otype => ?_
  refine Blind.read (r := fun s => memRead s 18 4) (blind_memRead 18 4) fun oid => ?_
  refine Blind.read (r := fun s => memRead s 22 2) (blind_memRead 22 2) fun pid => ?_
  exact Blind.upd fun _ _ => rfl

theorem blind_encodeReadOp : Blind encodeReadOp :=
  Blind.update (u := fun s => s.setCh { s.ch with serviceId := Config.serviceRead, valueLen := 0, dataLen := 10 })
    (fun _ _ => rfl) blind_writePropHeader

theorem blind_encodeWriteOp : Blind encodeWriteOp :=
  Blind.ite (p := fun s => 10 + s.ch.valueLen.toNat < 4294967296) (fun _ _ => Iff.rfl)
    (Blind.update (u := fun s => s.setCh { s.ch with serviceId := Config.serviceWrite, dataLen := 10 + s.ch.valueLen })
      (fun _ _ => rfl) blind_writePropHeader)
    (Blind.error (fun s => .refuse (.dataLenOverflow s.ch.valueLen)) fun _ _ => rfl)

theorem blind_frameInitOp : Blind frameInitOp :=
  Blind.ite (p := fun s => (initBase s.ch).toNat + (initCapacity s.ch).toNat ≤ memSize) (fun _ _ => Iff.rfl)
    (Blind.upd fun _ _ => rfl)
    (Blind.error (fun s => .refuse (.bufferPastTop (initBase s.ch) (initCapacity s.ch))) fun _ _ => rfl)

theorem blind_ckRangeOp : Blind ckRangeOp :=
  Blind.read (r := fun s => bufBytes s (rangeOffset s.ch) (rangeLength s.ch))
    (fun s e => blind_bufBytes _ _ s e) fun _ => Blind.upd fun _ _ => rfl

theorem blind_decodeFrameHeaderOp : Blind decodeFrameHeaderOp := by
  rw [funext decodeFrameHeaderOp_reads]
  refine Blind.read (blind_memRead 1 1) fun f => ?_
  refine Blind.read (blind_memRead 0 1) fun marker => ?_
  refine Blind.read (blind_memRead 2 4) fun src => ?_
  refine Blind.read (blind_memRead 6 4) fun dst => ?_
  refine Blind.read (blind_memRead 10 2) fun len => ?_
  refine Blind.read (blind_bufBytes 1 11) fun range => ?_
  refine Blind.read (blind_memRead 12 2) fun sum => ?_
  refine Blind.upd fun s e => ?_
  simp only [recordIf_eq, setPhase, setFrameFlags, setHeaderFields, State.setCh_setCh, State.setCh_ch,
    State.setCh_config, recordError]

theorem blind_errorResponse (n : Int) : Blind fun s => errorResponse s n := by
  refine Blind.ite (p := fun _ => n = 2) (fun _ _ => Iff.rfl) ?_ (Blind.upd fun _ _ => rfl)
  refine Blind.bind blind_readPropHeader ?_
  refine Blind.read (blind_memRead 24 2) fun code => ?_
  exact Blind.upd fun _ _ => rfl

theorem blind_decodeReadPropertyOp : Blind decodeReadPropertyOp :=
  Blind.ite (p := fun s => s.ch.sfError = 1) (fun _ _ => Iff.rfl)
    (fun s e => blind_errorResponse (impliedLength s.ch) s e)
    (Blind.ite (p := fun s => 0 ≤ impliedLength s.ch ∧ impliedLength s.ch ≤ valueMaxInt s.ch)
      (fun _ _ => Iff.rfl)
      (Blind.update (u := fun s => setValueLen s (BitVec.ofInt 32 (impliedLength s.ch))) (fun _ _ => rfl)
        blind_readPropHeader)
      (Blind.upd fun _ _ => rfl))

theorem blind_decodeWritePropertyOp : Blind decodeWritePropertyOp :=
  Blind.ite (p := fun s => s.ch.sfError = 1) (fun _ _ => Iff.rfl)
    (fun s e => blind_errorResponse (impliedLength s.ch) s e)
    (Blind.ite (p := fun s => 0 ≤ impliedLength s.ch ∧ impliedLength s.ch ≤ valueMaxInt s.ch ∧ impliedLength s.ch = 0)
      (fun _ _ => Iff.rfl)
      (Blind.update (u := fun s => setValueLen s 0) (fun _ _ => rfl)
        blind_readPropHeader)
      (Blind.upd fun _ _ => rfl))

end Sys2Proof.Machine
end

