-- ==== Sys2Proof/Laws/PerInstr.lean ====
section
/-! SUPPORT. Statements for all instructions, made per instruction (LAWS.json). `TableRow`: the encoding of a
well-formed instruction, under the default parameters (the table's own), has its opcode-table row's format and fits its
match and mask. -/

namespace Sys2Proof.Laws.TableRow

open Sys2Proof Sys2Proof.Machine

/-- A well-formed instruction's encoding fits its row of the opcode table (R107, R110). -/
def Statement (i : Instr) : Prop :=
  i.wf Config.default = true → (encode Config.default i).fits i.row

theorem ckInit : Statement .ckInit := fun _ => ⟨rfl, by decide⟩

theorem ckUpdate : Statement .ckUpdate := fun _ => ⟨rfl, by decide⟩

theorem ckRange : Statement .ckRange := fun _ => ⟨rfl, by decide⟩

theorem frameInit : Statement .frameInit := fun _ => ⟨rfl, by decide⟩

theorem encodeRequest : Statement .encodeRequest := fun _ => ⟨rfl, by decide⟩

theorem decodeFrameHeader : Statement .decodeFrameHeader := fun _ => ⟨rfl, by decide⟩

theorem decodeFrameData : Statement .decodeFrameData := fun _ => ⟨rfl, by decide⟩

theorem frameLength : Statement .frameLength := fun _ => ⟨rfl, by decide⟩

theorem propInit : Statement .propInit := fun _ => ⟨rfl, by decide⟩

theorem encodeRead : Statement .encodeRead := fun _ => ⟨rfl, by decide⟩

theorem encodeWrite : Statement .encodeWrite := fun _ => ⟨rfl, by decide⟩

theorem decodeReadProperty : Statement .decodeReadProperty := fun _ => ⟨rfl, by decide⟩

theorem decodeWriteProperty : Statement .decodeWriteProperty := fun _ => ⟨rfl, by decide⟩

/-- The selector of a request frame is its zero flags byte and its service id (R107). -/
theorem request_selector (src dst : BitVec 32) (sid : Byte) (otype : BitVec 16) (oid : BitVec 32) (pid : BitVec 16)
    (value : List Byte) :
    (Packet.frame (requestFrame Config.default.startMarker src dst sid otype oid pid value)).tableBits =
      256 * sid.toNat := by
  simp [Packet.tableBits, sflagsByte, sidByte, requestFrame, requestHeader, headerRange, leBytes, requestPayload,
      List.getD]

theorem frameReadRequest (src dst : BitVec 32) (otype : BitVec 16) (oid : BitVec 32) (pid : BitVec 16) :
    Statement (.frameReadRequest src dst otype oid pid) := fun _ => ⟨rfl, by
  rw [encode, request_selector, Instr.row]; decide⟩

theorem frameWriteRequest (src dst : BitVec 32) (otype : BitVec 16) (oid : BitVec 32) (pid : BitVec 16)
    (value : List (BitVec 8)) : Statement (.frameWriteRequest src dst otype oid pid value) := fun _ => ⟨rfl, by
  rw [encode, request_selector, Instr.row]; decide⟩

/-- What a response's selector byte holds, by its shape (R107). -/
theorem response_selector (sflags sid : Byte) :
    (shapeOf SFlagsLayout.default sflags sid = some .readResponse →
      (sflags.toNat + 256 * sid.toNat) &&& 0xFF03 = 0x0102) ∧
    (shapeOf SFlagsLayout.default sflags sid = some .writeResponse →
      (sflags.toNat + 256 * sid.toNat) &&& 0xFF03 = 0x0202) ∧
    (shapeOf SFlagsLayout.default sflags sid = some .errorResponse →
      (sflags.toNat + 256 * sid.toNat) &&& 0x0003 = 0x0003) := by
  have flags : ∀ b : Byte, (unpackSf SFlagsLayout.default b).response ≠ 0 →
      ((unpackSf SFlagsLayout.default b).error ≠ 1 → (b.toNat + 256 * 1) &&& 0xFF03 = 0x0102 ∧
        (b.toNat + 256 * 2) &&& 0xFF03 = 0x0202) ∧
      ((unpackSf SFlagsLayout.default b).error = 1 → b.toNat % 4 = 3) := by decide +kernel
  unfold shapeOf
  refine ⟨fun h => ?_, fun h => ?_, fun h => ?_⟩ <;> (repeat' split at h) <;> try cases h
  · rename_i hr he hs; rw [hs]; exact ((flags sflags hr).1 he).1
  · rename_i hr he _ hs; rw [hs]; exact ((flags sflags hr).1 he).2
  · rename_i hr he
    have := (flags sflags hr).2 he
    rw [show (3 : Nat) = 2 ^ 2 - 1 from rfl, Nat.and_two_pow_sub_one_eq_mod]
    omega

theorem frameReadResponse (bytes : List (BitVec 8)) : Statement (.frameReadResponse bytes) := fun h => ⟨rfl,
  (response_selector _ _).1 (of_decide_eq_true (Bool.and_eq_true_iff.1 h).2)⟩

theorem frameWriteResponse (bytes : List (BitVec 8)) : Statement (.frameWriteResponse bytes) := fun h => ⟨rfl,
  (response_selector _ _).2.1 (of_decide_eq_true (Bool.and_eq_true_iff.1 h).2)⟩

theorem frameErrorResponse (bytes : List (BitVec 8)) : Statement (.frameErrorResponse bytes) := fun h => ⟨rfl,
  (response_selector _ _).2.2 (of_decide_eq_true (Bool.and_eq_true_iff.1 h).2)⟩

end Sys2Proof.Laws.TableRow
end

