-- ==== Sys2Proof/Laws/Refusals.lean ====
section
/-! SUPPORT. Where each operation of the codecs is refused for an offset outside the buffer (R66, R222). -/

namespace Sys2Proof.Machine

variable {s t : State}

/-- A run refused for an offset outside the buffer of `s`. -/
def oob {α : Type} (s : State) (r : Run α) : Prop := ∃ k, s.ch.capacity.toNat ≤ k ∧
    r = .error (.refuse (.outOfBuffer k))

/-- A refused first part refuses the whole. -/
theorem oob_bind {α β : Type} {r : Run α} {f : α → Run β} (h : oob s r) : oob s (r >>= f) := by
  obtain ⟨k, hk, rfl⟩ := h; exact ⟨k, hk, rfl⟩

/-- A read that leaves the buffer is refused (R66). -/
theorem oob_bufBytes (hb : s.ch.bound) {k n : Nat} (hn : 0 < n) (h : s.ch.capacity.toNat < k + n) :
    oob s (bufBytes s k n) :=
  ⟨_, by omega, bufBytes_refused hb hn h⟩

/-- A field that leaves the buffer is not read (R64, R66). -/
theorem oob_memRead (hb : s.ch.bound) {k n : Nat} (hn : 0 < n) (h : s.ch.capacity.toNat < k + n) :
    oob s (memRead s k n) :=
  oob_bind (oob_bufBytes hb hn h)

/-- A field that leaves the buffer is not written (R65, R66). -/
theorem oob_memWrite (hb : s.ch.bound) {k n v : Nat} (hn : 0 < n) (h : s.ch.capacity.toNat < k + n) :
    oob s (memWrite s k n v) := by
  refine ⟨_, ?_, bufStore_refused hb ?_ ?_⟩
  · omega
  · intro h2; have := congrArg List.length h2; simp at this; omega
  · simpa using h

/-- The bound that counts is `CAPACITY`, whatever else changed. -/
theorem oob_congr {α : Type} {r : Run α} (h : t.ch.capacity = s.ch.capacity) (ho : oob t r) : oob s r := by
  obtain ⟨k, hk, e⟩ := ho; exact ⟨k, by rw [← h]; exact hk, e⟩

/-- A store is refused or changes memory alone. -/
theorem memWrite_try (hb : s.ch.bound) {k n v : Nat} (hn : 0 < n) :
    oob s (memWrite s k n v) ∨ ∃ m, memWrite s k n v = .ok (s.setMem m) := by
  by_cases h : s.ch.capacity.toNat < k + n
  · exact Or.inl (oob_memWrite hb hn h)
  · exact Or.inr ⟨_, memWrite_ok (spans_of_bound hb (by omega))⟩

/-- A read is refused or answers. -/
theorem memRead_try (hb : s.ch.bound) {k n : Nat} (hn : 0 < n) : oob s (memRead s k n) ∨ ∃ m, memRead s k n = .ok m :=
    by
  by_cases h : s.ch.capacity.toNat < k + n
  · exact Or.inl (oob_memRead hb hn h)
  · exact Or.inr ⟨_, memRead_ok (spans_of_bound hb (by omega))⟩

/-- A read of bytes is refused or answers. -/
theorem bufBytes_try (hb : s.ch.bound) {k n : Nat} (hn : 0 < n) :
    oob s (bufBytes s k n) ∨ ∃ m, bufBytes s k n = .ok m := by
  by_cases h : s.ch.capacity.toNat < k + n
  · exact Or.inl (oob_bufBytes hb hn h)
  · exact Or.inr ⟨_, bufBytes_ok (spans_of_bound hb (by omega))⟩

/-- ENCODE_REQUEST's stores into a buffer below 16 bytes (R156, R222). -/
theorem storeHeaders_oob (hb : s.ch.bound) (h : s.ch.capacity.toNat < 16) : oob s (storeHeaders s) := by
  have wr : ∀ (m : List Host.Cell) (k n v : Nat) (f : State → Run State), 0 < n → (∀ m, oob s (f (s.setMem m))) →
      oob s (memWrite (s.setMem m) k n v >>= f) := by
    intro m k n v f hn hf
    rcases memWrite_try (s := s.setMem m) (k := k) (v := v) hb hn with h | ⟨m', h⟩
    · exact oob_bind (oob_congr (t := s.setMem m) rfl h)
    · rw [h, run_ok_bind, State.setMem_setMem]; exact hf m'
  unfold storeHeaders
  refine wr s.mem 0 1 _ _ (by omega) fun m1 => ?_
  refine wr m1 1 1 _ _ (by omega) fun m2 => ?_
  refine wr m2 2 4 _ _ (by omega) fun m3 => ?_
  refine wr m3 6 4 _ _ (by omega) fun m4 => ?_
  refine wr m4 10 2 _ _ (by omega) fun m5 => ?_
  rcases bufBytes_try (s := s.setMem m5) (k := 1) (n := 11) hb (by omega) with h | ⟨r, h⟩
  · exact oob_bind (oob_congr (t := s.setMem m5) rfl h)
  rw [h, run_ok_bind]
  refine wr m5 12 2 _ _ (by omega) fun m6 => ?_
  refine wr m6 14 1 _ _ (by omega) fun m7 => ?_
  exact oob_congr (t := s.setMem m7) rfl (oob_memWrite (s := s.setMem m7) hb (by omega)
      (by show s.ch.capacity.toNat < _; omega))

/-- The property header written into a buffer below 24 bytes (R222). -/
theorem writePropHeader_oob (hb : s.ch.bound) (h : s.ch.capacity.toNat < 24) : oob s (writePropHeader s) := by
  have wr : ∀ (m : List Host.Cell) (k n v : Nat) (f : State → Run State), 0 < n → (∀ m, oob s (f (s.setMem m))) →
      oob s (memWrite (s.setMem m) k n v >>= f) := by
    intro m k n v f hn hf
    rcases memWrite_try (s := s.setMem m) (k := k) (v := v) hb hn with h | ⟨m', h⟩
    · exact oob_bind (oob_congr (t := s.setMem m) rfl h)
    · rw [h, run_ok_bind, State.setMem_setMem]; exact hf m'
  unfold writePropHeader
  refine wr s.mem 16 2 _ _ (by omega) fun m1 => ?_
  refine wr m1 18 4 _ _ (by omega) fun m2 => ?_
  exact oob_congr (t := s.setMem m2) rfl (oob_memWrite (s := s.setMem m2) hb (by omega)
      (by show s.ch.capacity.toNat < _; omega))

/-- The same, after registers were written. -/
theorem writePropHeader_oob2 {u : State} (hu : u.ch.bufBase = s.ch.bufBase) (hc : u.ch.capacity = s.ch.capacity)
    (hb : s.ch.bound) (h : s.ch.capacity.toNat < 24) :
   oob s (writePropHeader u) :=
  oob_congr hc (writePropHeader_oob (by rw [Channel.bound, hu, hc]; exact hb) (by rw [hc]; exact h))

/-- The property header read from a buffer below 24 bytes (R222). -/
theorem readPropHeader_oob (hb : s.ch.bound) (h : s.ch.capacity.toNat < 24) : oob s (readPropHeader s) := by
  unfold readPropHeader
  rcases memRead_try (s := s) (k := 16) (n := 2) hb (by omega) with h1 | ⟨a, h1⟩
  · exact oob_bind h1
  rw [h1, run_ok_bind]
  rcases memRead_try (s := s) (k := 18) (n := 4) hb (by omega) with h1 | ⟨a, h1⟩
  · exact oob_bind h1
  rw [h1, run_ok_bind]
  exact oob_bind (oob_memRead hb (by omega) (by omega))

/-- DECODE_FRAME_HEADER in a buffer below 14 bytes (R222). -/
theorem decodeFrameHeader_oob (hb : s.ch.bound) (h : s.ch.capacity.toNat < 14) : oob s (decodeFrameHeaderOp s) := by
  unfold decodeFrameHeaderOp
  simp only [memRead_setFrameFlags, memRead_recordIf, memRead_setHeaderFields, bufBytes_setHeaderFields,
      bufBytes_recordIf, bufBytes_setFrameFlags]
  have rd : ∀ (k n : Nat) (f : Nat → Run State), 0 < n → (∀ a, oob s (f a)) → oob s (memRead s k n >>= f) := by
    intro k n f hn hf
    rcases memRead_try (s := s) (k := k) hb hn with h | ⟨m', h⟩
    · exact oob_bind h
    · rw [h, run_ok_bind]; exact hf m'
  refine rd _ _ _ (by omega) fun _ => ?_
  refine rd _ _ _ (by omega) fun _ => ?_
  refine rd _ _ _ (by omega) fun _ => ?_
  refine rd _ _ _ (by omega) fun _ => ?_
  refine rd _ _ _ (by omega) fun _ => ?_
  rcases bufBytes_try (s := s) (k := 1) (n := 11) hb (by omega) with h1 | ⟨r, h1⟩
  · exact oob_bind h1
  rw [h1, run_ok_bind]
  exact oob_bind (oob_memRead hb (by omega) (by omega))

/-- DECODE_FRAME_DATA of a frame longer than the buffer (R222). -/
theorem decodeFrameData_oob (hb : s.ch.bound) (h0 : s.ch.lastError = 0)
    (h : s.ch.capacity.toNat < 16 + s.ch.dataLen.toNat) : oob s (decodeFrameDataOp s) := by
  unfold decodeFrameDataOp
  rw [if_neg (by simp [h0])]
  by_cases hn : s.ch.dataLen.toNat = 0
  · rw [hn] at h ⊢
    rw [show bufBytes s 14 0 = .ok [] from rfl, run_ok_bind]
    exact oob_bind (oob_memRead hb (by omega) (by omega))
  · rcases bufBytes_try (s := s) (k := 14) (n := s.ch.dataLen.toNat) hb (by omega) with h1 | ⟨r, h1⟩
    · exact oob_bind h1
    rw [h1, run_ok_bind]
    exact oob_bind (oob_memRead hb (by omega) (by omega))

/-- A well-formed error response in a buffer below 26 bytes (R196, R222). -/
theorem errorResponse_oob (hb : s.ch.bound) (h : s.ch.capacity.toNat < 26) : oob s (errorResponse s 2) := by
  rw [errorResponse, if_pos rfl]
  by_cases h24 : s.ch.capacity.toNat < 24
  · exact oob_bind (readPropHeader_oob hb h24)
  · rw [readPropHeader_ok (spans_of_bound hb (by omega)), run_ok_bind]
    exact oob_bind (oob_congr (t := s.setCh (decodedProp s)) rfl
        (oob_memRead (s := s.setCh (decodedProp s)) hb (by omega) (by show s.ch.capacity.toNat < _; omega)))

end Sys2Proof.Machine
end

