-- ==== Sys2Proof/Laws/Run.lean ====
section
/-! SUPPORT. Runs of several steps through the port, one line of R113 after the other, and what `exec` does to the
channels around the selected one and to the accesses to come. -/

namespace Sys2Proof.Machine

variable {s t : State}

/-! ### `exec` is local -/

theorem outcome_map (r : Run State) (φ : State → State) : outcome (r.map φ) =
    match outcome r with
    | .next t => .next (φ t)
    | .fault r => .fault r
    | .refused r => .refused r := by
  rcases r with (f | f) | x <;> rfl

/-- The outcome of a local run commutes with replacing what lies elsewhere. -/
theorem outcome_local {f : State → Run State} (hf : Local f) (s : State) (b a : List Channel) (l : List Access) :
    outcome (f (s.elsewhere b a l)) =
      match outcome (f s) with
      | .next t => .next (t.elsewhere b a l)
      | .fault r => .fault r
      | .refused r => .refused r := by
  rw [hf, outcome_map]

/-- Every instruction commutes with replacing what lies elsewhere (R20, R226). -/
theorem exec_elsewhere (i : Instr) (s : State) (b a : List Channel) (l : List Access) :
    exec i (s.elsewhere b a l) =
      match exec i s with
      | .next t => .next (t.elsewhere b a l)
      | .fault r => .fault r
      | .refused r => .refused r := by
  cases i with
  | ckInit => rfl
  | ckUpdate => rfl
  | ckRange => exact outcome_local local_ckRangeOp s b a l
  | frameInit => exact outcome_local local_frameInitOp s b a l
  | encodeRequest => exact outcome_local local_encodeRequestOp s b a l
  | decodeFrameHeader => exact outcome_local local_decodeFrameHeaderOp s b a l
  | decodeFrameData => exact outcome_local local_decodeFrameDataOp s b a l
  | frameLength => rfl
  | propInit => rfl
  | encodeRead => exact outcome_local local_encodeReadOp s b a l
  | encodeWrite => exact outcome_local local_encodeWriteOp s b a l
  | decodeReadProperty => exact outcome_local local_decodeReadPropertyOp s b a l
  | decodeWriteProperty => exact outcome_local local_decodeWritePropertyOp s b a l
  | frameReadRequest => exact outcome_local (local_readReq _ _ _ _ _) s b a l
  | frameWriteRequest => exact outcome_local (local_writeReq _ _ _ _ _ _) s b a l
  | frameReadResponse => exact outcome_local (local_response _ local_decodeReadPropertyOp) s b a l
  | frameWriteResponse => exact outcome_local (local_response _ local_decodeWritePropertyOp) s b a l
  | frameErrorResponse => exact outcome_local (local_response _ local_decodeReadPropertyOp) s b a l

/-- No instruction takes or adds an access. -/
theorem exec_inbox {i : Instr} (h : exec i s = .next t) : t.inbox = s.inbox := by
  have e := exec_elsewhere i s s.before s.after s.inbox
  rw [State.elsewhere_self, h] at e
  injection e with e
  exact (congrArg State.inbox e :)

/-- No instruction changes a channel but the selected one (R20). -/
theorem exec_around {i : Instr} (h : exec i s = .next t) : t.before = s.before ∧ t.after = s.after := by
  have e := exec_elsewhere i s s.before s.after s.inbox
  rw [State.elsewhere_self, h] at e
  injection e with e
  exact ⟨(congrArg State.before e :), (congrArg State.after e :)⟩

/-! ### Runs -/

theorem core_run_next (M : Host.Core) {n : Nat} {s u : M.State} (h : M.step s = .next u) :
    M.run (n + 1) s = M.run n u := by rw [Host.Core.run, h]

theorem core_run_fault (M : Host.Core) {n : Nat} {s : M.State} {r : M.Fault} (h : M.step s = .fault r) :
    M.run (n + 1) s = .fault r := by rw [Host.Core.run, h]

theorem core_run_refused (M : Host.Core) {n : Nat} {s : M.State} {r : M.Refusal} (h : M.step s = .refused r) :
    M.run (n + 1) s = .refused r := by rw [Host.Core.run, h]

/-- `n` steps of this machine, with the types of its own. -/
def run (n : Nat) (s : State) : Host.Outcome State Fault Refusal := Host.Core.run Sys2Proof.core n s

theorem run_next {n : Nat} (h : step s = .next t) : run (n + 1) s = run n t := core_run_next Sys2Proof.core h

theorem run_fault {n : Nat} {r : Fault} (h : step s = .fault r) : run (n + 1) s = .fault r :=
  core_run_fault Sys2Proof.core h

theorem run_refused {n : Nat} {r : Refusal} (h : step s = .refused r) : run (n + 1) s = .refused r :=
  core_run_refused Sys2Proof.core h

theorem fetch_lines (s : State) (act : Action) (acts : List Action) :
    fetch (linesAtPort s (act :: acts)) = fetchAction (linesAtPort s acts) act :=
  fetch_atPort (linesAtPort s acts) act

theorem linesAtPort_eq (s : State) (acts : List Action) :
    linesAtPort s acts =
      s.elsewhere s.before s.after (acts.map (Access.port s.before.length) ++ s.inbox) := rfl

/-- A line whose step is a local run: the rest of the lines follow in the state it gives. -/
theorem run_line {act : Action} {acts : List Action} {f : State → Run State} {n : Nat}
    (hstep : step (linesAtPort s (act :: acts)) = outcome (f (linesAtPort s acts))) (hf : Local f) :
    run (n + 1) (linesAtPort s (act :: acts)) =
      match f s with
      | .ok t => run n (linesAtPort t acts)
      | .error (.fault r) => .fault r
      | .error (.refuse r) => .refused r := by
  have h1 := hf s s.before s.after (acts.map (Access.port s.before.length) ++ s.inbox)
  have h2 := hf s s.before s.after s.inbox
  rw [State.elsewhere_self] at h2
  rw [← linesAtPort_eq] at h1
  rw [h1] at hstep
  cases hx : f s with
  | error e =>
    rw [hx] at hstep
    cases e with
    | fault r => exact run_fault hstep
    | refuse r => exact run_refused hstep
  | ok t =>
    rw [hx] at hstep h2
    simp only [Except.map] at h2
    injection h2 with h2
    have k1 : t.before = s.before := (congrArg State.before h2 :)
    have k2 : t.after = s.after := (congrArg State.after h2 :)
    have k3 : t.inbox = s.inbox := (congrArg State.inbox h2 :)
    refine (run_next hstep).trans ?_
    simp only
    rw [linesAtPort_eq, k1, k2, k3]

/-- A `SET` line that is accepted. -/
theorem run_set {num : BitVec 8} {v : BitVec 32} (F : Channel → Channel) {acts : List Action} {n : Nat} (h0 : num ≠ 0)
    (h : ∀ u : State, setReg u num v = .ok (u.setCh (F u.ch))) :
    run (n + 1) (linesAtPort s (.writeReg num v :: acts)) = run n (linesAtPort (s.setCh (F s.ch)) acts) := by
  refine run_next ?_
  rw [step_of_done ((fetch_lines s _ _).trans (fetchAction_plain (packet_writeReg h0 v))), hostAction, h]
  rfl

/-- A line that writes a command code. -/
theorem run_code {code : BitVec 8} {i : Instr} {f : State → Run State} {acts : List Action} {n : Nat}
    (hd : ∀ c, decode c (.cmd code) = .ok i) (he : ∀ u, exec i u = outcome (f u)) (hf : Local f) :
    run (n + 1) (linesAtPort s (.writeReg 0x00 (code.setWidth 32) :: acts)) =
      match f s with
      | .ok t => run n (linesAtPort t acts)
      | .error (.fault r) => .fault r
      | .error (.refuse r) => .refused r := by
  refine run_line ?_ hf
  rw [step_of_instr ((fetch_lines s _ _).trans (fetchAction_instr (packet_cmd code) (hd _))), he]

/-- A `STORE` line. -/
theorem run_store {k : Nat} {l : List Byte} {acts : List Action} {n : Nat} :
    run (n + 1) (linesAtPort s (.store k l :: acts)) =
      match storeAt s k l with
      | .ok t => run n (linesAtPort t acts)
      | .error (.fault r) => .fault r
      | .error (.refuse r) => .refused r := by
  refine run_line (f := fun s => storeAt s k l) ?_ (local_storeAt k l)
  rw [step_of_done ((fetch_lines _ _ _).trans (fetchAction_plain rfl))]
  rfl

/-- A `GET` line. -/
theorem run_get {num : BitVec 8} {acts : List Action} {n : Nat} (h : num ≠ 0x13) :
    run (n + 1) (linesAtPort s (.readReg num :: acts)) = run n (linesAtPort (getReg s num) acts) := by
  refine run_next ?_
  rw [step_of_done ((fetch_lines _ _ _).trans (fetchAction_plain (packet_readReg h)))]
  rfl

theorem setReg_objType (u : State) (v : BitVec 32) :
    setReg u 0x14 v = putReg u 0x14 16 v fun x => { u.ch with objType := x } := by rw [setReg.eq_def]; rfl

theorem setReg_propId (u : State) (v : BitVec 32) :
    setReg u 0x16 v = putReg u 0x16 16 v fun x => { u.ch with propId := x } := by rw [setReg.eq_def]; rfl

/-- A 16-bit value, written as 32 bits, fits a 16-bit register. -/
theorem putReg_of_width (u : State) (num : BitVec 8) (x : BitVec 16) (f : BitVec 16 → Channel) :
    putReg u num 16 (x.setWidth 32) f = .ok (u.setCh (f x)) := by
  rw [putReg, if_pos (by have := x.isLt; rw [BitVec.toNat_setWidth]; omega)]
  rw [show (x.setWidth 32).setWidth 16 = x by simp]

end Sys2Proof.Machine
end

