-- ==== Sys2Proof/Laws/Window.lean ====
section
/-! SUPPORT. No operation but FRAME_INIT, which touches no byte, looks outside its channel's buffer (R61): each does the
same from any memory that agrees with its own there. -/

namespace Sys2Proof.Machine

/-- `m` holds the bytes of `s` in the buffer of its channel (R61); both memories have their canonical form. -/
structure Agree (s : State) (m : List Host.Cell) : Prop where
  wf : memWf s.mem
  wf' : memWf m
  same : ∀ k, k < s.ch.capacity.toNat → memGet m (s.ch.bufBase.toNat + k) = memGet s.mem (s.ch.bufBase.toNat + k)

/-- The agreement depends on the binding and the memory alone. -/
theorem Agree.of_eq {s t : State} {m : List Host.Cell} (h : Agree s m) (hb : t.ch.bufBase = s.ch.bufBase)
    (hc : t.ch.capacity = s.ch.capacity) (hm : t.mem = s.mem) : Agree t m :=
  ⟨hm ▸ h.wf, h.wf', by rw [hb, hc, hm]; exact h.same⟩

/-- A run that looks at no byte outside the buffer: over an agreeing memory it stops alike, or answers alike but for the
memory, which agrees again. It keeps the binding. -/
def Windowed (f : State → Run State) : Prop :=
  ∀ s m, Agree s m →
    (∃ x, f s = .error x ∧ f (s.setMem m) = .error x) ∨
    ∃ t m', f s = .ok t ∧ f (s.setMem m) = .ok (t.setMem m') ∧ Agree t m' ∧
      t.ch.bufBase = s.ch.bufBase ∧ t.ch.capacity = s.ch.capacity

/-- An update that neither reads nor writes the memory and keeps the binding. -/
structure Aside (u : State → State) : Prop where
  setMem : ∀ s m, u (s.setMem m) = (u s).setMem m
  mem : ∀ s, (u s).mem = s.mem
  base : ∀ s, (u s).ch.bufBase = s.ch.bufBase
  cap : ∀ s, (u s).ch.capacity = s.ch.capacity

theorem Windowed.bind {f g : State → Run State} (hf : Windowed f) (hg : Windowed g) :
    Windowed fun s => f s >>= g := by
  intro s m h
  show (∃ x, (f s >>= g) = _ ∧ (f (s.setMem m) >>= g) = _) ∨ ∃ t m', (f s >>= g) = _ ∧ (f (s.setMem m) >>= g) = _ ∧ _
  rcases hf s m h with ⟨x, h1, h2⟩ | ⟨t, m', h1, h2, h3, hb, hc⟩
  · exact Or.inl ⟨x, by rw [h1]; rfl, by rw [h2]; rfl⟩
  · rw [h1, h2, run_ok_bind, run_ok_bind, ← hb, ← hc]
    exact hg t m' h3

theorem Windowed.upd {u : State → State} (hu : Aside u) : Windowed fun s => .ok (u s) := fun s m h =>
  Or.inr ⟨u s, m, rfl, congrArg Except.ok (hu.setMem s m), h.of_eq (hu.base s) (hu.cap s) (hu.mem s),
    hu.base s, hu.cap s⟩

theorem Windowed.update {u : State → State} {g : State → Run State} (hu : Aside u) (hg : Windowed g) :
    Windowed fun s => g (u s) :=
  Windowed.bind (f := fun s => .ok (u s)) (Windowed.upd hu) hg

theorem Windowed.error (x : State → Stop) (hx : ∀ s m, x (s.setMem m) = x s) : Windowed fun s => .error (x s) :=
  fun s m _ => Or.inl ⟨x s, rfl, congrArg Except.error (hx s m)⟩

/-- A read of the buffer, and what follows it. -/
theorem Windowed.read {α : Type} {r : State → Run α} {g : α → State → Run State}
    (hr : ∀ s m, Agree s m → r (s.setMem m) = r s) (hg : ∀ v, Windowed (g v)) :
    Windowed fun s => r s >>= fun v => g v s := by
  intro s m h
  show (∃ x, (r s >>= fun v => g v s) = _ ∧ (r (s.setMem m) >>= fun v => g v (s.setMem m)) = _) ∨
    ∃ t m', (r s >>= fun v => g v s) = _ ∧ (r (s.setMem m) >>= fun v => g v (s.setMem m)) = _ ∧ _
  rw [hr s m h]
  cases r s with
  | ok v => rw [run_ok_bind, run_ok_bind]; exact hg v s m h
  | error e => exact Or.inl ⟨e, rfl, rfl⟩

theorem Windowed.ite {p : State → Prop} {_ : ∀ s, Decidable (p s)} {f g : State → Run State}
    (hp : ∀ s m, p (s.setMem m) ↔ p s) (hf : Windowed f) (hg : Windowed g) :
    Windowed fun s => if p s then f s else g s := by
  intro s m h
  simp only [hp s m]
  split
  · exact hf s m h
  · exact hg s m h

/-! ### The access primitives -/

theorem bufBytes_agree (k n : Nat) (s m) (h : Agree s m) : bufBytes (s.setMem m) k n = bufBytes s k n := by
  induction n generalizing k with
  | zero => rfl
  | succ n ih =>
    rw [bufBytes, bufBytes, ih]
    refine congrArg (· >>= _) ?_
    show (bufCheck s k >>= fun a => .ok (memGet m a)) = (bufCheck s k >>= fun a => .ok (memGet s.mem a))
    cases hk : bufCheck s k with
    | error e => rfl
    | ok a =>
      obtain ⟨rfl, hc, -⟩ := bufCheck_inv hk
      rw [run_ok_bind, run_ok_bind, h.same k hc]

theorem memRead_agree (k n : Nat) (s m) (h : Agree s m) : memRead (s.setMem m) k n = memRead s k n := by
  rw [memRead, memRead, bufBytes_agree k n s m h]

theorem windowed_bufWriteByte (k : Nat) (b : Byte) : Windowed fun s => bufWriteByte s k b := by
  intro s m h
  cases hk : bufCheck s k with
  | error e =>
    have hk' : bufCheck (s.setMem m) k = .error e := hk
    exact Or.inl ⟨e, by simp only [bufWriteByte, hk, run_error_bind],
      by simp only [bufWriteByte, hk', run_error_bind]⟩
  | ok a =>
    have hk' : bufCheck (s.setMem m) k = .ok a := hk
    obtain ⟨-, -, ha⟩ := bufCheck_inv hk
    obtain ⟨rfl, -, -⟩ := bufCheck_inv hk
    refine Or.inr ⟨s.setMem (memPut s.mem _ b), memPut m _ b, by simp only [bufWriteByte, hk, run_ok_bind],
      by simp only [bufWriteByte, hk', run_ok_bind, State.setMem_setMem, State.setMem_mem],
      ⟨memWf_memPut h.wf ha b, memWf_memPut h.wf' ha b, fun j hj => ?_⟩, rfl, rfl⟩
    rw [State.setMem_mem, memGet_memPut h.wf, memGet_memPut h.wf']
    exact if_congr Iff.rfl rfl (h.same j hj)

theorem windowed_bufStore (l : List Byte) : ∀ k, Windowed fun s => bufStore s k l := by
  induction l with
  | nil => exact fun _ => Windowed.upd ⟨fun _ _ => rfl, fun _ => rfl, fun _ => rfl, fun _ => rfl⟩
  | cons b bs ih => exact fun k => Windowed.bind (f := fun s => bufWriteByte s k b) (windowed_bufWriteByte k b) (ih (k + 1))

theorem windowed_memWrite (k n : Nat) (v : State → Nat) (hv : ∀ s m, v (s.setMem m) = v s) :
    Windowed fun s => memWrite s k n (v s) := by
  intro s m h
  simp only [hv s m]
  exact windowed_bufStore (leBytes n (v s)) k s m h

/-- A store, then the rest. -/
theorem Windowed.write (k n : Nat) (v : State → Nat) {g : State → Run State} (hv : ∀ s m, v (s.setMem m) = v s)
    (hg : Windowed g) : Windowed fun s => memWrite s k n (v s) >>= g :=
  Windowed.bind (windowed_memWrite k n v hv) hg

/-! ### The operations -/

theorem windowed_storeHeaders : Windowed storeHeaders := by
  refine Windowed.write 0 1 (fun s => s.config.startMarker.toNat) (fun _ _ => rfl) ?_
  refine Windowed.write 1 1 (fun _ => 0x00) (fun _ _ => rfl) ?_
  refine Windowed.write 2 4 (fun s => s.ch.srcAddr.toNat) (fun _ _ => rfl) ?_
  refine Windowed.write 6 4 (fun s => s.ch.dstAddr.toNat) (fun _ _ => rfl) ?_
  refine Windowed.write 10 2 (fun s => s.ch.dataLen.toNat % 65536) (fun _ _ => rfl) ?_
  refine Windowed.read (r := fun s => bufBytes s 1 11) (bufBytes_agree 1 11) fun range => ?_
  refine Windowed.write 12 2 (fun _ => (cksum range).toNat) (fun _ _ => rfl) ?_
  refine Windowed.write 14 1 (fun _ => 0x00) (fun _ _ => rfl) ?_
  exact windowed_memWrite 15 1 (fun s => s.ch.serviceId.toNat) (fun _ _ => rfl)

theorem windowed_storeTrailer : Windowed storeTrailer := by
  refine Windowed.ite (p := fun s => 14 + s.ch.dataLen.toNat + 2 > s.ch.capacity.toNat) (fun _ _ => Iff.rfl)
    (Windowed.upd ⟨fun _ _ => rfl, fun _ => rfl, fun _ => rfl, fun _ => rfl⟩) ?_
  refine Windowed.read (r := fun s => bufBytes s 14 s.ch.dataLen.toNat) (fun s m h => bufBytes_agree _ _ s m h)
    fun payload => ?_
  intro s m h
  exact windowed_memWrite (14 + s.ch.dataLen.toNat) 2 (fun _ => (cksum payload).toNat) (fun _ _ => rfl) s m h

theorem windowed_encodeRequestOp : Windowed encodeRequestOp :=
  Windowed.bind windowed_storeHeaders (Windowed.bind windowed_storeTrailer
    (Windowed.upd ⟨fun _ _ => rfl, fun _ => rfl, fun _ => rfl, fun _ => rfl⟩))

theorem windowed_writePropHeader : Windowed writePropHeader := by
  refine Windowed.write 16 2 (fun s => s.ch.objType.toNat) (fun _ _ => rfl) ?_
  refine Windowed.write 18 4 (fun s => s.ch.objId.toNat) (fun _ _ => rfl) ?_
  exact windowed_memWrite 22 2 (fun s => s.ch.propId.toNat) (fun _ _ => rfl)

theorem windowed_readPropHeader : Windowed readPropHeader := by
  refine Windowed.read (memRead_agree 16 2) fun otype => ?_
  refine Windowed.read (memRead_agree 18 4) fun oid => ?_
  refine Windowed.read (memRead_agree 22 2) fun pid => ?_
  exact Windowed.upd ⟨fun _ _ => rfl, fun _ => rfl, fun _ => rfl, fun _ => rfl⟩

theorem windowed_encodeReadOp : Windowed encodeReadOp :=
  Windowed.update
    (u := fun s => s.setCh { s.ch with serviceId := Config.serviceRead, valueLen := 0, dataLen := 10 })
    ⟨fun _ _ => rfl, fun _ => rfl, fun _ => rfl, fun _ => rfl⟩ windowed_writePropHeader

theorem windowed_encodeWriteOp : Windowed encodeWriteOp :=
  Windowed.ite (p := fun s => 10 + s.ch.valueLen.toNat < 4294967296) (fun _ _ => Iff.rfl)
    (Windowed.update
      (u := fun s => s.setCh { s.ch with serviceId := Config.serviceWrite, dataLen := 10 + s.ch.valueLen })
      ⟨fun _ _ => rfl, fun _ => rfl, fun _ => rfl, fun _ => rfl⟩ windowed_writePropHeader)
    (Windowed.error (fun s => .refuse (.dataLenOverflow s.ch.valueLen)) fun _ _ => rfl)

theorem windowed_ckRangeOp : Windowed ckRangeOp :=
  Windowed.read (r := fun s => bufBytes s (rangeOffset s.ch) (rangeLength s.ch))
    (fun s m h => bufBytes_agree _ _ s m h) fun _ =>
      Windowed.upd ⟨fun _ _ => rfl, fun _ => rfl, fun _ => rfl, fun _ => rfl⟩

theorem windowed_decodeFrameHeaderOp : Windowed decodeFrameHeaderOp := by
  rw [funext decodeFrameHeaderOp_reads]
  refine Windowed.read (memRead_agree 1 1) fun f => ?_
  refine Windowed.read (memRead_agree 0 1) fun marker => ?_
  refine Windowed.read (memRead_agree 2 4) fun src => ?_
  refine Windowed.read (memRead_agree 6 4) fun dst => ?_
  refine Windowed.read (memRead_agree 10 2) fun len => ?_
  refine Windowed.read (bufBytes_agree 1 11) fun range => ?_
  refine Windowed.read (memRead_agree 12 2) fun sum => ?_
  simp only [recordIf_eq, setPhase, setFrameFlags, setHeaderFields, State.setCh_setCh, State.setCh_ch,
    State.setCh_config]
  exact Windowed.upd ⟨fun _ _ => rfl, fun _ => rfl, fun _ => rfl, fun _ => rfl⟩

theorem windowed_decodeFrameDataOp : Windowed decodeFrameDataOp := by
  rw [funext decodeFrameDataOp_reads]
  refine Windowed.ite (p := fun s => s.ch.lastError ≠ 0) (fun _ _ => Iff.rfl)
    (Windowed.upd (u := fun s => s) ⟨fun _ _ => rfl, fun _ => rfl, fun _ => rfl, fun _ => rfl⟩) ?_
  refine Windowed.read (r := fun s => bufBytes s 14 s.ch.dataLen.toNat) (fun s m h => bufBytes_agree _ _ s m h)
    fun payload => ?_
  refine Windowed.read (r := fun s => memRead s (14 + s.ch.dataLen.toNat) 2) (fun s m h => memRead_agree _ _ s m h)
    fun sum => ?_
  refine Windowed.read (memRead_agree 14 1) fun f => ?_
  refine Windowed.read (memRead_agree 15 1) fun sid => ?_
  simp only [recordIf_eq, setPhase, setServiceFlags, setServiceId, State.setCh_setCh, State.setCh_ch,
    State.setCh_config]
  exact Windowed.upd ⟨fun _ _ => rfl, fun _ => rfl, fun _ => rfl, fun _ => rfl⟩

theorem windowed_errorResponse (n : Int) : Windowed fun s => errorResponse s n := by
  refine Windowed.ite (p := fun _ => n = 2) (fun _ _ => Iff.rfl) ?_
    (Windowed.upd ⟨fun _ _ => rfl, fun _ => rfl, fun _ => rfl, fun _ => rfl⟩)
  refine Windowed.bind windowed_readPropHeader ?_
  refine Windowed.read (memRead_agree 24 2) fun code => ?_
  exact Windowed.upd ⟨fun _ _ => rfl, fun _ => rfl, fun _ => rfl, fun _ => rfl⟩

theorem windowed_decodeReadPropertyOp : Windowed decodeReadPropertyOp :=
  Windowed.ite (p := fun s => s.ch.sfError = 1) (fun _ _ => Iff.rfl)
    (fun s m h => windowed_errorResponse (impliedLength s.ch) s m h)
    (Windowed.ite (p := fun s => 0 ≤ impliedLength s.ch ∧ impliedLength s.ch ≤ valueMaxInt s.ch)
      (fun _ _ => Iff.rfl)
      (Windowed.update (u := fun s => setValueLen s (BitVec.ofInt 32 (impliedLength s.ch)))
        ⟨fun _ _ => rfl, fun _ => rfl, fun _ => rfl, fun _ => rfl⟩ windowed_readPropHeader)
      (Windowed.upd ⟨fun _ _ => rfl, fun _ => rfl, fun _ => rfl, fun _ => rfl⟩))

theorem windowed_decodeWritePropertyOp : Windowed decodeWritePropertyOp :=
  Windowed.ite (p := fun s => s.ch.sfError = 1) (fun _ _ => Iff.rfl)
    (fun s m h => windowed_errorResponse (impliedLength s.ch) s m h)
    (Windowed.ite
      (p := fun s => 0 ≤ impliedLength s.ch ∧ impliedLength s.ch ≤ valueMaxInt s.ch ∧ impliedLength s.ch = 0)
      (fun _ _ => Iff.rfl)
      (Windowed.update (u := fun s => setValueLen s 0) ⟨fun _ _ => rfl, fun _ => rfl, fun _ => rfl, fun _ => rfl⟩
        windowed_readPropHeader)
      (Windowed.upd ⟨fun _ _ => rfl, fun _ => rfl, fun _ => rfl, fun _ => rfl⟩))

end Sys2Proof.Machine
end

