-- ==== Sys2Proof/Tests/Slice0.lean ====
section
/-! SUPPORT. The model's own tests: ill-formed terms refused, words written out from the spec's encodings decoded, one
step per vector of spec/95_test_vectors.md, and for each statement with hypotheses a witness that meets them. -/

namespace Sys2Proof.Tests

-- One theorem at a time: each kernel evaluation under way holds memory of its own.
set_option Elab.async false

open Sys2Proof Sys2Proof.Machine

/-! ### Helpers -/

/-- A channel bound to the buffer at 0x2000 with `cap` bytes, every other register as after reset. -/
def chan (cap : BitVec 32) : Channel :=
  { Channel.reset with bufBase := 0x2000, capacity := cap, valueMax := valueMaxOf cap }

/-- A machine whose selected channel is `c` and whose memory holds `bytes` from 0x2000. -/
def mach (c : Channel) (bytes : List Byte) : State :=
  (State.reset.setCh c).setMem (memStoreBytes [] 0x2000 bytes)

/-- The outcome is a next state in which `p` holds. -/
def gives (o : Host.Outcome State Fault Refusal) (p : State → Bool) : Bool :=
  match o with
  | .next t => p t
  | .fault _ => false
  | .refused _ => false

/-- The outcome is this refusal. -/
def refuses (o : Host.Outcome State Fault Refusal) (r : Refusal) : Bool :=
  match o with
  | .next _ => false
  | .fault _ => false
  | .refused r' => decide (r' = r)

/-- A checked outcome, as the equation that the statements' hypotheses have. -/
theorem next_of {o : Host.Outcome State Fault Refusal} {p : State → Bool} (h : gives o p = true) :
    ∃ t, o = .next t ∧ p t = true := by
  cases o with
  | next t => exact ⟨t, rfl, h⟩
  | fault r => cases h
  | refused r => cases h

/-- The frame of V-FE-1 and program P1: a read request. -/
def frameP1 : List Byte :=
  [0xAA, 0x00, 0x01, 0x00, 0x00, 0x00, 0x65, 0x00, 0x00, 0x00, 0x0A, 0x00, 0x6F, 0x71, 0x00, 0x01, 0x02, 0x00,
   0xB8, 0x0B, 0x00, 0x00, 0x05, 0x00, 0xCA, 0xA0]

/-- The frame of V-PE-5 and program P2: a write request. -/
def frameP2 : List Byte :=
  [0xAA, 0x00, 0x01, 0x00, 0x00, 0x00, 0x65, 0x00, 0x00, 0x00, 0x0E, 0x00, 0x73, 0x79, 0x00, 0x02, 0x02, 0x00,
   0x72, 0x04, 0x00, 0x00, 0x05, 0x00, 0x00, 0x00, 0x40, 0x41, 0xFF, 0x9B]

/-- The frame of V-PD-1: a read response with four value bytes. -/
def framePD1 : List Byte :=
  [0xAA, 0x05, 0x65, 0x00, 0x00, 0x00, 0x01, 0x00, 0x00, 0x00, 0x0E, 0x00, 0x78, 0x40, 0x02, 0x01, 0x02, 0x00,
   0xB8, 0x0B, 0x00, 0x00, 0x05, 0x00, 0x00, 0x00, 0x40, 0x41, 0x4D, 0xA5]

/-- The frame of V-FD-1: a write acknowledgment. -/
def frameFD1 : List Byte :=
  [0xAA, 0x00, 0x65, 0x00, 0x00, 0x00, 0x01, 0x00, 0x00, 0x00, 0x0A, 0x00, 0x6F, 0x01, 0x02, 0x02, 0x02, 0x00,
   0x72, 0x04, 0x00, 0x00, 0x05, 0x00, 0x80, 0xF6]

/-- The frame of V-PD-4: a write response with one value byte. -/
def framePD4 : List Byte :=
  [0xAA, 0x00, 0x65, 0x00, 0x00, 0x00, 0x01, 0x00, 0x00, 0x00, 0x0B, 0x00, 0x70, 0x03, 0x02, 0x02, 0x02, 0x00,
   0x72, 0x04, 0x00, 0x00, 0x05, 0x00, 0x7F, 0xFF, 0xF5]

/-- The frame of V-PD-5: an error response with the code 0x0022. -/
def framePD5 : List Byte :=
  [0xAA, 0x00, 0x65, 0x00, 0x00, 0x00, 0x01, 0x00, 0x00, 0x00, 0x0C, 0x00, 0x71, 0x05, 0x03, 0x01, 0x02, 0x00,
   0xB8, 0x0B, 0x00, 0x00, 0x05, 0x00, 0x22, 0x00, 0xEF, 0x9C]

/-- The frame of V-PD-6: an error response of three bytes. -/
def framePD6 : List Byte :=
  [0xAA, 0x00, 0x65, 0x00, 0x00, 0x00, 0x01, 0x00, 0x00, 0x00, 0x0D, 0x00, 0x72, 0x07, 0x03, 0x01, 0x02, 0x00,
   0xB8, 0x0B, 0x00, 0x00, 0x05, 0x00, 0x22, 0x00, 0x00, 0xEF, 0x8B]

/-- The frame of V-PD-7: an error response with the code 0x0000. -/
def framePD7 : List Byte :=
  [0xAA, 0x00, 0x65, 0x00, 0x00, 0x00, 0x01, 0x00, 0x00, 0x00, 0x0C, 0x00, 0x71, 0x05, 0x03, 0x01, 0x02, 0x00,
   0xB8, 0x0B, 0x00, 0x00, 0x05, 0x00, 0x00, 0x00, 0xCD, 0x58]

/-- The frame of V-PD-8: a response with a payload of five bytes. -/
def framePD8 : List Byte :=
  [0xAA, 0x00, 0x65, 0x00, 0x00, 0x00, 0x01, 0x00, 0x00, 0x00, 0x05, 0x00, 0x6A, 0xF7, 0x02, 0x01, 0x02, 0x00,
   0xB8, 0xBC, 0xC7]

/-! ### Ill-formed terms are refused -/

/-- A value one byte longer than the length field can tell (R250). -/
theorem test_wf_value_too_long :
    (Instr.frameWriteRequest 1 101 2 1138 5 (List.replicate 65526 0)).wf Config.default = false := by
  rw [Instr.wf, List.length_replicate]; decide

/-- A response without its service id byte. -/
theorem test_wf_response_too_short :
    (Instr.frameReadResponse (framePD1.take 15)).wf Config.default = false ∧
    (Instr.frameWriteResponse (frameFD1.take 15)).wf Config.default = false ∧
    (Instr.frameErrorResponse (framePD5.take 15)).wf Config.default = false := by decide +kernel

/-- A message under another shape's name. -/
theorem test_wf_wrong_shape :
    (Instr.frameReadResponse frameFD1).wf Config.default = false ∧
    (Instr.frameWriteResponse framePD5).wf Config.default = false ∧
    (Instr.frameErrorResponse framePD1).wf Config.default = false ∧
    (Instr.frameReadResponse frameP1).wf Config.default = false := by decide +kernel

/-! ### Decoding, from the spec's encodings (R110, R107, 95_test_vectors.md) -/

/-- The twelve command codes of R110. -/
theorem test_decode_codes :
    decode Config.default (.cmd 0x10) = .ok .ckInit ∧ decode Config.default (.cmd 0x11) = .ok .ckUpdate ∧
    decode Config.default (.cmd 0x12) = .ok .ckRange ∧ decode Config.default (.cmd 0x01) = .ok .frameInit ∧
    decode Config.default (.cmd 0x02) = .ok .encodeRequest ∧
    decode Config.default (.cmd 0x03) = .ok .decodeFrameHeader ∧
    decode Config.default (.cmd 0x04) = .ok .decodeFrameData ∧ decode Config.default (.cmd 0x08) = .ok .propInit ∧
    decode Config.default (.cmd 0x09) = .ok .encodeRead ∧ decode Config.default (.cmd 0x0A) = .ok .encodeWrite ∧
    decode Config.default (.cmd 0x0B) = .ok .decodeReadProperty ∧
    decode Config.default (.cmd 0x0C) = .ok .decodeWriteProperty :=
  ⟨rfl, rfl, rfl, rfl, rfl, rfl, rfl, rfl, rfl, rfl, rfl, rfl⟩

/-- FRAME_LENGTH is the read of register 0x13 (R110), and 0x13 is no command code (R112). -/
theorem test_decode_frame_length :
    decode Config.default (.regRead 0x13) = .ok .frameLength ∧
    decode Config.default (.cmd 0x13) = .error (.reservedCommand 0x13) := ⟨rfl, rfl⟩

/-- The read request of program P1. -/
theorem test_decode_read_request :
    (decode Config.default (.frame frameP1)).toOption = some (.frameReadRequest 1 101 2 3000 5) := by decide +kernel

/-- The write request of program P2. -/
theorem test_decode_write_request :
    (decode Config.default (.frame frameP2)).toOption =
      some (.frameWriteRequest 1 101 2 1138 5 [0x00, 0x00, 0x40, 0x41]) := by decide +kernel

/-- The same image cut short after two value bytes, and with a length field of 9: the model's choice (log 12). -/
theorem test_decode_write_request_length :
    (decode Config.default (.frame (frameP2.take 26))).toOption =
      some (.frameWriteRequest 1 101 2 1138 5 [0x00, 0x00]) ∧
    (decode Config.default (.frame (frameP2.set 10 0x09))).toOption =
      some (.frameWriteRequest 1 101 2 1138 5 []) := by decide +kernel

/-- The responses of V-PD-1, V-FD-1 and V-PD-5. -/
theorem test_decode_responses :
    (decode Config.default (.frame framePD1)).toOption = some (.frameReadResponse framePD1) ∧
    (decode Config.default (.frame frameFD1)).toOption = some (.frameWriteResponse frameFD1) ∧
    (decode Config.default (.frame framePD5)).toOption = some (.frameErrorResponse framePD5) := by decide +kernel

/-- The encoder builds the frames of V-FE-1 and V-PE-5. -/
theorem test_encode_requests :
    encode Config.default (.frameReadRequest 1 101 2 3000 5) = .frame frameP1 ∧
    encode Config.default (.frameWriteRequest 1 101 2 1138 5 [0x00, 0x00, 0x40, 0x41]) = .frame frameP2 := by
  decide +kernel

/-- What is no instruction is rejected by name: a reserved code (V-EX-6), a plain register read, a message cut short, a
message of none of the five shapes. -/
theorem test_decode_rejects :
    decode Config.default (.cmd 0x05) = .error (.reservedCommand 0x05) ∧
    decode Config.default (.regRead 0x05) = .error (.notAnOperation 0x05) ∧
    decode Config.default (.frame (frameP1.take 15)) = .error (.shortMessage 15) ∧
    decode Config.default (.frame (frameP1.take 23)) = .error (.shortMessage 23) ∧
    decode Config.default (.frame (frameP1.set 15 0x03)) = .error (.unknownShape 0x00 0x03) :=
  ⟨rfl, rfl, rfl, rfl, rfl⟩

/-- The rows of the opcode table, one per constructor. -/
def rows : List TableRow :=
  [Instr.ckInit, .ckUpdate, .ckRange, .frameInit, .encodeRequest, .decodeFrameHeader, .decodeFrameData, .frameLength,
   .propInit, .encodeRead, .encodeWrite, .decodeReadProperty, .decodeWriteProperty, .frameReadRequest 0 0 0 0 0,
   .frameWriteRequest 0 0 0 0 0 [], .frameReadResponse [], .frameWriteResponse [], .frameErrorResponse []].map Instr.row

/-- No two rows of the table overlap: in one format, two rows differ in a bit that both fix. -/
theorem test_rows_do_not_overlap :
    rows.Pairwise fun r q => r.format ≠ q.format ∨ r.value &&& (r.mask &&& q.mask) ≠ q.value &&& (r.mask &&& q.mask) := by
  decide +kernel

/-! ### One step each, from the vectors of 95_test_vectors.md -/

/-- V-CU-1. -/
theorem test_ck_init :
    gives (exec .ckInit (mach { chan 64 with ckA := 0x12, ckB := 0x34 } []))
      (fun t => t.ch.ckA = 0xFF ∧ t.ch.ckB = 0x00 ∧ ckSum t.ch = 0x00FF) = true := by decide +kernel

/-- V-CU-3: A wraps, and B takes the new A. -/
theorem test_ck_update_wraps :
    gives (exec .ckUpdate (mach { chan 64 with ckA := 0xFF, ckB := 0x10, opA := 0x01 } []))
      (fun t => t.ch.ckA = 0x00 ∧ t.ch.ckB = 0x10) = true := by decide +kernel

/-- V-CU-4: only bits 7:0 of `OP_A` count. -/
theorem test_ck_update_low_byte :
    gives (exec .ckUpdate (mach { chan 64 with ckA := 0xFF, ckB := 0x00, opA := 0x12345600 } []))
      (fun t => t.ch.ckA = 0xFF ∧ t.ch.ckB = 0xFF ∧ t.ch.opA = 0x12345600) = true := by decide +kernel

/-- V-CU-5: source vector T2, over old accumulators. -/
theorem test_ck_range :
    gives (exec .ckRange (mach { chan 64 with ckA := 0x55, ckB := 0x66, opA := 1, opB := 11 } frameP1))
      (fun t => t.ch.ckA = 0x6F ∧ t.ch.ckB = 0x71) = true := by decide +kernel

/-- V-CU-7: refused past the buffer; V-CU-6: length 0 is in bounds. -/
theorem test_ck_range_bounds :
    refuses (exec .ckRange (mach { chan 64 with opA := 60, opB := 5 } [])) (.outOfBuffer 64) = true ∧
    gives (exec .ckRange (mach { chan 64 with opA := 64, opB := 0 } [])) (fun t => ckSum t.ch = 0x00FF) = true := by
  decide +kernel

/-- V-FI-2: the error cleared, `VALUE_MAX` negative, PHASE new. -/
theorem test_frame_init :
    gives (exec .frameInit (mach { chan 64 with opA := 0x2000, opB := 0, lastError := 0x0086, phase := .encoded } []))
      (fun t => t.ch.capacity = 0 ∧ t.ch.lastError = 0 ∧ t.ch.valueMax.toInt = -24 ∧ t.ch.phase = .new) = true := by
  decide +kernel

/-- V-FI-3 and V-FI-4: a buffer up to the top of `MEM`, and one past it. -/
theorem test_frame_init_top :
    gives (exec .frameInit (mach { chan 64 with opA := 0xFFFFFFF0, opB := 0x10 } []))
      (fun t => t.ch.bufBase = 0xFFFFFFF0) = true ∧
    refuses (exec .frameInit (mach { chan 64 with opA := 0xFFFFFFF0, opB := 0x11 } []))
      (.bufferPastTop 0xFFFFFFF0 0x11) = true := by decide +kernel

/-- V-FE-4: the smallest legal frame. -/
theorem test_encode_request :
    gives (exec .encodeRequest (mach { chan 18 with srcAddr := 1, dstAddr := 2, serviceId := 1, dataLen := 2 }
        (List.replicate 18 0xEE)))
      (fun t => bufList t 0 18 = [0xAA, 0x00, 0x01, 0x00, 0x00, 0x00, 0x02, 0x00, 0x00, 0x00, 0x02, 0x00, 0x04, 0x0F,
        0x00, 0x01, 0x00, 0xFF] ∧ t.ch.lastError = 0 ∧ t.ch.phase = .encoded) = true := by decide +kernel

/-- V-FE-3: one byte too few; no checksum is written. -/
theorem test_encode_request_too_small :
    gives (exec .encodeRequest (mach { chan 25 with srcAddr := 1, dstAddr := 101, serviceId := 1, dataLen := 10 }
        (List.replicate 25 0xEE)))
      (fun t => bufList t 0 16 = frameP1.take 16 ∧ bufAt t 24 = 0xEE ∧ t.ch.lastError = 0x0086) = true := by
  decide +kernel

/-- V-FD-6's header: every flag set, the addresses little-endian. -/
theorem test_decode_header :
    gives (exec .decodeFrameHeader (mach (chan 64)
        [0xAA, 0xFF, 0x78, 0x56, 0x34, 0x12, 0xF0, 0xDE, 0xBC, 0x9A, 0x0B, 0x00, 0x41, 0x88]))
      (fun t => t.ch.srcAddr = 0x12345678 ∧ t.ch.dstAddr = 0x9ABCDEF0 ∧ t.ch.dataLen = 11 ∧ t.ch.ffReserved = 7 ∧
        t.ch.ffDatalogFile = 1 ∧ t.ch.lastError = 0 ∧ t.ch.phase = .headerDecoded) = true := by decide +kernel

/-- V-FH-9 and V-FH-7: a flags byte that the checksum does not cover any more, and one that it does. -/
theorem test_decode_header_flags :
    gives (exec .decodeFrameHeader (mach (chan 64) ((frameFD1.take 14).set 1 0x01)))
      (fun t => t.ch.ffMsgPending = 1 ∧ t.ch.lastError = 0x0001) = true ∧
    gives (exec .decodeFrameHeader (mach (chan 64) (framePD1.take 14)))
      (fun t => t.ch.ffMsgPending = 1 ∧ t.ch.ffSdPresent = 1 ∧ t.ch.ffRccReset = 0 ∧ t.ch.ffSdFull = 0 ∧
        t.ch.ffDatalogFile = 0 ∧ t.ch.lastError = 0) = true := by decide +kernel

/-- V-FD-1. -/
theorem test_decode_data :
    gives (exec .decodeFrameData (mach { chan 64 with dataLen := 10 } frameFD1))
      (fun t => t.ch.sfResponse = 1 ∧ t.ch.sfError = 0 ∧ t.ch.sfReserved = 0 ∧ t.ch.serviceId = 2 ∧
        t.ch.lastError = 0) = true := by decide +kernel

/-- V-FD-3 and V-FD-8: a request is no response; a length that leaves the buffer is refused. -/
theorem test_decode_data_bad :
    gives (exec .decodeFrameData (mach { chan 64 with dataLen := 10 } frameP1))
      (fun t => t.ch.sfResponse = 0 ∧ t.ch.serviceId = 1 ∧ t.ch.lastError = 0x0001) = true ∧
    refuses (exec .decodeFrameData (mach { chan 64 with dataLen := 60 } frameFD1)) (.outOfBuffer 64) = true := by
  decide +kernel

/-- T9: `DATA_LEN = 0xFFFFFFFF` is not reduced either. -/
theorem test_frame_length :
    gives (exec .frameLength (mach { chan 64 with dataLen := 10 } [])) (fun t => t.reply = .value 26) = true ∧
    gives (exec .frameLength (mach { chan 64 with dataLen := 0xFFFFFFFF } []))
      (fun t => t.reply = .value 0x10000000F) = true := by decide +kernel

/-- V-PI-2 and V-PI-3. -/
theorem test_prop_init :
    gives (exec .propInit State.reset) (fun t => t.ch.valueMax.toInt = -24) = true ∧
    gives (exec .propInit (mach { chan 24 with valueMax := 5 } [])) (fun t => t.ch.valueMax = 0) = true := by
  decide +kernel

/-- V-PE-1. -/
theorem test_encode_read :
    gives (exec .encodeRead (mach { chan 64 with objType := Config.objParameter, objId := 3000, propId := 5, valueLen := 7 }
      []))
      (fun t => bufList t 16 8 = [0x02, 0x00, 0xB8, 0x0B, 0x00, 0x00, 0x05, 0x00] ∧ t.ch.serviceId = 1 ∧
        t.ch.dataLen = 10 ∧ t.ch.valueLen = 0 ∧ bufList t 0 16 = List.replicate 16 0) = true := by decide +kernel

/-- V-PE-7 and V-RS-2: refused where the header does not fit. -/
theorem test_encode_read_refused :
    refuses (exec .encodeRead (mach (chan 23) [])) (.outOfBuffer 23) = true ∧
    refuses (exec .encodeRead State.reset) (.outOfBuffer 16) = true := by decide +kernel

/-- V-PE-2. -/
theorem test_encode_write :
    gives (exec .encodeWrite (mach { chan 64 with objType := 2, objId := 1138, propId := 5, valueLen := 4 }
        (List.replicate 24 0 ++ [0x00, 0x00, 0x40, 0x41])))
      (fun t => bufList t 16 12 = [0x02, 0x00, 0x72, 0x04, 0x00, 0x00, 0x05, 0x00, 0x00, 0x00, 0x40, 0x41] ∧
        t.ch.serviceId = 2 ∧ t.ch.dataLen = 14 ∧ t.ch.valueLen = 4) = true := by decide +kernel

/-- V-PE-8: the last length that is not refused, and the first that is. -/
theorem test_encode_write_length :
    gives (exec .encodeWrite (mach { chan 64 with valueLen := 0xFFFFFFF5 } []))
      (fun t => t.ch.dataLen = 0xFFFFFFFF) = true ∧
    refuses (exec .encodeWrite (mach { chan 64 with valueLen := 0xFFFFFFF6 } []))
      (.dataLenOverflow 0xFFFFFFF6) = true := by decide +kernel

/-- V-PD-12: one byte more than `VALUE_MAX`, and exactly `VALUE_MAX`. -/
theorem test_decode_read_property_limit :
    gives (exec .decodeReadProperty (mach { chan 64 with dataLen := 51, valueLen := 9 } framePD1))
      (fun t => t.ch.valueLen = 0 ∧ t.ch.lastError = 0x0086 ∧ t.ch.objId = 0) = true ∧
    gives (exec .decodeReadProperty (mach { chan 64 with dataLen := 50, valueLen := 9 } framePD1))
      (fun t => t.ch.valueLen = 40 ∧ t.ch.lastError = 0 ∧ t.ch.objId = 3000) = true := by decide +kernel

/-- V-PD-5 and V-PD-7: the code as received, 0 among them. -/
theorem test_decode_read_property_error :
    gives (exec .decodeReadProperty (mach { chan 64 with dataLen := 12, sfError := 1 } framePD5))
      (fun t => t.ch.lastError = 0x0022 ∧ t.ch.objType = 2 ∧ t.ch.objId = 3000 ∧ t.ch.propId = 5 ∧
        t.ch.sfError = 1) = true ∧
    gives (exec .decodeReadProperty (mach { chan 64 with dataLen := 12, sfError := 1, lastError := 7 } framePD7))
      (fun t => t.ch.lastError = 0) = true := by decide +kernel

/-- V-PD-3 and V-PD-4: only an empty value acknowledges a write. -/
theorem test_decode_write_property :
    gives (exec .decodeWriteProperty (mach { chan 64 with dataLen := 10, valueLen := 9 } frameFD1))
      (fun t => t.ch.valueLen = 0 ∧ t.ch.objType = 2 ∧ t.ch.objId = 1138 ∧ t.ch.propId = 5 ∧ t.ch.lastError = 0) = true ∧
    gives (exec .decodeWriteProperty (mach { chan 64 with dataLen := 11, valueLen := 9 } framePD4))
      (fun t => t.ch.valueLen = 0 ∧ t.ch.lastError = 0x0086 ∧ t.ch.objId = 0) = true := by decide +kernel

/-- V-PD-6 and V-PD-9: an error response whose length is not 2, a negative one among them. -/
theorem test_decode_write_property_error :
    gives (exec .decodeWriteProperty (mach { chan 64 with dataLen := 13, sfError := 1, valueLen := 9 } framePD6))
      (fun t => t.ch.valueLen = 0 ∧ t.ch.lastError = 0x0001 ∧ t.ch.objId = 0) = true ∧
    gives (exec .decodeWriteProperty (mach { chan 64 with dataLen := 5, sfError := 1, valueLen := 9 } []))
      (fun t => t.ch.valueLen = 0 ∧ t.ch.lastError = 0x0001) = true := by decide +kernel

/-- Program P1, as its pseudo-operation. -/
theorem test_read_request :
    gives (exec (.frameReadRequest 1 101 2 3000 5) (mach (chan 64) []))
      (fun t => bufList t 0 26 = frameP1 ∧ t.ch.serviceId = 1 ∧ t.ch.dataLen = 10 ∧ t.ch.lastError = 0) = true := by
  decide +kernel

/-- V-PE-5 and V-PE-6: an exact fit, and one byte too few. -/
theorem test_write_request :
    gives (exec (.frameWriteRequest 1 101 2 1138 5 [0x00, 0x00, 0x40, 0x41]) (mach (chan 30) []))
      (fun t => bufList t 0 30 = frameP2 ∧ t.ch.valueLen = 4 ∧ t.ch.lastError = 0) = true ∧
    gives (exec (.frameWriteRequest 1 101 2 1138 5 [0x00, 0x00, 0x40, 0x41]) (mach (chan 29) (List.replicate 29 0xEE)))
      (fun t => bufList t 0 29 = frameP2.take 28 ++ [0xEE] ∧ t.ch.lastError = 0x0086) = true := by decide +kernel

/-- Program P3. -/
theorem test_read_response :
    gives (exec (.frameReadResponse framePD1) (mach (chan 64) []))
      (fun t => t.ch.ffMsgPending = 1 ∧ t.ch.ffSdPresent = 1 ∧ t.ch.srcAddr = 101 ∧ t.ch.dstAddr = 1 ∧
        t.ch.valueLen = 4 ∧ t.ch.objId = 3000 ∧ bufList t 24 4 = [0x00, 0x00, 0x40, 0x41] ∧ t.ch.lastError = 0) = true := by
  decide +kernel

/-- Program P4: a stale error blocks the next response. -/
theorem test_read_response_stale_error :
    gives (exec (.frameReadResponse framePD1) (mach { chan 64 with lastError := 0x0001, serviceId := 9 } []))
      (fun t => t.ch.dataLen = 14 ∧ t.ch.serviceId = 9 ∧ t.ch.lastError = 0x0001 ∧ bufList t 14 16 = List.replicate 16 0) = true := by
  decide +kernel

/-- Program P2, steps 8 to 14, and V-PD-4. -/
theorem test_write_response :
    gives (exec (.frameWriteResponse frameFD1) (mach (chan 64) []))
      (fun t => t.ch.valueLen = 0 ∧ t.ch.objId = 1138 ∧ t.ch.lastError = 0 ∧ t.ch.phase = .dataDecoded) = true ∧
    gives (exec (.frameWriteResponse framePD4) (mach (chan 64) []))
      (fun t => t.ch.valueLen = 0 ∧ t.ch.lastError = 0x0086) = true := by decide +kernel

/-- Program P3's variant, and V-PD-6. -/
theorem test_error_response :
    gives (exec (.frameErrorResponse framePD5) (mach (chan 64) []))
      (fun t => t.ch.sfError = 1 ∧ t.ch.objId = 3000 ∧ t.ch.lastError = 0x0022) = true ∧
    gives (exec (.frameErrorResponse framePD6) (mach (chan 64) []))
      (fun t => t.ch.sfError = 1 ∧ t.ch.objId = 0 ∧ t.ch.lastError = 0x0001) = true := by decide +kernel

/-- V-EX-6: a write of a reserved code to `CMD` is refused. -/
theorem test_step_reserved :
    refuses (step (atPort State.reset (.writeReg 0x00 0x05))) (.reservedCommand 0x05) = true := by decide +kernel

/-- V-RS-1: what a host reads after reset. -/
theorem test_step_reset_reads :
    gives (step (atPort State.reset (.readReg 0x05))) (fun t => t.reply = .value 0) = true ∧
    gives (step (atPort State.reset (.readReg 0x04))) (fun t => t.reply = .value 0) = true ∧
    gives (step (atPort State.reset (.readReg 0x19))) (fun t => t.reply = .value (-24)) = true ∧
    gives (step (atPort State.reset (.readReg 0x1C))) (fun t => t.reply = .value 0x00FF) = true := by decide +kernel

/-! ### The hypotheses of the statements can be met

One witness per statement with hypotheses, at a boundary value of each clause. -/

/-- A write request with an empty value, and a response of exactly sixteen bytes, are well formed. -/
theorem witness_DecodeOfEncode :
    (Instr.frameWriteRequest 1 101 2 1138 5 []).wf Config.default = true ∧
    (Instr.frameReadResponse (framePD1.take 16)).wf Config.default = true := by decide +kernel

/-- The longest value that is well formed. -/
theorem witness_DecodeOfEncode_longest :
    (Instr.frameWriteRequest 1 101 2 1138 5 (List.replicate 65525 0)).wf Config.default = true := by
  rw [Instr.wf, List.length_replicate]; decide

/-- A code, a register read and a response decode. -/
theorem witness_EncodeOfDecode :
    decode Config.default (.cmd 0x01) = .ok .frameInit ∧ (Packet.cmd 0x01).format ≠ "FRAME" ∧
    decode Config.default (.regRead 0x13) = .ok .frameLength ∧ (Packet.regRead 0x13).format ≠ "FRAME" ∧
    (decode Config.default (.frame framePD1)).toOption = some (.frameReadResponse framePD1) ∧
    sflagsByte framePD1 ≠ 0 := by decide +kernel

/-- The ends of the reserved ranges, and the codes beside them. -/
theorem witness_ReservedCommandsRefused :
    (∀ code ∈ ([0x00, 0x05, 0x07, 0x0D, 0x0F, 0x13, 0xFF] : List (BitVec 8)),
      code.toNat = 0x00 ∨ (0x05 ≤ code.toNat ∧ code.toNat ≤ 0x07) ∨ (0x0D ≤ code.toNat ∧ code.toNat ≤ 0x0F) ∨
        0x13 ≤ code.toNat) ∧
    (∀ code ∈ ([0x01, 0x04, 0x08, 0x0C, 0x10, 0x12] : List (BitVec 8)),
      ¬(code.toNat = 0x00 ∨ (0x05 ≤ code.toNat ∧ code.toNat ≤ 0x07) ∨ (0x0D ≤ code.toNat ∧ code.toNat ≤ 0x0F) ∨
        0x13 ≤ code.toNat)) := by decide

/-- The default layouts are legal, and so is one with two bits exchanged. -/
theorem witness_FlagBytesUnpackBijectively :
    FFlagsLayout.default.positions.Nodup ∧ SFlagsLayout.default.positions.Nodup ∧
    ({ FFlagsLayout.default with msgPending := 7, reserved2 := 0 } : FFlagsLayout).positions.Nodup ∧
    ({ SFlagsLayout.default with error := 7, reserved5 := 0 } : SFlagsLayout).positions.Nodup := by decide

/-- Two different bytes. -/
theorem witness_CksumSeesSingleByteChange : (0x00 : Byte) ≠ 0x01 := by decide

/-- CK_INIT completes. -/
theorem witness_CkInitResult : ∃ t, exec .ckInit State.reset = .next t := ⟨_, rfl⟩

/-- A range that ends with the buffer (V-CU-8), one of length 0 outside it (V-CU-6), one a byte too long (V-CU-7). -/
theorem witness_CkRangeResult :
    let s := mach { chan 64 with opA := 60, opB := 4 } []
    let z := mach { chan 64 with opA := 65, opB := 0 } []
    let r := mach { chan 64 with opA := 60, opB := 5 } []
    (s.ch.bound ∧ s.ch.opA.toNat + s.ch.opB.toNat = s.ch.capacity.toNat) ∧
    (z.ch.bound ∧ z.ch.opB = 0 ∧ z.ch.capacity.toNat < z.ch.opA.toNat) ∧
    (r.ch.bound ∧ r.ch.opB ≠ 0 ∧ r.ch.capacity.toNat + 1 = r.ch.opA.toNat + r.ch.opB.toNat) := by decide +kernel

/-- A buffer up to the top of `MEM` (V-FI-3). -/
theorem witness_FrameInitResult :
    let s := mach { chan 64 with opA := 0xFFFFFFF0, opB := 0x10 } []
    s.ch.opA.toNat + s.ch.opB.toNat = 4294967296 := by decide +kernel

/-- An exact fit (V-FE-2), and the least capacity with an empty payload. -/
theorem witness_EncodeRequestResult :
    let s := mach { chan 26 with dataLen := 10 } frameP1
    let z := mach { chan 16 with dataLen := 0 } []
    (memWf s.mem ∧ s.ch.bound ∧ 16 ≤ s.ch.capacity.toNat ∧ 16 + s.ch.dataLen.toNat = s.ch.capacity.toNat) ∧
    (memWf z.mem ∧ z.ch.bound ∧ 16 = z.ch.capacity.toNat ∧ 16 + z.ch.dataLen.toNat = z.ch.capacity.toNat) := by
  decide +kernel

/-- A frame one byte too long (V-FE-3), and the least capacity. -/
theorem witness_EncodeRequestTooSmall :
    let s := mach { chan 25 with dataLen := 10 } frameP1
    let z := mach { chan 16 with dataLen := 1 } []
    (memWf s.mem ∧ s.ch.bound ∧ 16 ≤ s.ch.capacity.toNat ∧ s.ch.capacity.toNat + 1 = 16 + s.ch.dataLen.toNat) ∧
    (memWf z.mem ∧ z.ch.bound ∧ 16 = z.ch.capacity.toNat ∧ z.ch.capacity.toNat < 16 + z.ch.dataLen.toNat) := by
  decide +kernel

/-- A buffer of just a header, and one a byte smaller (V-FH-10). -/
theorem witness_DecodeFrameHeaderResult :
    ((mach (chan 14) (frameFD1.take 14)).ch.bound ∧ 14 = (mach (chan 14) (frameFD1.take 14)).ch.capacity.toNat) ∧
    ((mach (chan 13) []).ch.bound ∧ (mach (chan 13) []).ch.capacity.toNat + 1 = 14) := by decide +kernel

/-- A frame that fills its buffer, one a byte too long, and a recorded error. -/
theorem witness_DecodeFrameDataResult :
    let s := mach { chan 26 with dataLen := 10 } frameFD1
    let z := mach { chan 25 with dataLen := 10 } frameFD1
    let e := mach { chan 64 with lastError := 0x0001 } frameFD1
    (s.ch.bound ∧ s.ch.lastError = 0 ∧ 16 + s.ch.dataLen.toNat = s.ch.capacity.toNat) ∧
    (z.ch.bound ∧ z.ch.lastError = 0 ∧ z.ch.capacity.toNat + 1 = 16 + z.ch.dataLen.toNat) ∧
    (e.ch.bound ∧ e.ch.lastError ≠ 0) := by decide +kernel

/-- DECODE_FRAME_DATA with a recorded error, and another operation. -/
theorem witness_LastErrorMasksDataDecodeOnly :
    (isOperation .decodeFrameData = true ∧ (mach { chan 64 with lastError := 0x0001 } frameFD1).ch.lastError ≠ 0) ∧
    (isOperation .decodeFrameHeader = true ∧ Instr.decodeFrameHeader ≠ .decodeFrameData) := by decide +kernel

/-- A header that leaves no error, in the least buffer it allows. -/
theorem witness_DecodeFrameDataSafeAfterHeader :
    (mach (chan 26) frameFD1).ch.bound ∧ (mach (chan 26) frameFD1).config.errInvalidFrame ≠ 0 ∧
    ∃ t, exec .decodeFrameHeader (mach (chan 26) frameFD1) = .next t ∧ decide (t.ch.lastError = 0) = true :=
  ⟨by decide +kernel, by decide +kernel, next_of (by decide +kernel)⟩

/-- The smallest legal frame in the least buffer, and the longest length that the field holds. -/
theorem witness_HeaderRoundTrip :
    let s := mach { chan 18 with dataLen := 2 } []
    let z := mach { chan 65551 with dataLen := 65535 } []
    (memWf s.mem ∧ s.ch.bound ∧ s.ch.lastError = 0 ∧ 2 = s.ch.dataLen.toNat ∧ s.ch.dataLen.toNat ≤ 0xFFFF ∧
      16 + s.ch.dataLen.toNat = s.ch.capacity.toNat) ∧
    (memWf z.mem ∧ z.ch.bound ∧ z.ch.lastError = 0 ∧ 2 ≤ z.ch.dataLen.toNat ∧ z.ch.dataLen.toNat = 0xFFFF ∧
      16 + z.ch.dataLen.toNat = z.ch.capacity.toNat) := by decide +kernel

/-- A buffer that holds a good frame exactly. -/
theorem witness_FrameAcceptedExactly :
    let s := mach (chan 26) frameFD1
    s.ch.bound ∧ 14 ≤ s.ch.capacity.toNat ∧ s.ch.lastError = 0 ∧ s.config.errInvalidFrame ≠ 0 ∧
    bufAt s 0 = s.config.startMarker ∧ 2 ≤ bufField s 10 2 ∧ 16 + bufField s 10 2 = s.ch.capacity.toNat ∧
    bufField s 12 2 = (cksum (bufList s 1 11)).toNat ∧
    bufField s (14 + bufField s 10 2) 2 = (cksum (bufList s 14 (bufField s 10 2))).toNat ∧
    (unpackSf s.config.sflags (bufAt s 14)).response = 1 := by decide +kernel

/-- `VALUE_MAX` derived, at 0 and below. -/
theorem witness_PropInitResult :
    (mach (chan 24) []).ch.derived ∧ State.reset.ch.derived ∧ ¬(mach { chan 24 with valueMax := 5 } []).ch.derived := by
  decide +kernel

/-- The least buffer with a property header, and one a byte smaller (V-PE-7). -/
theorem witness_EncodeReadResult :
    let s := mach (chan 24) frameP1
    let z := mach (chan 23) frameP1
    (memWf s.mem ∧ s.ch.bound ∧ 24 = s.ch.capacity.toNat) ∧
    (memWf z.mem ∧ z.ch.bound ∧ z.ch.capacity.toNat + 1 = 24) := by decide +kernel

/-- The same with the longest value length, and the first that is refused (V-PE-8). -/
theorem witness_EncodeWriteResult :
    let s := mach { chan 24 with valueLen := 0xFFFFFFF5 } frameP1
    let z := mach { chan 23 with valueLen := 0xFFFFFFF5 } frameP1
    let r := mach { chan 24 with valueLen := 0xFFFFFFF6 } frameP1
    (memWf s.mem ∧ s.ch.bound ∧ 24 = s.ch.capacity.toNat ∧ 10 + s.ch.valueLen.toNat + 1 = 4294967296) ∧
    (memWf z.mem ∧ z.ch.bound ∧ z.ch.capacity.toNat + 1 = 24 ∧ 10 + z.ch.valueLen.toNat + 1 = 4294967296) ∧
    (memWf r.mem ∧ r.ch.bound ∧ 10 + r.ch.valueLen.toNat = 4294967296) := by decide +kernel

/-- One byte past the top (V-FI-4), and the first length that is refused (V-PE-8). -/
theorem witness_OversizeRefused :
    (mach { chan 64 with opA := 0xFFFFFFF0, opB := 0x11 } []).ch.opA.toNat +
      (mach { chan 64 with opA := 0xFFFFFFF0, opB := 0x11 } []).ch.opB.toNat = 4294967296 + 1 ∧
    (mach { chan 64 with valueLen := 0xFFFFFFF6 } []).ch.valueLen.toNat = 4294967296 - 11 + 1 := by decide +kernel

/-- An empty value, and one of exactly `VALUE_MAX` (V-PD-12). -/
theorem witness_DecodeReadPropertyAccepts :
    let s := mach { chan 64 with dataLen := 10 } frameFD1
    let z := mach { chan 64 with dataLen := 50 } framePD1
    (s.ch.bound ∧ s.ch.derived ∧ s.ch.sfError = 0 ∧ 10 = s.ch.dataLen.toNat ∧
      (s.ch.dataLen.toNat : Int) - 10 ≤ s.ch.valueMax.toInt) ∧
    (z.ch.bound ∧ z.ch.derived ∧ z.ch.sfError = 0 ∧ 10 ≤ z.ch.dataLen.toNat ∧
      (z.ch.dataLen.toNat : Int) - 10 = z.ch.valueMax.toInt) := by decide +kernel

/-- An acknowledgment in the least buffer, a response of one value byte, and a buffer a byte too small. -/
theorem witness_DecodeWritePropertyAccepts :
    let s := mach { chan 24 with dataLen := 10 } frameFD1
    let long := mach { chan 64 with dataLen := 11 } frameFD1
    let small := mach { chan 23 with dataLen := 10 } frameFD1
    (s.ch.bound ∧ s.ch.derived ∧ s.ch.sfError = 0 ∧ s.ch.dataLen.toNat = 10 ∧ 0 = s.ch.valueMax.toInt) ∧
    (long.ch.bound ∧ long.ch.derived ∧ long.ch.sfError = 0 ∧ long.ch.dataLen.toNat ≠ 10) ∧
    (small.ch.bound ∧ small.ch.derived ∧ small.ch.sfError = 0 ∧ small.ch.valueMax.toInt < 0) := by
  decide +kernel

/-- A negative length, one past `VALUE_MAX`, and a write response of one byte. -/
theorem witness_DecodePropertyRejectsLength :
    let s := mach { chan 64 with dataLen := 9 } []
    let z := mach { chan 64 with dataLen := 51 } []
    let w := mach { chan 64 with dataLen := 11 } []
    (s.ch.sfError = 0 ∧
      ¬(0 ≤ (s.ch.dataLen.toNat : Int) - 10 ∧ (s.ch.dataLen.toNat : Int) - 10 ≤ s.ch.valueMax.toInt)) ∧
    (z.ch.sfError = 0 ∧
      ¬(0 ≤ (z.ch.dataLen.toNat : Int) - 10 ∧ (z.ch.dataLen.toNat : Int) - 10 ≤ z.ch.valueMax.toInt)) ∧
    (w.ch.sfError = 0 ∧ ¬((w.ch.dataLen.toNat : Int) - 10 = 0 ∧ 0 ≤ w.ch.valueMax.toInt)) := by decide +kernel

/-- An error code in the least buffer that holds it (V-PD-5), in one a byte smaller, and lengths beside 2 (V-PD-6). -/
theorem witness_DecodePropertyErrorResponse :
    let s := mach { chan 26 with dataLen := 12, sfError := 1 } framePD5
    let r := mach { chan 25 with dataLen := 12, sfError := 1 } framePD5
    let z := mach { chan 64 with dataLen := 13, sfError := 1 } framePD6
    let w := mach { chan 64 with dataLen := 11, sfError := 1 } framePD6
    (s.ch.sfError = 1 ∧ s.ch.dataLen.toNat = 12 ∧ s.ch.bound ∧ 26 = s.ch.capacity.toNat) ∧
    (r.ch.sfError = 1 ∧ r.ch.dataLen.toNat = 12 ∧ r.ch.bound ∧ r.ch.capacity.toNat + 1 = 26) ∧
    (z.ch.sfError = 1 ∧ z.ch.dataLen.toNat ≠ 12) ∧ (w.ch.sfError = 1 ∧ w.ch.dataLen.toNat ≠ 12) := by decide +kernel

/-- An exact fit of a read request. -/
theorem witness_ReadRequestBuildsItsFrame :
    let s := mach (chan 26) []
    memWf s.mem ∧ s.ch.bound ∧ 26 = s.ch.capacity.toNat := by decide +kernel

/-- An exact fit of a write request, with an empty value and with the longest. -/
theorem witness_WriteRequestBuildsItsFrame :
    let s := mach (chan 26) []
    let z := mach (chan 65551) []
    (memWf s.mem ∧ s.ch.bound ∧ 26 + ([] : List Byte).length = s.ch.capacity.toNat) ∧
    (memWf z.mem ∧ z.ch.bound ∧ 26 + 65525 = z.ch.capacity.toNat) ∧
    (List.replicate 65525 (0x00 : Byte)).length = 65525 := by
  refine ⟨by decide +kernel, by decide +kernel, List.length_replicate⟩

/-- V-PD-1's frame and an acknowledgment in buffers they fill, and the short payload of V-PD-8. -/
theorem witness_ReadResponseReceived :
    let s := mach (chan 30) []
    let z := mach (chan 26) []
    (memWf s.mem ∧ s.ch.bound ∧ s.ch.derived ∧ s.ch.lastError = 0 ∧ goodFrame s.config s.ch.capacity.toNat framePD1 ∧
      (unpackSf s.config.sflags (sflagsByte framePD1)).error = 0 ∧ 10 ≤ imageLen framePD1) ∧
    (memWf z.mem ∧ z.ch.bound ∧ z.ch.derived ∧ z.ch.lastError = 0 ∧ goodFrame z.config z.ch.capacity.toNat frameFD1 ∧
      (unpackSf z.config.sflags (sflagsByte frameFD1)).error = 0 ∧ 10 = imageLen frameFD1) ∧
    (goodFrame s.config s.ch.capacity.toNat framePD8 ∧
      (unpackSf s.config.sflags (sflagsByte framePD8)).error = 0 ∧ imageLen framePD8 < 10) := by
  unfold goodFrame; decide +kernel

/-- An acknowledgment in a buffer it fills, and the one value byte of V-PD-4. -/
theorem witness_WriteResponseReceived :
    let s := mach (chan 26) []
    let z := mach (chan 27) []
    (memWf s.mem ∧ s.ch.bound ∧ s.ch.derived ∧ s.ch.lastError = 0 ∧ goodFrame s.config s.ch.capacity.toNat frameFD1 ∧
      (unpackSf s.config.sflags (sflagsByte frameFD1)).error = 0 ∧ imageLen frameFD1 = 10) ∧
    (memWf z.mem ∧ z.ch.bound ∧ z.ch.derived ∧ z.ch.lastError = 0 ∧ goodFrame z.config z.ch.capacity.toNat framePD4 ∧
      (unpackSf z.config.sflags (sflagsByte framePD4)).error = 0 ∧ imageLen framePD4 = 11) := by
  unfold goodFrame; decide +kernel

/-- V-PD-5's frame in a buffer it fills, and V-PD-6's. -/
theorem witness_ErrorResponseReceived :
    let s := mach (chan 28) []
    let z := mach (chan 29) []
    (memWf s.mem ∧ s.ch.bound ∧ s.ch.lastError = 0 ∧ goodFrame s.config s.ch.capacity.toNat framePD5 ∧
      (unpackSf s.config.sflags (sflagsByte framePD5)).error = 1 ∧ imageLen framePD5 = 12) ∧
    (memWf z.mem ∧ z.ch.bound ∧ z.ch.lastError = 0 ∧ goodFrame z.config z.ch.capacity.toNat framePD6 ∧
      (unpackSf z.config.sflags (sflagsByte framePD6)).error = 1 ∧ imageLen framePD6 = 13) := by
  unfold goodFrame; decide +kernel

/-- A message of just a header, with each of the four faults: the marker (V-FH-2), the length (V-FH-4), a buffer one
byte too small (V-FH-5), the checksum (V-FH-9). -/
theorem witness_BadHeaderStopsReception :
    let s := mach (chan 14) []
    let z := mach (chan 33) []
    let marker := (frameFD1.take 14).set 0 0x55
    let short : List Byte := [0xAA, 0x00, 0x65, 0x00, 0x00, 0x00, 0x01, 0x00, 0x00, 0x00, 0x01, 0x00, 0x66, 0xEF]
    let long : List Byte := [0xAA, 0x00, 0x65, 0x00, 0x00, 0x00, 0x01, 0x00, 0x00, 0x00, 0x12, 0x00, 0x77, 0x11]
    let sum := (frameFD1.take 14).set 1 0x01
    (memWf s.mem ∧ s.ch.bound ∧ 14 = s.ch.capacity.toNat ∧ s.config.errInvalidFrame ≠ 0 ∧ 14 = marker.length ∧
      marker.getD 0 0 ≠ s.config.startMarker) ∧
    (14 = short.length ∧ imageLen short < 2) ∧
    (memWf z.mem ∧ z.ch.bound ∧ 14 ≤ z.ch.capacity.toNat ∧ z.config.errInvalidFrame ≠ 0 ∧ 14 = long.length ∧
      z.ch.capacity.toNat + 1 = 16 + imageLen long) ∧
    (14 = sum.length ∧ (cksum ((sum.drop 1).take 11)).toNat ≠ fieldAt sum 12 2) := by decide +kernel

/-- A value of four bytes. -/
theorem witness_WriteRequestIsItsLines : ([0x00, 0x00, 0x40, 0x41] : List Byte).length < 4294967296 := by decide

/-- Each response with its property decode's code. -/
theorem witness_ResponseIsItsLines :
    (Instr.frameReadResponse framePD1 = .frameReadResponse framePD1 ∧ (0x0B : BitVec 32) = 0x0B) ∧
    (Instr.frameWriteResponse frameFD1 = .frameWriteResponse frameFD1 ∧ (0x0C : BitVec 32) = 0x0C) ∧
    (Instr.frameErrorResponse framePD5 = .frameErrorResponse framePD5 ∧ (0x0B : BitVec 32) = 0x0B) :=
  ⟨⟨rfl, rfl⟩, ⟨rfl, rfl⟩, ⟨rfl, rfl⟩⟩

/-- A read request's exact fit, without an error. -/
theorem witness_PropertyRoundTrip :
    let s := mach (chan 26) []
    memWf s.mem ∧ s.ch.bound ∧ s.ch.lastError = 0 ∧ 26 = s.ch.capacity.toNat := by decide +kernel

/-- An error that stays (V-FH-8), and an application error code of 0 (V-PD-7) that replaces one. -/
theorem witness_LastErrorSticky :
    Config.default.wf ∧
    (∃ t, exec .decodeFrameHeader (mach { chan 64 with lastError := 0x0022 } frameFD1) = .next t ∧
      decide (t.ch.lastError ≠ 0) = true) ∧
    (∃ t, exec .decodeReadProperty (mach { chan 64 with dataLen := 12, sfError := 1, lastError := 7 } framePD7) =
      .next t ∧ decide (t.ch.lastError = 0) = true) :=
  ⟨by decide +kernel, next_of (by decide +kernel), next_of (by decide +kernel)⟩

/-- A state that meets the invariant, with a buffer bound up to the top of `MEM`. -/
theorem witness_RefusalConditions :
    (mach (chan 64) framePD1).Inv ∧ (mach { chan 64 with bufBase := 0xFFFFFFC0 } []).Inv := by decide +kernel

/-- Every operation and every message answers a next state somewhere: the hypothesis of the frames. -/
theorem witness_frames :
    (∃ t, exec .ckUpdate (mach (chan 64) []) = .next t ∧ decide (t.ch.ckB = 0xFF) = true) ∧
    (∃ t, exec .ckRange (mach { chan 64 with opB := 1 } []) = .next t ∧ decide (t.ch.ckB = 0xFF) = true) ∧
    (∃ t, exec .frameInit (mach { chan 64 with opB := 9 } []) = .next t ∧ decide (t.ch.capacity = 9) = true) ∧
    (∃ t, exec .encodeRequest (mach { chan 18 with dataLen := 2 } []) = .next t ∧
      decide (t.ch.phase = .encoded) = true) ∧
    (∃ t, exec .decodeFrameHeader (mach (chan 64) frameFD1) = .next t ∧ decide (t.ch.dataLen = 10) = true) ∧
    (∃ t, exec .decodeFrameData (mach { chan 64 with dataLen := 10 } frameFD1) = .next t ∧
      decide (t.ch.serviceId = 2) = true) ∧
    (∃ t, exec .frameLength (mach (chan 64) []) = .next t ∧ decide (t.reply = .value 16) = true) ∧
    (∃ t, exec .propInit (mach (chan 64) []) = .next t ∧ decide (t.ch.valueMax = 40) = true) ∧
    (∃ t, exec .encodeRead (mach (chan 64) []) = .next t ∧ decide (t.ch.serviceId = 1) = true) ∧
    (∃ t, exec .encodeWrite (mach (chan 64) []) = .next t ∧ decide (t.ch.serviceId = 2) = true) ∧
    (∃ t, exec .decodeReadProperty (mach { chan 64 with dataLen := 14 } framePD1) = .next t ∧
      decide (t.ch.valueLen = 4) = true) ∧
    (∃ t, exec .decodeWriteProperty (mach { chan 64 with dataLen := 10 } frameFD1) = .next t ∧
      decide (t.ch.objId = 1138) = true) :=
  ⟨next_of (by decide +kernel), next_of (by decide +kernel), next_of (by decide +kernel), next_of (by decide +kernel),
    next_of (by decide +kernel), next_of (by decide +kernel), next_of (by decide +kernel), next_of (by decide +kernel),
    next_of (by decide +kernel), next_of (by decide +kernel), next_of (by decide +kernel), next_of (by decide +kernel)⟩

/-- OperandsAndOtherChannelsUnwritten, BindingAndAccumulatorsWriters: an instruction that writes none of them. -/
theorem witness_OperandsAndOtherChannelsUnwritten :
    ∃ t, exec .encodeRead (mach (chan 64) []) = .next t ∧ decide (t.ch.dataLen = 10) = true := next_of (by decide +kernel)

/-- BindingAndAccumulatorsWriters: each clause's instruction is one that the others except. -/
theorem witness_BindingAndAccumulatorsWriters :
    (∃ t, exec .ckInit (mach (chan 64) []) = .next t) ∧ Instr.ckInit ≠ .frameInit ∧ Instr.ckInit ≠ .propInit ∧
    (∃ t, exec .propInit (mach (chan 64) []) = .next t) ∧ Instr.propInit ≠ .ckInit ∧ Instr.propInit ≠ .ckUpdate ∧
    Instr.propInit ≠ .ckRange := ⟨⟨_, rfl⟩, by decide, by decide, ⟨_, rfl⟩, by decide, by decide, by decide⟩

/-- RegisterFrames: the operations that store nothing complete (`witness_frames` names each). -/
theorem witness_RegisterFrames :
    ∃ t, exec .decodeFrameHeader (mach (chan 14) frameFD1) = .next t ∧ decide (t.ch.dataLen = 10) = true :=
  next_of (by decide +kernel)

/-- StoringOperationFrames: the three storing operations complete over a memory in canonical form. -/
theorem witness_StoringOperationFrames :
    memWf (mach { chan 26 with dataLen := 10 } frameP1).mem ∧
    (∃ t, exec .encodeRequest (mach { chan 26 with dataLen := 10 } frameP1) = .next t ∧
      decide (t.ch.lastError = 0) = true) ∧
    (∃ t, exec .encodeRead (mach { chan 26 with dataLen := 10 } frameP1) = .next t ∧ decide (t.ch.valueLen = 0) = true) ∧
    (∃ t, exec .encodeWrite (mach { chan 26 with dataLen := 10 } frameP1) = .next t ∧
      decide (t.ch.serviceId = 2) = true) :=
  ⟨by decide +kernel, next_of (by decide +kernel), next_of (by decide +kernel), next_of (by decide +kernel)⟩

/-- StoresStayInBuffer: a storing operation and another; and a memory that differs just past the 24 bytes of the
buffer. -/
theorem witness_StoresStayInBuffer :
    let s := mach (chan 24) frameP1
    let m := memStoreBytes [] 0x2000 (frameP1.take 24)
    memWf s.mem ∧ isOperation .encodeRead = true ∧ isOperation .propInit = true ∧
    (∃ t, exec .encodeRead s = .next t ∧ decide (t.ch.dataLen = 10) = true) ∧
    (∃ t, exec .propInit s = .next t) ∧
    memWf m ∧ m ≠ s.mem ∧ ∀ a, 0x2000 ≤ a ∧ a < 0x2000 + 24 → memGet m a = memGet s.mem a := by
  refine ⟨by decide +kernel, rfl, rfl, next_of (by decide +kernel), ⟨_, rfl⟩, by decide +kernel, by decide +kernel, ?_⟩
  have h : ∀ k < 24, memGet (memStoreBytes [] 0x2000 (frameP1.take 24)) (0x2000 + k) =
      memGet (mach (chan 24) frameP1).mem (0x2000 + k) := by decide +kernel
  intro a ha
  have := h (a - 0x2000) (by omega)
  rwa [Nat.add_sub_cancel' ha.1] at this

/-- MessageFrames: each of the five messages completes. -/
theorem witness_MessageFrames :
    memWf (mach (chan 30) []).mem ∧
    (∃ t, exec (.frameReadRequest 1 101 2 3000 5) (mach (chan 30) []) = .next t ∧
      decide (t.ch.lastError = 0) = true) ∧
    (∃ t, exec (.frameWriteRequest 1 101 2 1138 5 [0x00, 0x00, 0x40, 0x41]) (mach (chan 30) []) = .next t ∧
      decide (t.ch.lastError = 0) = true) ∧
    (∃ t, exec (.frameReadResponse framePD1) (mach (chan 30) []) = .next t ∧ decide (t.ch.valueLen = 4) = true) ∧
    (∃ t, exec (.frameWriteResponse frameFD1) (mach (chan 30) []) = .next t ∧ decide (t.ch.objId = 1138) = true) ∧
    (∃ t, exec (.frameErrorResponse framePD5) (mach (chan 30) []) = .next t ∧
      decide (t.ch.lastError = 0x0022) = true) :=
  ⟨by decide +kernel, next_of (by decide +kernel), next_of (by decide +kernel), next_of (by decide +kernel),
    next_of (by decide +kernel), next_of (by decide +kernel)⟩

/-- A machine of two channels, the first selected, with a command for the second as its next access. -/
def twoChannels : State :=
  ({ State.reset with after := [chan 24] } : State).setInbox [.port 1 (.writeReg 0x00 0x09)]

/-- An access at a channel's port that decodes to a well-formed instruction; and a table word on the default machine. -/
theorem witness_StepRunsDecodedInstruction :
    twoChannels.inbox = [.port 1 (.writeReg 0x00 0x09)] ∧
    selectChannel 1 (twoChannels.setInbox []) =
      some { State.reset with before := [Channel.reset], ch := chan 24, after := [] } ∧
    (Action.writeReg 0x00 0x09).packet = some (.cmd 0x09) ∧
    decode Config.default (.cmd 0x09) = .ok .encodeRead ∧ Instr.encodeRead.wf Config.default = true ∧
    State.reset.config = Config.default ∧ decodeTableWord 8 0x09 = some .encodeRead := by decide +kernel

/-- No access is to come at reset. -/
theorem witness_IdleStepChangesNothing : State.reset.inbox = [] := rfl

/-- A state that meets the invariant and takes a step that binds a buffer. -/
theorem witness_StepKeepsInvariant :
    (atPort (mach { chan 64 with opA := 0x3000, opB := 16 } framePD1) (.writeReg 0x00 0x01)).Inv ∧
    ∃ t, step (atPort (mach { chan 64 with opA := 0x3000, opB := 16 } framePD1) (.writeReg 0x00 0x01)) = .next t ∧
      decide (t.ch.bufBase = 0x3000 ∧ t.ch.valueMax.toInt = -8) = true :=
  ⟨by decide +kernel, next_of (by decide +kernel)⟩

/-- Legal parameters, with two channels; and every channel after reset. -/
theorem witness_ResetMeetsInvariant :
    ({ Config.default with numChannels := 2 } : Config).wf ∧
    (State.resetWith { Config.default with numChannels := 2 }).channels = [Channel.reset, Channel.reset] := by
  decide +kernel

/-- ResetValues: a channel after reset. -/
theorem witness_ResetValues : Channel.reset ∈ (State.resetWith Config.default).channels := by decide +kernel

/-- A hardware reset to come. -/
theorem witness_HardwareResetResult : (twoChannels.setInbox [.reset]).inbox = [Access.reset] := rfl

/-- An access at the second of two channels, which completes; the first is another channel. -/
theorem witness_ChannelsIndependent :
    twoChannels.inbox = [.port 1 (.writeReg 0x00 0x09)] ∧ (0 : Nat) ≠ 1 ∧
    ∃ t, step twoChannels = .next t ∧ decide (t.ch.serviceId = 1) = true :=
  ⟨rfl, by decide, next_of (by decide +kernel)⟩

/-- The ends of the read-only and the unassigned numbers. -/
theorem witness_HostWriteIgnored :
    ∀ num ∈ ([0x03, 0x04, 0x06, 0x0B, 0x0E, 0x10, 0x13, 0x18, 0x1D, 0xFF] : List (BitVec 8)),
      num.toNat = 0x03 ∨ num.toNat = 0x04 ∨ (0x06 ≤ num.toNat ∧ num.toNat ≤ 0x0B) ∨
        (0x0E ≤ num.toNat ∧ num.toNat ≤ 0x10) ∨ num.toNat = 0x13 ∨ 0x18 ≤ num.toNat := by decide

/-- The largest values that fit, in a register of each width, and another number. -/
theorem witness_HostWriteReadsBack :
    (0x0C : BitVec 8).toNat ∈ [0x01, 0x02, 0x0C, 0x0D, 0x12, 0x15, 0x17] ∧
    ((0x05 : BitVec 8).toNat ∈ [0x05, 0x14, 0x16] ∧ (0xFFFF : BitVec 32).toNat < 65536) ∧
    ((0x11 : BitVec 8).toNat = 0x11 ∧ (0xFF : BitVec 32).toNat < 256) ∧
    (0x0D : BitVec 8) ≠ 0x0C ∧ (0x0D : BitVec 8) ≠ 0x13 := by decide

/-- Accesses that end at the top of `MEM`, and one byte past it, by offset and by address. -/
theorem witness_HostStoreResult :
    let s := mach { chan 16 with bufBase := 0xFFFFFFF0 } []
    memWf s.mem ∧ s.ch.bufBase.toNat + 14 + ([0x12, 0x34] : List Byte).length = 4294967296 ∧
    4294967296 < s.ch.bufBase.toNat + 15 + ([0x12, 0x34] : List Byte).length ∧
    0xFFFFFFFE + ([0x12, 0x34] : List Byte).length = 4294967296 ∧ ([0x12, 0x34] : List Byte) ≠ [] := by decide +kernel

/-- A load answers the bytes stored before it, by offset and by address (R69, R113). -/
theorem test_load :
    gives (step (atPort (mach (chan 26) frameP1) (.load 22 4)))
      (fun t => t.reply = .bytes [0x05, 0x00, 0xCA, 0xA0]) = true ∧
    gives (step ((mach (chan 26) frameP1).setInbox [.memLoad 0x2018 2]))
      (fun t => t.reply = .bytes [0xCA, 0xA0]) = true := by decide +kernel

/-- The parameters' first and last port and I/O failure codes. -/
theorem witness_TransportErrorResult :
    Config.default.errPortIo[0]? = some 0x0081 ∧ Config.default.errPortIo[4]? = some 0x0085 := by decide

end Sys2Proof.Tests
end

section
/-! The invariant of the machine is kept by every step (O51). An operation is a `Run`, so what is proved of each of them
is that every state it can answer meets the invariant; sequences of statements then compose by one lemma. -/

namespace Sys2Proof.Machine

variable {s t : State}

/-! ### What an update of the state must keep -/

/-- The memory of a good state is in canonical form. -/
theorem State.Inv.memory (hs : s.Inv) : memWf s.mem := by
  obtain ⟨-, -, -, hm⟩ := hs
  exact hm

/-- The selected channel of a good state is good. -/
theorem State.Inv.selected (hs : s.Inv) : s.ch.bound ∧ s.ch.derived := by
  obtain ⟨-, -, hc, -⟩ := hs
  exact hc s.ch s.ch_mem_channels

/-- The invariant speaks of the parameters, the channels and the memory alone. -/
theorem inv_congr (hs : s.Inv) (hcfg : t.config = s.config) (hch : t.channels = s.channels) (hmem : t.mem = s.mem) :
    t.Inv := by
  unfold State.Inv
  rw [hcfg, hch, hmem]
  exact hs

/-- A step inside the selected channel and the memory keeps the invariant if it leaves both good. -/
theorem inv_of_sameElsewhere (hs : s.Inv) (he : sameElsewhere s t) (hc : t.ch.bound ∧ t.ch.derived)
    (hm : memWf t.mem) : t.Inv := by
  obtain ⟨hwf, hlen, hall, -⟩ := hs
  obtain ⟨hcfg, hbefore, hafter, -⟩ := he
  refine ⟨by rwa [hcfg], by simpa [State.channels, hcfg, hbefore, hafter] using hlen, fun c hmem => ?_, hm⟩
  have hmem' : c ∈ s.before ∨ c = t.ch ∨ c ∈ s.after := by simpa [State.channels, hbefore, hafter] using hmem
  rcases hmem' with h | rfl | h
  · exact hall c (by simp [State.channels, h])
  · exact hc
  · exact hall c (by simp [State.channels, h])

/-- What leaves the binding and `VALUE_MAX` alone and the memory in canonical form keeps the invariant. -/
theorem inv_of_keepsHost (hs : s.Inv) (hk : KeepsHost s t) (hm : memWf t.mem) : t.Inv := by
  refine inv_of_sameElsewhere hs hk.els ?_ hm
  unfold Channel.bound Channel.derived
  rw [hk.base, hk.cap, hk.vmax]
  exact hs.selected

/-- Two channels have the same buffer and the same `VALUE_MAX`. -/
structure SameBinding (c d : Channel) : Prop where
  base : c.bufBase = d.bufBase
  cap : c.capacity = d.capacity
  vmax : c.valueMax = d.valueMax

/-- An update of the selected channel's other registers keeps the invariant. -/
theorem inv_setCh (hs : s.Inv) {c : Channel} (hb : SameBinding c s.ch) : (s.setCh c).Inv := by
  refine inv_of_sameElsewhere hs (sameElsewhere_refl s) ?_ hs.memory
  unfold Channel.bound Channel.derived
  rw [State.setCh_ch, hb.base, hb.cap, hb.vmax]
  exact hs.selected

/-- A store inside `MEM` keeps the invariant. -/
theorem inv_setMem (hs : s.Inv) {m : List Host.Cell} (hm : memWf m) : (s.setMem m).Inv :=
  inv_of_sameElsewhere hs (sameElsewhere_refl s) hs.selected hm

/-! ### Runs -/

/-- Every state that a run answers meets the invariant. -/
def AnswersInv (r : Run State) : Prop := ∀ t, r = .ok t → t.Inv

theorem answersInv_ok (hs : s.Inv) : AnswersInv (.ok s) := by
  rintro t ⟨⟩
  exact hs

theorem answersInv_error (e : Stop) : AnswersInv (.error e) := by
  rintro t ⟨⟩

/-- One statement after another. -/
theorem AnswersInv.bind {r : Run State} {f : State → Run State} (hr : AnswersInv r)
    (hf : ∀ u, u.Inv → AnswersInv (f u)) : AnswersInv (r >>= f) := by
  intro t h
  obtain ⟨u, hu, ht⟩ := run_bind_eq_ok.1 h
  exact hf u (hr u hu) t ht

/-- The next state that a run gives a step. -/
theorem AnswersInv.next {r : Run State} (hr : AnswersInv r) (h : outcome r = .next t) : t.Inv :=
  hr t (outcome_eq_next.1 h)

/-! ### The operations -/

theorem ckRangeOp_answersInv (hs : s.Inv) : AnswersInv (ckRangeOp s) := by
  intro t h
  obtain ⟨-, rfl⟩ := ckRangeOp_cases h
  exact inv_setCh hs ⟨rfl, rfl, rfl⟩

/-- FRAME_INIT binds a buffer only where it fits `MEM`, and derives `VALUE_MAX` with it (R150, R152, R181). -/
theorem frameInitOp_answersInv (hs : s.Inv) : AnswersInv (frameInitOp s) := by
  intro t h
  obtain ⟨hfits, rfl⟩ := frameInitOp_inv h
  exact inv_of_sameElsewhere hs (by simp [sameElsewhere_refl]) ⟨hfits, valueMaxOf_toInt s.ch.opB⟩ hs.memory

theorem encodeRequestOp_answersInv (hs : s.Inv) : AnswersInv (encodeRequestOp s) := by
  intro t h
  refine inv_of_keepsHost hs (keeps_req h) ?_
  obtain ⟨hhead, ⟨-, rfl⟩ | ⟨-, hpay, rfl⟩⟩ := encodeRequestOp_cases hs.memory h
  · rw [State.setMem_mem]
    exact memWf_headersStored hs.memory hhead
  · rw [State.setMem_mem]
    exact memWf_requestMem hs.memory hhead hpay

theorem decodeFrameHeaderOp_answersInv (hs : s.Inv) : AnswersInv (decodeFrameHeaderOp s) := by
  intro t h
  obtain ⟨-, rfl⟩ := decodeFrameHeaderOp_cases h
  exact inv_setCh hs ⟨rfl, rfl, rfl⟩

theorem decodeFrameDataOp_answersInv (hs : s.Inv) : AnswersInv (decodeFrameDataOp s) := by
  intro t h
  obtain ⟨-, rfl⟩ | ⟨-, -, rfl⟩ := decodeFrameDataOp_cases h
  · exact hs
  · exact inv_setCh hs ⟨rfl, rfl, rfl⟩

/-- PROP_INIT derives `VALUE_MAX` again from the capacity (R180). -/
theorem propInit_inv (hs : s.Inv) : (s.setCh { s.ch with valueMax := valueMaxOf s.ch.capacity }).Inv := by
  obtain ⟨hbound, -⟩ := hs.selected
  exact inv_of_sameElsewhere hs (sameElsewhere_refl s) ⟨hbound, valueMaxOf_toInt s.ch.capacity⟩ hs.memory

/-- The property header is stored inside `MEM` (R182). -/
theorem memWf_storedPropHeader (hm : memWf s.mem) (h : spans s 16 8) (otype : BitVec 16) (oid : BitVec 32)
    (pid : BitVec 16) : memWf (memStoreBytes s.mem (s.ch.bufBase.toNat + 16) (propHeader otype oid pid)) := by
  obtain ⟨-, htop⟩ := spans_bounds h (by omega)
  exact memWf_memStoreBytes hm _ _ (by rw [length_propHeader]; omega)

theorem encodeReadOp_answersInv (hs : s.Inv) : AnswersInv (encodeReadOp s) := by
  intro t h
  refine inv_of_keepsHost hs (keeps_er h) ?_
  obtain ⟨hspan, rfl⟩ := encodeReadOp_cases h
  exact memWf_storedPropHeader hs.memory hspan _ _ _

theorem encodeWriteOp_answersInv (hs : s.Inv) : AnswersInv (encodeWriteOp s) := by
  intro t h
  refine inv_of_keepsHost hs (keeps_ew h) ?_
  obtain ⟨-, hspan, rfl⟩ := encodeWriteOp_cases h
  exact memWf_storedPropHeader hs.memory hspan _ _ _

/-- Either property decode, by the branch it took (R198). -/
theorem PropDecoded.inv (hs : s.Inv) {v : BitVec 32} (h : PropDecoded s t v) : t.Inv := by
  obtain ⟨-, hmem, -, -⟩ := prop_frame h
  exact inv_of_keepsHost hs (keeps_prop h) (hmem ▸ hs.memory)

theorem decodeReadPropertyOp_answersInv (hs : s.Inv) : AnswersInv (decodeReadPropertyOp s) :=
  fun _ h => (decodeReadPropertyOp_cases h).inv hs

theorem decodeWritePropertyOp_answersInv (hs : s.Inv) : AnswersInv (decodeWritePropertyOp s) :=
  fun _ h => (decodeWritePropertyOp_cases h).inv hs

/-! ### The host's accesses -/

theorem hostStore_answersInv (hs : s.Inv) (a : Nat) (l : List Byte) : AnswersInv (hostStore s a l) := by
  intro t h
  obtain ⟨hfits, rfl⟩ := hostStore_cases h
  exact inv_setMem hs (memWf_hostStore hs.memory hfits)

theorem hostLoad_answersInv (hs : s.Inv) (a n : Nat) : AnswersInv (hostLoad s a n) := by
  unfold hostLoad
  split
  · exact answersInv_ok hs
  · exact answersInv_error _

theorem storeAt_answersInv (hs : s.Inv) (k : Nat) (l : List Byte) : AnswersInv (storeAt s k l) :=
  hostStore_answersInv hs _ l

theorem putReg_answersInv (hs : s.Inv) (num : BitVec 8) (w : Nat) (v : BitVec 32) (f : BitVec w → Channel)
    (hf : ∀ x, SameBinding (f x) s.ch) : AnswersInv (putReg s num w v f) := by
  unfold putReg
  split
  · exact answersInv_ok (inv_setCh hs (hf _))
  · exact answersInv_error _

/-- `BUF_BASE`, `CAPACITY` and `VALUE_MAX` are no registers that the host can write (R44). -/
theorem setReg_answersInv (hs : s.Inv) (num : BitVec 8) (v : BitVec 32) : AnswersInv (setReg s num v) := by
  have full : ∀ {c : Channel}, SameBinding c s.ch → AnswersInv (.ok (s.setCh c)) :=
    fun hb => answersInv_ok (inv_setCh hs hb)
  unfold setReg
  split
  case h_1 => exact answersInv_error _
  case h_4 | h_7 | h_9 | h_11 => exact putReg_answersInv hs _ _ _ _ fun _ => ⟨rfl, rfl, rfl⟩
  case h_13 => exact answersInv_ok hs
  all_goals exact full ⟨rfl, rfl, rfl⟩

theorem recordError_inv (hs : s.Inv) (e : BitVec 16) : (recordError s e).Inv := inv_setCh hs ⟨rfl, rfl, rfl⟩

theorem hostAction_answersInv (hs : s.Inv) (act : Action) : AnswersInv (hostAction s act) := by
  cases act with
  | writeReg num v => exact setReg_answersInv hs num v
  | readReg num => exact answersInv_ok (s := getReg s num) hs
  | store k bytes => exact storeAt_answersInv hs k bytes
  | load k m => exact hostLoad_answersInv hs _ m
  | message bytes => exact answersInv_error _
  | deviceNotFound => exact answersInv_ok (recordError_inv hs _)
  | responseTimeout => exact answersInv_ok (recordError_inv hs _)
  | portIoFailure k =>
    rw [hostAction]
    split
    · exact answersInv_ok (recordError_inv hs _)
    · exact answersInv_error _

/-! ### The messages -/

theorem setValueLength_answersInv (hs : s.Inv) (n : Nat) : AnswersInv (setValueLength s n) := by
  unfold setValueLength
  split
  · exact answersInv_ok (inv_setCh hs ⟨rfl, rfl, rfl⟩)
  · exact answersInv_error _

theorem setRequest_inv (hs : s.Inv) (src dst : BitVec 32) (otype : BitVec 16) (oid : BitVec 32) (pid : BitVec 16) :
    (setRequest s src dst otype oid pid).Inv := inv_setCh hs ⟨rfl, rfl, rfl⟩

theorem readReq_answersInv (hs : s.Inv) (src dst : BitVec 32) (otype : BitVec 16) (oid : BitVec 32)
    (pid : BitVec 16) : AnswersInv (readReq s src dst otype oid pid) :=
  (encodeReadOp_answersInv (setRequest_inv hs ..)).bind fun _ => encodeRequestOp_answersInv

theorem writeReq_answersInv (hs : s.Inv) (src dst : BitVec 32) (otype : BitVec 16) (oid : BitVec 32)
    (pid : BitVec 16) (value : List Byte) : AnswersInv (writeReq s src dst otype oid pid value) :=
  (storeAt_answersInv (setRequest_inv hs ..) 24 value).bind fun _ h1 =>
    (setValueLength_answersInv h1 _).bind fun _ h2 =>
      (encodeWriteOp_answersInv h2).bind fun _ => encodeRequestOp_answersInv

theorem recv_answersInv (hs : s.Inv) (bytes : List Byte) : AnswersInv (recv s bytes) := by
  refine (storeAt_answersInv hs 0 _).bind fun _ h1 => (decodeFrameHeaderOp_answersInv h1).bind fun u hu => ?_
  have hget : (getReg u regLastError).Inv := hu
  dsimp only
  split
  · exact (storeAt_answersInv hget 14 _).bind fun _ => decodeFrameDataOp_answersInv
  · exact answersInv_ok hget

/-- A response is received, then decoded where it was accepted (R114). -/
theorem response_answersInv (hs : s.Inv) (bytes : List Byte) {f : State → Run State}
    (hf : ∀ u, u.Inv → AnswersInv (f u)) : AnswersInv (recv s bytes >>= fun u => ifAccepted u f) := by
  refine (recv_answersInv hs bytes).bind fun u hu => ?_
  have hget : (getReg u regLastError).Inv := hu
  unfold ifAccepted
  split
  · exact hf _ hget
  · exact answersInv_ok hget

/-! ### A step -/

/-- Every instruction keeps the invariant. -/
theorem exec_inv (hs : s.Inv) {i : Instr} (h : exec i s = .next t) : t.Inv := by
  cases i with
  | ckInit => cases h; exact inv_setCh hs ⟨rfl, rfl, rfl⟩
  | ckUpdate => cases h; exact inv_setCh hs ⟨rfl, rfl, rfl⟩
  | ckRange => exact (ckRangeOp_answersInv hs).next h
  | frameInit => exact (frameInitOp_answersInv hs).next h
  | encodeRequest => exact (encodeRequestOp_answersInv hs).next h
  | decodeFrameHeader => exact (decodeFrameHeaderOp_answersInv hs).next h
  | decodeFrameData => exact (decodeFrameDataOp_answersInv hs).next h
  | frameLength => cases h; exact hs
  | propInit => cases h; exact propInit_inv hs
  | encodeRead => exact (encodeReadOp_answersInv hs).next h
  | encodeWrite => exact (encodeWriteOp_answersInv hs).next h
  | decodeReadProperty => exact (decodeReadPropertyOp_answersInv hs).next h
  | decodeWriteProperty => exact (decodeWritePropertyOp_answersInv hs).next h
  | frameReadRequest src dst otype oid pid => exact (readReq_answersInv hs src dst otype oid pid).next h
  | frameWriteRequest src dst otype oid pid value => exact (writeReq_answersInv hs src dst otype oid pid value).next h
  | frameReadResponse bytes => exact (response_answersInv hs bytes fun _ => decodeReadPropertyOp_answersInv).next h
  | frameWriteResponse bytes => exact (response_answersInv hs bytes fun _ => decodeWritePropertyOp_answersInv).next h
  | frameErrorResponse bytes => exact (response_answersInv hs bytes fun _ => decodeReadPropertyOp_answersInv).next h

/-- A channel after a hardware reset has an empty buffer, so any base is inside `MEM` (R50, R240). -/
theorem resetChannel_good (d : Nat) : (resetChannel d).bound ∧ (resetChannel d).derived := by
  have hbase := (resetChannel d).bufBase.isLt
  have hcap : (resetChannel d).capacity = 0 := rfl
  have hvmax : (resetChannel d).valueMax = -24 := rfl
  unfold Channel.bound Channel.derived
  rw [hcap, hvmax]
  exact ⟨by simpa using hbase.le, by decide⟩

theorem resetChannels_good (n d : Nat) : ∀ c ∈ resetChannels d n, c.bound ∧ c.derived := by
  induction n generalizing d with
  | zero => simp [resetChannels]
  | succ n ih =>
    rw [resetChannels, List.forall_mem_cons]
    exact ⟨resetChannel_good d, ih (d + 20)⟩

@[simp] theorem length_resetChannels (n d : Nat) : (resetChannels d n).length = n := by
  induction n generalizing d with
  | zero => rfl
  | succ n ih => simp [resetChannels, ih]

/-- The hardware reset keeps the number of channels and leaves each of them good (R240). -/
theorem hardReset_inv (hs : s.Inv) : (hardReset s).Inv := by
  obtain ⟨hwf, hlen, -, hm⟩ := hs
  refine ⟨hwf, by simpa [State.channels, hardReset] using hlen, ?_, hm⟩
  rw [State.channels, List.forall_mem_append, List.forall_mem_cons]
  exact ⟨resetChannels_good _ _, resetChannel_good _, resetChannels_good _ _⟩

theorem selectChannel_inv (hs : s.Inv) {c : Nat} (h : selectChannel c s = some t) : t.Inv := by
  obtain ⟨hch, -, -, heq⟩ := selectChannel_cases h
  exact inv_congr hs (by rw [heq]) hch (by rw [heq])

/-- What is fetched from a good state: an instruction to run in a good state, or an access that left a good one. -/
def Fetched.KeepsInv : Fetched → Prop
  | .instr _ s => s.Inv
  | .done r => AnswersInv r

theorem fetchAction_keepsInv (hs : s.Inv) (act : Action) : (fetchAction s act).KeepsInv := by
  unfold fetchAction
  split
  · exact hostAction_answersInv hs act
  · split
    · exact hs
    · exact answersInv_error _

theorem fetchAccess_keepsInv (hs : s.Inv) (a : Access) : (fetchAccess s a).KeepsInv := by
  cases a with
  | port c act =>
    rw [fetchAccess]
    split
    · exact answersInv_error _
    · rename_i hsel
      exact fetchAction_keepsInv (selectChannel_inv hs hsel) act
  | memStore addr bytes => exact hostStore_answersInv hs addr bytes
  | memLoad addr count => exact hostLoad_answersInv hs addr count
  | reset => exact answersInv_ok (hardReset_inv hs)

theorem fetch_keepsInv (hs : s.Inv) : (fetch s).KeepsInv := by
  unfold fetch
  split
  · exact answersInv_ok hs
  · rename_i a rest _
    exact fetchAccess_keepsInv (s := s.setInbox rest) hs a

/-- Settles O51: what is fetched keeps the invariant, and then so does the instruction or the access. -/
theorem stepKeepsInvariant : Obligations.StepKeepsInvariant := by
  intro s t hs h
  have hf := fetch_keepsInv hs
  cases hfetch : fetch s with
  | instr i u =>
    rw [hfetch] at hf
    exact exec_inv hf (step_of_instr hfetch ▸ h)
  | done r =>
    rw [hfetch] at hf
    exact AnswersInv.next hf (step_of_done hfetch ▸ h)

end Sys2Proof.Machine
end

section
/-! Which registers an instruction can write: the writers of the operands, the binding, the accumulators and `VALUE_MAX`
(O42, O43), the registers of the other channels (O48), and the register frame of each operation that stores nothing
(O44). -/

namespace Sys2Proof.Machine

variable {s t : State} {i : Instr}

/-- The checksum unit writes the accumulators alone (R45). -/
theorem exec_checksum (hi : i = .ckInit ∨ i = .ckUpdate ∨ i = .ckRange) (h : exec i s = .next t) :
    ∃ acc, t = setAccumulators s acc := by
  rcases hi with rfl | rfl | rfl
  · cases h; exact ⟨_, rfl⟩
  · cases h; exact ⟨_, rfl⟩
  · obtain ⟨-, ht⟩ := ckRangeOp_cases (outcome_eq_next.1 h)
    exact ⟨_, ht⟩

/-- Either property decode takes a branch of the table of R198. -/
theorem exec_propDecoded (hi : i = .decodeReadProperty ∨ i = .decodeWriteProperty) (h : exec i s = .next t) :
    ∃ v, PropDecoded s t v := by
  rcases hi with rfl | rfl
  · exact ⟨_, decodeReadPropertyOp_cases (outcome_eq_next.1 h)⟩
  · exact ⟨_, decodeWritePropertyOp_cases (outcome_eq_next.1 h)⟩

/-- What an instruction writes of the registers that the host and the binding own: the checksum unit the accumulators,
FRAME_INIT the binding, PROP_INIT `VALUE_MAX`, and any other none of them. -/
inductive ExecFrame (s t : State) : Instr → Prop where
  | checksum {i : Instr} (acc : Byte × Byte) (hi : i = .ckInit ∨ i = .ckUpdate ∨ i = .ckRange)
      (ht : t = setAccumulators s acc) : ExecFrame s t i
  | frameInit (ht : t = (s.setCh (initChannel s)).addDraws 13) : ExecFrame s t .frameInit
  | propInit (ht : t = s.setCh { s.ch with valueMax := valueMaxOf s.ch.capacity }) : ExecFrame s t .propInit
  | keeps {i : Instr} (hk : KeepsHost s t) : ExecFrame s t i

theorem ExecFrame.of_checksum (hi : i = .ckInit ∨ i = .ckUpdate ∨ i = .ckRange) (h : exec i s = .next t) :
    ExecFrame s t i := by
  obtain ⟨acc, ht⟩ := exec_checksum hi h
  exact .checksum acc hi ht

theorem keeps_decodeRead (h : decodeReadPropertyOp s = .ok t) : KeepsHost s t :=
  keeps_prop (decodeReadPropertyOp_cases h)

theorem keeps_decodeWrite (h : decodeWritePropertyOp s = .ok t) : KeepsHost s t :=
  keeps_prop (decodeWritePropertyOp_cases h)

/-- Every instruction that completes does so within its frame. -/
theorem exec_frame (h : exec i s = .next t) : ExecFrame s t i := by
  cases i with
  | ckInit => exact .of_checksum (.inl rfl) h
  | ckUpdate => exact .of_checksum (.inr (.inl rfl)) h
  | ckRange => exact .of_checksum (.inr (.inr rfl)) h
  | frameInit =>
    obtain ⟨-, ht⟩ := frameInitOp_inv (outcome_eq_next.1 h)
    exact .frameInit ht
  | encodeRequest => exact .keeps (keeps_req (outcome_eq_next.1 h))
  | decodeFrameHeader => exact .keeps (keeps_dfh (outcome_eq_next.1 h))
  | decodeFrameData => exact .keeps (keeps_dfd (outcome_eq_next.1 h))
  | frameLength => cases h; exact .keeps ⟨rfl, rfl, rfl, rfl, rfl, rfl, rfl, sameElsewhere_refl s⟩
  | propInit => cases h; exact .propInit rfl
  | encodeRead => exact .keeps (keeps_er (outcome_eq_next.1 h))
  | encodeWrite => exact .keeps (keeps_ew (outcome_eq_next.1 h))
  | decodeReadProperty => exact .keeps (keeps_decodeRead (outcome_eq_next.1 h))
  | decodeWriteProperty => exact .keeps (keeps_decodeWrite (outcome_eq_next.1 h))
  | frameReadRequest => exact .keeps (keeps_readReq (outcome_eq_next.1 h))
  | frameWriteRequest => exact .keeps (keeps_writeReq (outcome_eq_next.1 h))
  | frameReadResponse => exact .keeps (keeps_rsp keeps_decodeRead (outcome_eq_next.1 h))
  | frameWriteResponse => exact .keeps (keeps_rsp keeps_decodeWrite (outcome_eq_next.1 h))
  | frameErrorResponse => exact .keeps (keeps_rsp keeps_decodeRead (outcome_eq_next.1 h))

/-- Settles O42: by the frame of the instruction. -/
theorem operandsAndOtherChannelsUnwritten : Obligations.OperandsAndOtherChannelsUnwritten := by
  intro s t i h
  cases exec_frame h with
  | checksum acc _ ht => subst ht; exact ⟨rfl, rfl, sameElsewhere_refl s⟩
  | frameInit ht => subst ht; exact ⟨rfl, rfl, sameElsewhere_refl s⟩
  | propInit ht => subst ht; exact ⟨rfl, rfl, sameElsewhere_refl s⟩
  | keeps hk => exact ⟨hk.opA, hk.opB, hk.els⟩

/-- Settles O43: the frame of the instruction names the writer of each register. -/
theorem bindingAndAccumulatorsWriters : Obligations.BindingAndAccumulatorsWriters := by
  intro s t i h
  cases exec_frame h with
  | checksum acc hi ht =>
    subst ht
    refine ⟨fun _ => ⟨rfl, rfl⟩, fun hInit hUpdate hRange => ?_, fun _ _ => rfl⟩
    rcases hi with h | h | h
    · exact absurd h hInit
    · exact absurd h hUpdate
    · exact absurd h hRange
  | frameInit ht => subst ht; exact ⟨fun hi => absurd rfl hi, fun _ _ _ => ⟨rfl, rfl⟩, fun hi => absurd rfl hi⟩
  | propInit ht => subst ht; exact ⟨fun _ => ⟨rfl, rfl⟩, fun _ _ _ => ⟨rfl, rfl⟩, fun _ hi => absurd rfl hi⟩
  | keeps hk => exact ⟨fun _ => ⟨hk.base, hk.cap⟩, fun _ _ _ => ⟨hk.ckA, hk.ckB⟩, fun _ _ => hk.vmax⟩

/-- Settles O48: an instruction commutes with replacing what lies elsewhere, and the accesses to come stay as they
are. -/
theorem operationsIgnoreOtherChannels : Obligations.OperationsIgnoreOtherChannels := by
  intro i s before after
  have hlocal := exec_elsewhere i s before after s.inbox
  cases hexec : exec i s with
  | next t =>
    have hinbox : t.elsewhere before after s.inbox = { t with before := before, after := after } := by
      rw [← exec_inbox hexec]; rfl
    rw [hexec] at hlocal
    exact hlocal.trans (congrArg _ hinbox)
  | fault r => rw [hexec] at hlocal; exact hlocal
  | refused r => rw [hexec] at hlocal; exact hlocal

/-- Settles O44: the result of each operation, in full, writes the registers listed for it. -/
theorem registerFrames : Obligations.RegisterFrames := by
  intro s t
  refine ⟨fun i hi h => ?checksum, fun h => ?frameInit, fun h => ?header, fun h => ?data, fun h => ?length,
    fun h => ?propInit, fun i hi h => ?property⟩
  case checksum =>
    obtain ⟨acc, rfl⟩ := exec_checksum hi h
    rfl
  case frameInit =>
    obtain ⟨-, rfl⟩ := frameInitOp_inv (outcome_eq_next.1 h)
    exact ⟨fun _ => rfl, rfl, rfl⟩
  case header =>
    obtain ⟨-, rfl⟩ := decodeFrameHeaderOp_cases (outcome_eq_next.1 h)
    rfl
  case data =>
    obtain ⟨-, rfl⟩ | ⟨-, -, rfl⟩ := decodeFrameDataOp_cases (outcome_eq_next.1 h)
    · rfl
    · rfl
  case length => cases h; rfl
  case propInit => cases h; rfl
  case property =>
    obtain ⟨v, hv⟩ := exec_propDecoded hi h
    obtain ⟨hch, hmem, hreply, -⟩ := prop_frame hv
    exact ⟨fun a => by rw [hmem], hreply, hch⟩

end Sys2Proof.Machine
end

section
/-! Which bytes an instruction can write: the frame of the operations that store (O45) and of the messages, which run
them one after another (O47). -/

namespace Sys2Proof.Machine

variable {s t u : State}

/-! ### Memory outside a stretch -/

theorem sameMemoryOutside.trans {a n : Nat} (h : sameMemoryOutside s t a n) (g : sameMemoryOutside t u a n) :
    sameMemoryOutside s u a n := fun x hx => (g x hx).trans (h x hx)

/-- What is left alone outside a stretch is left alone outside any stretch around it. -/
theorem sameMemoryOutside.widen {a n b m : Nat} (h : sameMemoryOutside s t a n) (hlow : b ≤ a)
    (hhigh : a + n ≤ b + m) : sameMemoryOutside s t b m := fun x hx => h x (by omega)

theorem sameMemoryOutside.of_mem_eq (h : t.mem = s.mem) (a n : Nat) : sameMemoryOutside s t a n :=
  fun x _ => by rw [h]

/-- An operation over a memory in canonical form stores inside a stretch and leaves the memory in canonical form. -/
structure StoresWithin (s t : State) (a n : Nat) : Prop where
  outside : sameMemoryOutside s t a n
  wf : memWf t.mem

theorem StoresWithin.of_mem_eq (hm : memWf s.mem) (h : t.mem = s.mem) (a n : Nat) : StoresWithin s t a n :=
  ⟨.of_mem_eq h a n, h ▸ hm⟩

theorem StoresWithin.trans {a n : Nat} (h : StoresWithin s t a n) (g : StoresWithin t u a n) : StoresWithin s u a n :=
  ⟨h.outside.trans g.outside, g.wf⟩

theorem StoresWithin.widen {a n b m : Nat} (h : StoresWithin s t a n) (hlow : b ≤ a) (hhigh : a + n ≤ b + m) :
    StoresWithin s t b m := ⟨h.outside.widen hlow hhigh, h.wf⟩

/-! ### The storing operations -/

/-- ENCODE_REQUEST stores at offsets 0 to 15 and, where the frame fits, its payload checksum (R154). -/
theorem encodeRequestOp_outside (hm : memWf s.mem) (h : encodeRequestOp s = .ok t) (x : Nat)
    (hhead : ¬(s.ch.bufBase.toNat ≤ x ∧ x < s.ch.bufBase.toNat + 16))
    (hsum : ¬(16 + s.ch.dataLen.toNat ≤ s.ch.capacity.toNat ∧ s.ch.bufBase.toNat + 14 + s.ch.dataLen.toNat ≤ x ∧
      x < s.ch.bufBase.toNat + 16 + s.ch.dataLen.toNat)) : memGet t.mem x = memGet s.mem x := by
  obtain ⟨h0, ⟨-, rfl⟩ | ⟨hfits, hpay, rfl⟩⟩ := encodeRequestOp_cases hm h
  · rw [State.setMem_mem]
    exact headers_outside hm h0 x hhead
  · rw [State.setMem_mem]
    refine request_outside hm h0 hpay x hhead fun hx => hsum ?_
    unfold tooBig at hfits
    omega

theorem encodeRequestOp_stores (hm : memWf s.mem) (h : encodeRequestOp s = .ok t) :
    StoresWithin s t s.ch.bufBase.toNat (16 + s.ch.dataLen.toNat) := by
  refine ⟨fun x hx => encodeRequestOp_outside hm h x (by omega) (by omega), ?_⟩
  obtain ⟨h0, ⟨-, rfl⟩ | ⟨-, hpay, rfl⟩⟩ := encodeRequestOp_cases hm h
  · rw [State.setMem_mem]
    exact memWf_headersStored hm h0
  · rw [State.setMem_mem]
    exact memWf_requestMem hm h0 hpay

/-- ENCODE_READ stores at offsets 16 to 23 (R183). -/
theorem encodeReadOp_stores (hm : memWf s.mem) (h : encodeReadOp s = .ok t) :
    StoresWithin s t (s.ch.bufBase.toNat + 16) 8 := by
  obtain ⟨hs, rfl⟩ := encodeReadOp_cases h
  exact ⟨prop_outside hm hs _ _ _, memWf_storedPropHeader hm hs _ _ _⟩

/-- ENCODE_WRITE stores at offsets 16 to 23 (R185). -/
theorem encodeWriteOp_stores (hm : memWf s.mem) (h : encodeWriteOp s = .ok t) :
    StoresWithin s t (s.ch.bufBase.toNat + 16) 8 := by
  obtain ⟨-, hs, rfl⟩ := encodeWriteOp_cases h
  exact ⟨prop_outside hm hs _ _ _, memWf_storedPropHeader hm hs _ _ _⟩

/-- `STORE k` stores at the offsets of its bytes (R113). -/
theorem storeAt_stores (hm : memWf s.mem) {k : Nat} {l : List Byte} (h : storeAt s k l = .ok t) :
    StoresWithin s t (s.ch.bufBase.toNat + k) l.length := by
  obtain ⟨hl, rfl⟩ := hostStore_cases h
  exact ⟨fun x hx => memGet_outside hm hl hx, memWf_hostStore hm hl⟩

/-- Settles O45: by what each operation stores, and its registers in full. -/
theorem storingOperationFrames : Obligations.StoringOperationFrames := by
  intro s t hm
  refine ⟨fun h => ?request, fun h => ?read, fun h => ?write⟩
  case request =>
    have hop : encodeRequestOp s = .ok t := outcome_eq_next.1 h
    have hmem := encodeRequestOp_outside hm hop
    obtain ⟨m, e, rfl, -⟩ := encodeRequestOp_frame hop
    exact ⟨rfl, rfl, rfl, hmem⟩
  case read =>
    have hop : encodeReadOp s = .ok t := outcome_eq_next.1 h
    have hmem := (encodeReadOp_stores hm hop).outside
    obtain ⟨-, rfl⟩ := encodeReadOp_cases hop
    exact ⟨rfl, rfl, rfl, hmem⟩
  case write =>
    have hop : encodeWriteOp s = .ok t := outcome_eq_next.1 h
    have hmem := (encodeWriteOp_stores hm hop).outside
    obtain ⟨-, -, rfl⟩ := encodeWriteOp_cases hop
    exact ⟨rfl, rfl, rfl, hmem⟩

/-! ### The messages -/

@[simp] theorem setRequest_mem (s : State) (src dst : BitVec 32) (otype : BitVec 16) (oid : BitVec 32)
    (pid : BitVec 16) : (setRequest s src dst otype oid pid).mem = s.mem := rfl

@[simp] theorem getReg_mem (s : State) (num : BitVec 8) : (getReg s num).mem = s.mem := rfl

/-- `SET VALUE_LEN, n` in full (R37). -/
theorem setValueLength_cases {n : Nat} (h : setValueLength s n = .ok t) :
    n < 4294967296 ∧ t = setValueLen s (BitVec.ofNat 32 n) := by
  unfold setValueLength at h
  split at h
  · rename_i hn
    exact ⟨hn, (Except.ok.inj h).symm⟩
  · cases h

/-- READ_REQ in its registers and its stores (R114). -/
theorem readReq_frame (hm : memWf s.mem) {src dst : BitVec 32} {otype : BitVec 16} {oid : BitVec 32}
    {pid : BitVec 16} (h : readReq s src dst otype oid pid = .ok t) :
    (∃ m e, t = (s.setCh { s.ch with
      srcAddr := src, dstAddr := dst, objType := otype, objId := oid, propId := pid, serviceId := 1, valueLen := 0
      dataLen := 10, lastError := e, phase := .encoded }).setMem m) ∧
    StoresWithin s t s.ch.bufBase.toNat 26 := by
  rw [readReq, run_bind_eq_ok] at h
  obtain ⟨u, hread, hreq⟩ := h
  have hset : StoresWithin s (setRequest s src dst otype oid pid) s.ch.bufBase.toNat 26 :=
    .of_mem_eq hm (setRequest_mem s ..) _ _
  have hprop : StoresWithin (setRequest s src dst otype oid pid) u (s.ch.bufBase.toNat + 16) 8 :=
    encodeReadOp_stores hset.wf hread
  have hframe := encodeRequestOp_stores hprop.wf hreq
  obtain ⟨-, hu⟩ := encodeReadOp_cases hread
  have hbase : u.ch.bufBase = s.ch.bufBase := by rw [hu]; rfl
  have hlen : u.ch.dataLen.toNat = 10 := by rw [hu]; rfl
  rw [hbase, hlen] at hframe
  refine ⟨?_, hset.trans ((hprop.widen (by omega) (by omega)).trans (hframe.widen (by omega) (by omega)))⟩
  obtain ⟨m, e, rfl, -⟩ := encodeRequestOp_frame hreq
  exact ⟨m, e, by rw [hu]; rfl⟩

/-- WRITE_REQ in its registers and its stores (R114). -/
theorem writeReq_frame (hm : memWf s.mem) {src dst : BitVec 32} {otype : BitVec 16} {oid : BitVec 32}
    {pid : BitVec 16} {value : List Byte} (h : writeReq s src dst otype oid pid value = .ok t) :
    (∃ m e v n, t = (s.setCh { s.ch with
      srcAddr := src, dstAddr := dst, objType := otype, objId := oid, propId := pid, serviceId := 2, valueLen := v
      dataLen := n, lastError := e, phase := .encoded }).setMem m ∧
      v.toNat = value.length ∧ n.toNat = 10 + value.length) ∧
    StoresWithin s t s.ch.bufBase.toNat (26 + value.length) := by
  simp only [writeReq, run_bind_eq_ok] at h
  obtain ⟨u1, hstore, u2, hlength, u3, hwrite, hreq⟩ := h
  have hset : StoresWithin s (setRequest s src dst otype oid pid) s.ch.bufBase.toNat (26 + value.length) :=
    .of_mem_eq hm (setRequest_mem s ..) _ _
  have hvalue : StoresWithin _ u1 (s.ch.bufBase.toNat + 24) value.length := storeAt_stores hset.wf hstore
  obtain ⟨-, hu1⟩ := hostStore_cases hstore
  obtain ⟨hfits, hu2⟩ := setValueLength_cases hlength
  have hlen : u2.ch.valueLen.toNat = value.length := by
    rw [hu2]
    exact Nat.mod_eq_of_lt hfits
  have hmem2 : StoresWithin u1 u2 s.ch.bufBase.toNat (26 + value.length) := .of_mem_eq hvalue.wf (by rw [hu2]; rfl) _ _
  have hbase2 : u2.ch.bufBase = s.ch.bufBase := by rw [hu2, hu1]; rfl
  have hprop := encodeWriteOp_stores hmem2.wf hwrite
  have hframe := encodeRequestOp_stores hprop.wf hreq
  obtain ⟨hsum, -, hu3⟩ := encodeWriteOp_cases hwrite
  have hbase3 : u3.ch.bufBase = u2.ch.bufBase := by rw [hu3]; rfl
  have hdata : u3.ch.dataLen.toNat = 10 + value.length := by
    rw [← hlen, ← dataLen_toNat hsum, hu3]
    rfl
  rw [hbase3, hbase2, hdata] at hframe
  rw [hbase2] at hprop
  refine ⟨?_, hset.trans ((hvalue.widen (by omega) (by omega)).trans (hmem2.trans
    ((hprop.widen (by omega) (by omega)).trans (hframe.widen (by omega) (by omega)))))⟩
  obtain ⟨m, e, rfl, -⟩ := encodeRequestOp_frame hreq
  exact ⟨m, e, _, _, by rw [hu3, hu2, hu1]; rfl, hlen, hdata⟩

/-- DECODE_FRAME_HEADER stores nothing (R45). -/
theorem decodeFrameHeaderOp_mem (h : decodeFrameHeaderOp s = .ok t) : t.mem = s.mem := by
  obtain ⟨-, rfl⟩ := decodeFrameHeaderOp_cases h
  rfl

/-- DECODE_FRAME_DATA stores nothing (R45). -/
theorem decodeFrameDataOp_mem (h : decodeFrameDataOp s = .ok t) : t.mem = s.mem := by
  obtain ⟨-, rfl⟩ | ⟨-, -, rfl⟩ := decodeFrameDataOp_cases h
  · rfl
  · rfl

/-- RECV stores the received bytes, the first 14 of them and then the rest (R114). -/
theorem recv_stores (hm : memWf s.mem) {bytes : List Byte} (h : recv s bytes = .ok t) :
    StoresWithin s t s.ch.bufBase.toNat (max 14 bytes.length) := by
  obtain ⟨u, v, hstore, hheader, hrest⟩ := recv_cases h
  have hfirst := storeAt_stores hm hstore
  rw [List.length_take] at hfirst
  have hmem : StoresWithin u v s.ch.bufBase.toNat (max 14 bytes.length) :=
    .of_mem_eq hfirst.wf (decodeFrameHeaderOp_mem hheader) _ _
  have hreceived := (hfirst.widen (by omega) (by omega)).trans hmem
  obtain ⟨-, rfl⟩ | ⟨-, w, hstore', hdata⟩ := hrest
  · exact ⟨hreceived.outside, hreceived.wf⟩
  · have hbase : v.ch.bufBase = s.ch.bufBase := ((keeps_store hstore).trans (keeps_dfh hheader)).base
    have hget : StoresWithin v (getReg v regLastError) s.ch.bufBase.toNat (max 14 bytes.length) :=
      .of_mem_eq hmem.wf (getReg_mem v _) _ _
    have hlast : StoresWithin _ w (v.ch.bufBase.toNat + 14) (bytes.drop 14).length := storeAt_stores hget.wf hstore'
    rw [hbase, List.length_drop] at hlast
    exact hreceived.trans (hget.trans ((hlast.widen (by omega) (by omega)).trans
      (.of_mem_eq hlast.wf (decodeFrameDataOp_mem hdata) _ _)))

/-- A response stores what RECV stores, its property decode nothing (R114). -/
theorem response_stores (hm : memWf s.mem) {bytes : List Byte} {f : State → Run State}
    (hf : ∀ {s t}, f s = .ok t → t.mem = s.mem) (h : (recv s bytes >>= fun s => ifAccepted s f) = .ok t) :
    StoresWithin s t s.ch.bufBase.toNat (max 14 bytes.length) := by
  rw [run_bind_eq_ok] at h
  obtain ⟨u, hrecv, hdec⟩ := h
  have hstores := recv_stores hm hrecv
  refine hstores.trans (.of_mem_eq hstores.wf ?_ _ _)
  obtain ⟨-, hdec⟩ | ⟨-, rfl⟩ := ifAccepted_cases hdec
  · exact (hf hdec).trans (getReg_mem u _)
  · rfl

/-- Either property decode stores nothing (R45). -/
theorem PropDecoded.mem {v : BitVec 32} (h : PropDecoded s t v) : t.mem = s.mem := by
  obtain ⟨-, hmem, -, -⟩ := prop_frame h
  exact hmem

theorem decodeReadPropertyOp_mem (h : decodeReadPropertyOp s = .ok t) : t.mem = s.mem :=
  (decodeReadPropertyOp_cases h).mem

theorem decodeWritePropertyOp_mem (h : decodeWritePropertyOp s = .ok t) : t.mem = s.mem :=
  (decodeWritePropertyOp_cases h).mem

/-- The register clause of a response: what it keeps (R45). -/
theorem KeepsHost.channel (h : KeepsHost s t) : t.ch = { t.ch with
    opA := s.ch.opA, opB := s.ch.opB, bufBase := s.ch.bufBase, capacity := s.ch.capacity
    valueMax := s.ch.valueMax, ckA := s.ch.ckA, ckB := s.ch.ckB } := by
  rw [← h.opA, ← h.opB, ← h.base, ← h.cap, ← h.vmax, ← h.ckA, ← h.ckB]

/-- A response stores no byte outside the stretch that its bytes and its header reach (R114). -/
theorem exec_response_stores (hm : memWf s.mem) {bytes : List Byte} {i : Instr}
    (hi : i = .frameReadResponse bytes ∨ i = .frameWriteResponse bytes ∨ i = .frameErrorResponse bytes)
    (h : exec i s = .next t) : StoresWithin s t s.ch.bufBase.toNat (max 14 bytes.length) := by
  rcases hi with rfl | rfl | rfl
  · exact response_stores hm decodeReadPropertyOp_mem (outcome_eq_next.1 h)
  · exact response_stores hm decodeWritePropertyOp_mem (outcome_eq_next.1 h)
  · exact response_stores hm decodeReadPropertyOp_mem (outcome_eq_next.1 h)

/-- A response keeps the registers of the host and of the binding. -/
theorem exec_response_keeps {bytes : List Byte} {i : Instr}
    (hi : i = .frameReadResponse bytes ∨ i = .frameWriteResponse bytes ∨ i = .frameErrorResponse bytes)
    (h : exec i s = .next t) : KeepsHost s t := by
  rcases hi with rfl | rfl | rfl
  · exact keeps_rsp keeps_decodeRead (outcome_eq_next.1 h)
  · exact keeps_rsp keeps_decodeWrite (outcome_eq_next.1 h)
  · exact keeps_rsp keeps_decodeRead (outcome_eq_next.1 h)

/-- Settles O47: by the frame of each message, run through its operations. -/
theorem messageFrames : Obligations.MessageFrames := by
  intro s t hm
  refine ⟨fun src dst otype oid pid h => ?read, fun src dst otype oid pid value h => ?write,
    fun bytes i hi h => ⟨(exec_response_keeps hi h).channel, (exec_response_stores hm hi h).outside⟩⟩
  case read =>
    obtain ⟨⟨m, e, rfl⟩, hstores⟩ := readReq_frame hm (outcome_eq_next.1 h)
    exact ⟨rfl, rfl, rfl, hstores.outside⟩
  case write =>
    obtain ⟨⟨m, e, v, n, rfl, hvalue, hdata⟩, hstores⟩ := writeReq_frame hm (outcome_eq_next.1 h)
    exact ⟨rfl, hvalue, hdata, rfl, rfl, hstores.outside⟩

end Sys2Proof.Machine
end

section
/-! `LAST_ERROR` is sticky (O40). What every operation but FRAME_INIT and the property decodes does with it: it keeps it,
or it records one of the block's own two codes, neither of which is 0 (R212, R217). -/

namespace Sys2Proof.Machine

variable {s t u : State}

/-- The parameters are as before, and `LAST_ERROR` is kept or records one of the block's codes. -/
structure KeepsError (s t : State) : Prop where
  config : t.config = s.config
  code : t.ch.lastError = s.ch.lastError ∨ t.ch.lastError = s.config.errInvalidFrame ∨
    t.ch.lastError = s.config.errBufferTooSmall

theorem KeepsError.of_eq (hc : t.config = s.config) (he : t.ch.lastError = s.ch.lastError) : KeepsError s t :=
  ⟨hc, .inl he⟩

theorem KeepsError.trans (h : KeepsError s t) (g : KeepsError t u) : KeepsError s u := by
  refine ⟨g.config.trans h.config, ?_⟩
  rw [← h.config]
  rcases g.code with he | he | he
  · rw [he, h.config]
    exact h.code
  · exact .inr (.inl he)
  · exact .inr (.inr he)

/-- The block's codes are not 0, so an error that is kept so stays one (R212). -/
theorem KeepsError.ne_zero (h : KeepsError s t) (hwf : s.config.wf) (h0 : s.ch.lastError ≠ 0) :
    t.ch.lastError ≠ 0 := by
  obtain ⟨-, -, hframe, hbuffer, -⟩ := hwf
  rcases h.code with he | he | he
  · rwa [he]
  · rwa [he]
  · rwa [he]

/-! ### The operations -/

theorem encodeRequestOp_keepsError (h : encodeRequestOp s = .ok t) : KeepsError s t := by
  obtain ⟨m, e, rfl, he⟩ := encodeRequestOp_frame h
  exact ⟨rfl, he.imp id .inr⟩

theorem decodeFrameHeaderOp_keepsError (h : decodeFrameHeaderOp s = .ok t) : KeepsError s t := by
  obtain ⟨-, rfl⟩ := decodeFrameHeaderOp_cases h
  refine ⟨rfl, ?_⟩
  by_cases hbad : headerBad s
  · exact .inr (.inl (if_pos hbad))
  · exact .inl (if_neg hbad)

theorem decodeFrameDataOp_keepsError (h : decodeFrameDataOp s = .ok t) : KeepsError s t := by
  obtain ⟨-, rfl⟩ | ⟨-, -, rfl⟩ := decodeFrameDataOp_cases h
  · exact .of_eq rfl rfl
  · refine ⟨rfl, ?_⟩
    by_cases hbad : dataBad s
    · exact .inr (.inl (if_pos hbad))
    · exact .inl (if_neg hbad)

theorem encodeReadOp_keepsError (h : encodeReadOp s = .ok t) : KeepsError s t := by
  obtain ⟨-, rfl⟩ := encodeReadOp_cases h
  exact .of_eq rfl rfl

theorem encodeWriteOp_keepsError (h : encodeWriteOp s = .ok t) : KeepsError s t := by
  obtain ⟨-, -, rfl⟩ := encodeWriteOp_cases h
  exact .of_eq rfl rfl

/-- A property decode may also record the application's code, which may be 0 (R196, R218). -/
theorem PropDecoded.keepsError {v : BitVec 32} (h : PropDecoded s t v) :
    KeepsError s t ∨ (s.ch.sfError = 1 ∧ s.ch.dataLen.toNat = 12 ∧
      t.ch.lastError = BitVec.ofNat 16 (bufField s 24 2)) := by
  cases h with
  | errorCode herr hlen _ ht => subst ht; exact .inr ⟨herr, hlen, rfl⟩
  | malformed _ _ ht => subst ht; exact .inl ⟨rfl, .inr (.inl rfl)⟩
  | accepted _ _ ht => subst ht; exact .inl (.of_eq rfl rfl)
  | rejected _ ht => subst ht; exact .inl ⟨rfl, .inr (.inr rfl)⟩

/-- A 16-bit field read as a register of that width is 0 only where the field is (R196). -/
theorem bufField_eq_zero {k : Nat} (h : BitVec.ofNat 16 (bufField s k 2) = 0) : bufField s k 2 = 0 := by
  have hlt := bufField_lt s k 2
  have hmod : bufField s k 2 % 65536 = 0 := congrArg BitVec.toNat h
  omega

/-- A property decode makes an error 0 only by an application error code of 0 (R217, R218). -/
theorem PropDecoded.sticky {v : BitVec 32} (h : PropDecoded s t v) (hwf : s.config.wf) (h0 : s.ch.lastError ≠ 0) :
    t.ch.lastError ≠ 0 ∨ (s.ch.sfError = 1 ∧ s.ch.dataLen.toNat = 12 ∧ bufField s 24 2 = 0) := by
  obtain hk | ⟨herr, hlen, hcode⟩ := h.keepsError
  · exact .inl (hk.ne_zero hwf h0)
  · by_cases hz : t.ch.lastError = 0
    · exact .inr ⟨herr, hlen, bufField_eq_zero (hcode ▸ hz)⟩
    · exact .inl hz

/-! ### The messages -/

theorem storeAt_keepsError {k : Nat} {l : List Byte} (h : storeAt s k l = .ok t) : KeepsError s t := by
  obtain ⟨-, rfl⟩ := hostStore_cases h
  exact .of_eq rfl rfl

theorem readReq_keepsError {src dst : BitVec 32} {otype : BitVec 16} {oid : BitVec 32} {pid : BitVec 16}
    (h : readReq s src dst otype oid pid = .ok t) : KeepsError s t := by
  rw [readReq, run_bind_eq_ok] at h
  obtain ⟨u, hread, hreq⟩ := h
  have hset : KeepsError s (setRequest s src dst otype oid pid) := ⟨rfl, .inl rfl⟩
  exact hset.trans ((encodeReadOp_keepsError hread).trans (encodeRequestOp_keepsError hreq))

theorem writeReq_keepsError {src dst : BitVec 32} {otype : BitVec 16} {oid : BitVec 32} {pid : BitVec 16}
    {value : List Byte} (h : writeReq s src dst otype oid pid value = .ok t) : KeepsError s t := by
  simp only [writeReq, run_bind_eq_ok] at h
  obtain ⟨u, hstore, v, hlength, w, hwrite, hreq⟩ := h
  obtain ⟨-, rfl⟩ := setValueLength_cases hlength
  have hset : KeepsError s (setRequest s src dst otype oid pid) := ⟨rfl, .inl rfl⟩
  have hlen : KeepsError u (setValueLen u (BitVec.ofNat 32 value.length)) := ⟨rfl, .inl rfl⟩
  exact hset.trans ((storeAt_keepsError hstore).trans (hlen.trans
    ((encodeWriteOp_keepsError hwrite).trans (encodeRequestOp_keepsError hreq))))

theorem recv_keepsError {bytes : List Byte} (h : recv s bytes = .ok t) : KeepsError s t := by
  obtain ⟨u, v, hstore, hheader, hrest⟩ := recv_cases h
  have hread := (storeAt_keepsError hstore).trans (decodeFrameHeaderOp_keepsError hheader)
  have hget : KeepsError v (getReg v regLastError) := ⟨rfl, .inl rfl⟩
  obtain ⟨-, rfl⟩ | ⟨-, w, hstore', hdata⟩ := hrest
  · exact hread.trans hget
  · exact hread.trans (hget.trans ((storeAt_keepsError hstore').trans (decodeFrameDataOp_keepsError hdata)))

/-- With an error recorded before it a response reaches no property decode, and the error stays (R114, R221). -/
theorem response_sticky {bytes : List Byte} {f : State → Run State} (hwf : s.config.wf) (h0 : s.ch.lastError ≠ 0)
    (h : (recv s bytes >>= fun s => ifAccepted s f) = .ok t) : t.ch.lastError ≠ 0 := by
  rw [run_bind_eq_ok] at h
  obtain ⟨u, hrecv, hdec⟩ := h
  have hu := (recv_keepsError hrecv).ne_zero hwf h0
  obtain ⟨hz, -⟩ | ⟨-, rfl⟩ := ifAccepted_cases hdec
  · exact absurd hz hu
  · exact hu

/-- Settles O40: instruction by instruction; the property decodes' error code is the one exception. -/
theorem lastErrorSticky : Obligations.LastErrorSticky := by
  intro s t i hwf h0 hi h
  have kept : KeepsError s t → t.ch.lastError ≠ 0 := fun hk => hk.ne_zero hwf h0
  cases i with
  | ckInit => cases h; exact .inl h0
  | ckUpdate => cases h; exact .inl h0
  | ckRange =>
    obtain ⟨-, rfl⟩ := ckRangeOp_cases (outcome_eq_next.1 h)
    exact .inl h0
  | frameInit => exact absurd rfl hi
  | encodeRequest => exact .inl (kept (encodeRequestOp_keepsError (outcome_eq_next.1 h)))
  | decodeFrameHeader => exact .inl (kept (decodeFrameHeaderOp_keepsError (outcome_eq_next.1 h)))
  | decodeFrameData => exact .inl (kept (decodeFrameDataOp_keepsError (outcome_eq_next.1 h)))
  | frameLength => cases h; exact .inl h0
  | propInit => cases h; exact .inl h0
  | encodeRead => exact .inl (kept (encodeReadOp_keepsError (outcome_eq_next.1 h)))
  | encodeWrite => exact .inl (kept (encodeWriteOp_keepsError (outcome_eq_next.1 h)))
  | decodeReadProperty =>
    obtain ⟨v, hv⟩ := exec_propDecoded (.inl rfl) h
    exact (hv.sticky hwf h0).imp id fun hcode => ⟨.inl rfl, hcode⟩
  | decodeWriteProperty =>
    obtain ⟨v, hv⟩ := exec_propDecoded (.inr rfl) h
    exact (hv.sticky hwf h0).imp id fun hcode => ⟨.inr rfl, hcode⟩
  | frameReadRequest => exact .inl (kept (readReq_keepsError (outcome_eq_next.1 h)))
  | frameWriteRequest => exact .inl (kept (writeReq_keepsError (outcome_eq_next.1 h)))
  | frameReadResponse => exact .inl (response_sticky hwf h0 (outcome_eq_next.1 h))
  | frameWriteResponse => exact .inl (response_sticky hwf h0 (outcome_eq_next.1 h))
  | frameErrorResponse => exact .inl (response_sticky hwf h0 (outcome_eq_next.1 h))

end Sys2Proof.Machine
end

section
/-! The ports: a step runs the instruction that its access decodes to (O49), and changes no other channel (O55). -/

namespace Sys2Proof.Machine

variable {s s' t : State}

/-- The next access at the port of a channel that exists is fetched there, with that channel selected (R20). -/
theorem fetch_port {c : Nat} {act : Action} {rest : List Access} (hin : s.inbox = .port c act :: rest)
    (hsel : selectChannel c (s.setInbox rest) = some s') : fetch s = fetchAction s' act := by
  rw [fetch, hin]
  simp only [fetchAccess, hsel]

/-- An access at the port of a channel that does not exist faults (R20). -/
theorem fetch_port_none {c : Nat} {act : Action} {rest : List Access} (hin : s.inbox = .port c act :: rest)
    (hsel : selectChannel c (s.setInbox rest) = none) : fetch s = .done (.error (.fault (.noSuchChannel c))) := by
  rw [fetch, hin]
  simp only [fetchAccess, hsel]

/-- The decoder's reading of a table word (R110). -/
theorem decode_of_decodeTableWord {nbits w : Nat} {i : Instr} (h : decodeTableWord nbits w = some i) :
    decode Config.default (tablePacket nbits w) = .ok i := by
  unfold decodeTableWord at h
  cases hd : decode Config.default (tablePacket nbits w) with
  | ok j => rw [hd] at h; exact congrArg Except.ok (Option.some.inj h)
  | error e => rw [hd] at h; cases h

/-- Settles O49: the access is fetched as the instruction it decodes to. -/
theorem stepRunsDecodedInstruction : Obligations.StepRunsDecodedInstruction := by
  refine ⟨fun s s' c act rest p i hin hsel hp hd _ => ?port, selectChannel_self, fun s nbits w i hc hw => ?word⟩
  case port => exact step_of_instr ((fetch_port hin hsel).trans (fetchAction_instr hp hd))
  case word =>
    have hd : decode s.config (tablePacket nbits w) = .ok i := by rw [hc, decode_of_decodeTableWord hw]
    exact step_of_instr ((fetch_atPort s _).trans (fetchAction_instr (packet_tablePacket nbits w) hd))

/-! ### What lies outside the selected channel -/

theorem putReg_sameElsewhere {num : BitVec 8} {w : Nat} {v : BitVec 32} {f : BitVec w → Channel}
    (h : putReg s num w v f = .ok t) : sameElsewhere s t := by
  unfold putReg at h
  split at h
  · cases h; exact sameElsewhere_refl s
  · cases h

/-- A register write stays in the selected channel (R44). -/
theorem setReg_sameElsewhere {num : BitVec 8} {v : BitVec 32} (h : setReg s num v = .ok t) : sameElsewhere s t := by
  unfold setReg at h
  split at h
  case h_1 => cases h
  case h_4 | h_7 | h_9 | h_11 => exact putReg_sameElsewhere h
  all_goals
    cases h
    exact sameElsewhere_refl s

theorem hostLoad_sameElsewhere {a n : Nat} (h : hostLoad s a n = .ok t) : sameElsewhere s t := by
  unfold hostLoad at h
  split at h
  · cases h; exact sameElsewhere_refl s
  · cases h

/-- A plain access at a port stays in the selected channel, the memory and the reply (R20). -/
theorem hostAction_sameElsewhere {act : Action} (h : hostAction s act = .ok t) : sameElsewhere s t := by
  cases act with
  | writeReg num v => exact setReg_sameElsewhere h
  | readReg num => cases h; exact sameElsewhere_refl s
  | store k bytes =>
    obtain ⟨-, rfl⟩ := hostStore_cases h
    exact sameElsewhere_refl s
  | load k m => exact hostLoad_sameElsewhere h
  | message bytes => cases h
  | deviceNotFound => cases h; exact sameElsewhere_refl s
  | responseTimeout => cases h; exact sameElsewhere_refl s
  | portIoFailure k =>
    rw [hostAction] at h
    split at h
    · cases h; exact sameElsewhere_refl s
    · cases h

/-- An instruction stays in the selected channel, the memory, the reply and the draw counter (R20). -/
theorem exec_sameElsewhere {i : Instr} (h : exec i s = .next t) : sameElsewhere s t := by
  obtain ⟨-, -, he⟩ := operandsAndOtherChannelsUnwritten s t i h
  exact he

/-- What the step of a fetched access gives. -/
def Fetched.outcome : Fetched → Host.Outcome State Fault Refusal
  | .instr i s => exec i s
  | .done r => Machine.outcome r

theorem step_eq_fetch (s : State) : step s = (fetch s).outcome := by
  unfold step
  cases fetch s with
  | instr i u => rfl
  | done r => rfl

/-- Whatever is done at a port stays in the selected channel (R20, R226). -/
theorem fetchAction_sameElsewhere {act : Action} (h : (fetchAction s act).outcome = .next t) : sameElsewhere s t := by
  cases hp : act.packet with
  | none =>
    rw [fetchAction_plain hp] at h
    exact hostAction_sameElsewhere (outcome_eq_next.1 h)
  | some p =>
    cases hd : decode s.config p with
    | ok i =>
      rw [fetchAction_instr hp hd] at h
      exact exec_sameElsewhere h
    | error e =>
      rw [fetchAction_rejected hp hd] at h
      cases h

/-- Two states that agree outside the selected channel have the same channels but for that one (R20). -/
theorem sameElsewhere.channels (h : sameElsewhere s t) : t.channels.length = s.channels.length ∧
    ∀ j, j ≠ s.before.length → t.channels[j]? = s.channels[j]? := by
  obtain ⟨-, hbefore, hafter, -⟩ := h
  unfold State.channels
  rw [hbefore, hafter]
  refine ⟨by simp, fun j hj => ?_⟩
  rw [List.getElem?_append, List.getElem?_append]
  split
  · rfl
  · rw [List.getElem?_cons, List.getElem?_cons, if_neg (by omega), if_neg (by omega)]

/-- Settles O55: the channel of the access is selected, which changes none, and the access stays in it. -/
theorem channelsIndependent : Obligations.ChannelsIndependent := by
  intro s t c act rest hin h
  rw [step_eq_fetch] at h
  cases hsel : selectChannel c (s.setInbox rest) with
  | none => rw [fetch_port_none hin hsel] at h; cases h
  | some s' =>
    rw [fetch_port hin hsel] at h
    have he := fetchAction_sameElsewhere h
    obtain ⟨hchannels, -, hnum, heq⟩ := selectChannel_cases hsel
    rw [State.setInbox_channels] at hchannels
    obtain ⟨hlength, hother⟩ := he.channels
    obtain ⟨-, -, -, hinbox⟩ := he
    rw [hchannels] at hlength hother
    rw [hnum] at hother
    exact ⟨hlength, by rw [hinbox, heq]; rfl, hother⟩

end Sys2Proof.Machine
end

section
/-! The register file of R44, as the host reads it (O56) and writes it (O57, O58). -/

namespace Sys2Proof.Machine

variable {s t : State}

/-! ### The table of registers -/

/-- What the host reads under the numbers 0x00 to 0x1C, in order (R44). -/
def regTable (c : Channel) : List (BitVec 33) :=
  [0, c.opA.setWidth 33, c.opB.setWidth 33, c.bufBase.setWidth 33, c.capacity.setWidth 33, c.lastError.setWidth 33,
    c.ffDatalogFile.setWidth 33, c.ffSdFull.setWidth 33, c.ffSdPresent.setWidth 33, c.ffRccReset.setWidth 33,
    c.ffMsgPending.setWidth 33, c.ffReserved.setWidth 33, c.srcAddr.setWidth 33, c.dstAddr.setWidth 33,
    c.sfResponse.setWidth 33, c.sfError.setWidth 33, c.sfReserved.setWidth 33, c.serviceId.setWidth 33,
    c.dataLen.setWidth 33, BitVec.ofNat 33 (frameLength c), c.objType.setWidth 33, c.objId.setWidth 33,
    c.propId.setWidth 33, c.valueLen.setWidth 33, 24, c.valueMax, c.ckA.setWidth 33, c.ckB.setWidth 33,
    (ckSum c).setWidth 33]

theorem length_regTable (c : Channel) : (regTable c).length = 0x1D := rfl

/-- A number that names no register reads 0 (R44). -/
theorem regValue_unassigned (c : Channel) {num : BitVec 8} (h : 0x1D ≤ num.toNat) : regValue c num = 0 := by
  unfold regValue
  split
  case h_29 => rfl
  all_goals omega

/-- The table is what the host reads. -/
theorem regValue_eq_regTable (c : Channel) (num : BitVec 8) : regValue c num = (regTable c).getD num.toNat 0 := by
  by_cases h : 0x1D ≤ num.toNat
  · rw [regValue_unassigned c h, List.getD_eq_default _ _ (by rwa [length_regTable])]
  · have hnum : num = BitVec.ofNat 8 num.toNat := by simp
    generalize num.toNat = k at h hnum
    subst hnum
    interval_cases k <;> rfl

/-! ### Reading -/

/-- A host read, of `FRAME_LEN` or any other register, changes the reply alone (R44, R164). -/
theorem step_readReg (s : State) (num : BitVec 8) :
    step (atPort s (.readReg num)) = .next (s.setReply (.value (regValue s.ch num))) := by
  by_cases h : num = 0x13
  · subst h
    exact step_of_instr ((fetch_atPort s _).trans (fetchAction_instr (p := .regRead 0x13) rfl rfl))
  · exact step_of_done ((fetch_atPort s _).trans (fetchAction_plain (packet_readReg h)))

/-- A register of at most 33 bits is read as the number it holds (R44; log 25). -/
theorem regValue_toNat {c : Channel} {k : BitVec 8} {w : Nat} (x : BitVec w) (h : regValue c k = x.setWidth 33)
    (hw : w ≤ 33 := by decide) {num : BitVec 8} (hnum : num = k) : (regValue c num).toNat = x.toNat := by
  rw [hnum, h, BitVec.toNat_setWidth_of_le hw]

/-- `FRAME_LEN` fits the 33 bits (R31). -/
theorem regValue_frameLen (c : Channel) : (regValue c 0x13).toNat = 14 + c.dataLen.toNat + 2 := by
  have hlt := c.dataLen.isLt
  refine Nat.mod_eq_of_lt ?_
  unfold frameLength
  omega

/-- `CK_SUM` is `CK_B` above `CK_A` (R42). -/
theorem ckSum_toNat (c : Channel) : (ckSum c).toNat = 256 * c.ckB.toNat + c.ckA.toNat := by
  have hlt := c.ckA.isLt
  have hjoin : (ckSum c).toNat = c.ckB.toNat <<< 8 ||| c.ckA.toNat := BitVec.toNat_append _ _
  rw [hjoin, ← Nat.shiftLeft_add_eq_or_of_lt hlt, Nat.shiftLeft_eq]
  omega

/-- Settles O56: the answer is the register's entry of the table. -/
theorem hostReadResult : Obligations.HostReadResult := by
  intro s num
  refine ⟨regValue s.ch num, step_readReg s num, fun h => h ▸ rfl,
    regValue_toNat s.ch.opA rfl, regValue_toNat s.ch.opB rfl, regValue_toNat s.ch.bufBase rfl,
    regValue_toNat s.ch.capacity rfl, regValue_toNat s.ch.lastError rfl, regValue_toNat s.ch.ffDatalogFile rfl,
    regValue_toNat s.ch.ffSdFull rfl, regValue_toNat s.ch.ffSdPresent rfl, regValue_toNat s.ch.ffRccReset rfl,
    regValue_toNat s.ch.ffMsgPending rfl, regValue_toNat s.ch.ffReserved rfl, regValue_toNat s.ch.srcAddr rfl,
    regValue_toNat s.ch.dstAddr rfl, regValue_toNat s.ch.sfResponse rfl, regValue_toNat s.ch.sfError rfl,
    regValue_toNat s.ch.sfReserved rfl, regValue_toNat s.ch.serviceId rfl, regValue_toNat s.ch.dataLen rfl,
    fun h => h ▸ regValue_frameLen s.ch, regValue_toNat s.ch.objType rfl, regValue_toNat s.ch.objId rfl,
    regValue_toNat s.ch.propId rfl, regValue_toNat s.ch.valueLen rfl, fun h => h ▸ rfl, fun h => h ▸ rfl,
    regValue_toNat s.ch.ckA rfl, regValue_toNat s.ch.ckB rfl, fun h => ?_, regValue_unassigned s.ch⟩
  exact (regValue_toNat (ckSum s.ch) rfl (hnum := h)).trans (ckSum_toNat s.ch)

/-! ### Writing -/

/-- A host write of a register but `CMD` is the register file's (R44). -/
theorem step_writeReg (s : State) {num : BitVec 8} (h : num ≠ 0x00) (v : BitVec 32) :
    step (atPort s (.writeReg num v)) = outcome (setReg s num v) :=
  step_of_done ((fetch_atPort s _).trans (fetchAction_plain (packet_writeReg h v)))

/-- The numbers of the registers that the host cannot write, and of those that do not exist (R44). -/
def readOnlyNumber (n : Nat) : Prop :=
  n = 0x03 ∨ n = 0x04 ∨ (0x06 ≤ n ∧ n ≤ 0x0B) ∨ (0x0E ≤ n ∧ n ≤ 0x10) ∨ n = 0x13 ∨ 0x18 ≤ n

theorem setReg_readOnly (s : State) {num : BitVec 8} (v : BitVec 32) (h : readOnlyNumber num.toNat) :
    setReg s num v = .ok s := by
  unfold readOnlyNumber at h
  unfold setReg
  split
  case h_13 => rfl
  all_goals omega

/-- Settles O57: `CMD` is not among these numbers, and the register file ignores them. -/
theorem hostWriteIgnored : Obligations.HostWriteIgnored := by
  intro s num v h
  have hcmd : num ≠ 0x00 := by
    rintro rfl
    revert h
    decide
  rw [step_writeReg s hcmd, setReg_readOnly s v h, outcome_ok]

/-- Channel `d` is `c` with the register `num` reading `x`, and `FRAME_LEN` following from `DATA_LEN` (R31). -/
def RegWritten (c d : Channel) (num : BitVec 8) (x : BitVec 33) : Prop :=
  regTable d = ((regTable c).set num.toNat x).set 0x13 (BitVec.ofNat 33 (frameLength d))

theorem RegWritten.reads_back {c d : Channel} {num : BitVec 8} {x : BitVec 33} (h : RegWritten c d num x)
    (hnum : num.toNat < 0x1D) (hlen : num ≠ 0x13) : regValue d num = x := by
  have hne : 0x13 ≠ num.toNat := fun he => hlen (BitVec.eq_of_toNat_eq he.symm)
  rw [regValue_eq_regTable, h, List.getD_eq_getElem?_getD, List.getElem?_set_ne hne,
    List.getElem?_set_self (by rwa [length_regTable]), Option.getD_some]

theorem RegWritten.reads_other {c d : Channel} {num : BitVec 8} {x : BitVec 33} (h : RegWritten c d num x)
    {other : BitVec 8} (hne : other ≠ num) (hlen : other ≠ 0x13) : regValue d other = regValue c other := by
  have hnum : num.toNat ≠ other.toNat := fun he => hne (BitVec.eq_of_toNat_eq he.symm)
  have hframe : 0x13 ≠ other.toNat := fun he => hlen (BitVec.eq_of_toNat_eq he.symm)
  rw [regValue_eq_regTable, regValue_eq_regTable, h, List.getD_eq_getElem?_getD, List.getElem?_set_ne hframe,
    List.getElem?_set_ne hnum, List.getD_eq_getElem?_getD]

/-- A value that fits a register of `w` bits is written whole (R5). -/
theorem putReg_fits (s : State) (num : BitVec 8) {w : Nat} {v : BitVec 32} (h : v.toNat < 2 ^ w)
    (f : BitVec w → Channel) : putReg s num w v f = .ok (s.setCh (f (v.setWidth w))) := if_pos h

/-- A value that fits `w` bits is not changed by being cut to them. -/
theorem setWidth_fits {w : Nat} {v : BitVec 32} (h : v.toNat < 2 ^ w) (hw : w ≤ 33) :
    (v.setWidth w).setWidth 33 = v.setWidth 33 := by
  apply BitVec.eq_of_toNat_eq
  rw [BitVec.toNat_setWidth_of_le hw, BitVec.toNat_setWidth, Nat.mod_eq_of_lt h,
    BitVec.toNat_setWidth_of_le (by decide)]

theorem setReg_lastError (s : State) (v : BitVec 32) :
    setReg s 0x05 v = putReg s 0x05 16 v fun x => { s.ch with lastError := x } := by rw [setReg.eq_def]; rfl

theorem setReg_serviceId (s : State) (v : BitVec 32) :
    setReg s 0x11 v = putReg s 0x11 8 v fun x => { s.ch with serviceId := x } := by rw [setReg.eq_def]; rfl

/-- The writable registers of 32 bits take any value (R44). -/
theorem setReg_word (s : State) {num : BitVec 8} (v : BitVec 32)
    (h : num.toNat ∈ [0x01, 0x02, 0x0C, 0x0D, 0x12, 0x15, 0x17]) :
    ∃ d, setReg s num v = .ok (s.setCh d) ∧ RegWritten s.ch d num (v.setWidth 33) := by
  have hnum : num = BitVec.ofNat 8 num.toNat := by simp
  generalize num.toNat = k at h hnum
  subst hnum
  fin_cases h
  · exact ⟨{ s.ch with opA := v }, rfl, rfl⟩
  · exact ⟨{ s.ch with opB := v }, rfl, rfl⟩
  · exact ⟨{ s.ch with srcAddr := v }, rfl, rfl⟩
  · exact ⟨{ s.ch with dstAddr := v }, rfl, rfl⟩
  · exact ⟨{ s.ch with dataLen := v }, rfl, rfl⟩
  · exact ⟨{ s.ch with objId := v }, rfl, rfl⟩
  · exact ⟨{ s.ch with valueLen := v }, rfl, rfl⟩

/-- The writable registers of 16 bits take a value that fits them (R44, R5). -/
theorem setReg_half (s : State) {num : BitVec 8} {v : BitVec 32} (h : num.toNat ∈ [0x05, 0x14, 0x16])
    (hv : v.toNat < 2 ^ 16) : ∃ d, setReg s num v = .ok (s.setCh d) ∧ RegWritten s.ch d num (v.setWidth 33) := by
  have hnum : num = BitVec.ofNat 8 num.toNat := by simp
  generalize num.toNat = k at h hnum
  subst hnum
  rw [← setWidth_fits hv (by decide)]
  fin_cases h
  · exact ⟨_, (setReg_lastError s v).trans (putReg_fits s 0x05 hv _), rfl⟩
  · exact ⟨_, (setReg_objType s v).trans (putReg_fits s 0x14 hv _), rfl⟩
  · exact ⟨_, (setReg_propId s v).trans (putReg_fits s 0x16 hv _), rfl⟩

/-- `SERVICE_ID` takes a value that fits its 8 bits (R29, R5). -/
theorem setReg_byte (s : State) {num : BitVec 8} {v : BitVec 32} (h : num.toNat = 0x11)
    (hv : v.toNat < 2 ^ 8) : ∃ d, setReg s num v = .ok (s.setCh d) ∧ RegWritten s.ch d num (v.setWidth 33) := by
  obtain rfl : num = 0x11 := BitVec.eq_of_toNat_eq h
  rw [← setWidth_fits hv (by decide)]
  exact ⟨_, (setReg_serviceId s v).trans (putReg_fits s 0x11 hv _), rfl⟩

/-- What a host write that the register file takes as register `num` does, and what the host then reads. -/
theorem hostWrite_reads {s : State} {num : BitVec 8} {v : BitVec 32} (hcmd : num ≠ 0x00) (hlen : num ≠ 0x13)
    (hnum : num.toNat < 0x1D)
    (h : ∃ d, setReg s num v = .ok (s.setCh d) ∧ RegWritten s.ch d num (v.setWidth 33)) :
    ∃ t, step (atPort s (.writeReg num v)) = .next t ∧
      step (atPort t (.readReg num)) = .next (t.setReply (.value (v.setWidth 33))) ∧
      t.mem = s.mem ∧ sameElsewhere s t ∧
      ∀ other : BitVec 8, other ≠ num → other ≠ 0x13 → regValue t.ch other = regValue s.ch other := by
  obtain ⟨d, hset, hd⟩ := h
  refine ⟨s.setCh d, by rw [step_writeReg s hcmd, hset, outcome_ok], ?_, rfl, sameElsewhere_refl s,
    fun _ => hd.reads_other⟩
  rw [step_readReg, State.setCh_ch, hd.reads_back hnum hlen]

/-- Settles O58: by the width of the register written. -/
theorem hostWriteReadsBack : Obligations.HostWriteReadsBack := by
  intro s num v h
  have hnum : num.toNat ≠ 0x00 ∧ num.toNat ≠ 0x13 ∧ num.toNat < 0x1D := by
    simp only [List.mem_cons, List.not_mem_nil, or_false] at h
    omega
  obtain ⟨hcmd, hlen, hlt⟩ := hnum
  refine hostWrite_reads (fun he => hcmd (by rw [he]; rfl)) (fun he => hlen (by rw [he]; rfl)) hlt ?_
  obtain hword | ⟨hhalf, hv⟩ | ⟨hid, hv⟩ := h
  · exact setReg_word s v hword
  · exact setReg_half s hhalf hv
  · exact setReg_byte s hid hv

end Sys2Proof.Machine
end

section
/-! The machine at reset: the invariant (O52) and the values of the registers (O53). -/

namespace Sys2Proof.Machine

/-- At reset every channel is in its reset state (R50, R226). -/
theorem eq_reset_of_mem_channels {c : Config} {x : Channel} (h : x ∈ (State.resetWith c).channels) :
    x = Channel.reset := by
  have hx : x = Channel.reset ∨ x ∈ List.replicate (c.numChannels - 1) Channel.reset := by
    simpa [State.channels, State.resetWith] using h
  rcases hx with rfl | hx
  · rfl
  · exact List.eq_of_mem_replicate hx

/-- There are as many channels at reset as the parameters ask for, but at least the selected one (R20). -/
theorem length_channels_resetWith (c : Config) :
    (State.resetWith c).channels.length = c.numChannels - 1 + 1 := by
  simp [State.channels, State.resetWith]

theorem resetWith_inv {c : Config} (hc : c.wf) : (State.resetWith c).Inv := by
  have hchannels : 1 ≤ c.numChannels := by
    obtain ⟨-, -, -, -, -, -, -, -, h⟩ := hc
    exact h
  refine ⟨hc, (length_channels_resetWith c).trans (Nat.sub_add_cancel hchannels), fun x hx => ?_, memWf_nil⟩
  rw [eq_reset_of_mem_channels hx]
  decide

/-- Settles O52: the default parameters of R3 are legal. -/
theorem resetMeetsInvariant : Obligations.ResetMeetsInvariant :=
  ⟨resetWith_inv (by decide), fun _ hc => resetWith_inv hc⟩

/-- Settles O53: there is one reset state, and its registers are these. -/
theorem resetValues : Obligations.ResetValues := by
  intro c x hx
  rw [eq_reset_of_mem_channels hx]
  decide

end Sys2Proof.Machine
end

section
/-! No operation looks at or writes a byte outside its channel's buffer (O46): those that store do so where the bound
buffer can be accessed, the others leave the memory, and each runs alike over any memory that agrees in the buffer. -/

namespace Sys2Proof.Machine

variable {s t : State} {i : Instr} {m : List Host.Cell}

/-! ### What an operation writes -/

/-- The operations to which R45 gives no store leave the whole memory. -/
theorem exec_mem_eq (hop : isOperation i = true) (hRequest : i ≠ .encodeRequest) (hRead : i ≠ .encodeRead)
    (hWrite : i ≠ .encodeWrite) (h : exec i s = .next t) : t.mem = s.mem := by
  cases i with
  | ckInit | ckUpdate | frameLength | propInit => cases h; rfl
  | ckRange => obtain ⟨-, rfl⟩ := ckRangeOp_cases (outcome_eq_next.1 h); rfl
  | frameInit => obtain ⟨-, rfl⟩ := frameInitOp_inv (outcome_eq_next.1 h); rfl
  | decodeFrameHeader => exact decodeFrameHeaderOp_mem (outcome_eq_next.1 h)
  | decodeFrameData => exact decodeFrameDataOp_mem (outcome_eq_next.1 h)
  | decodeReadProperty => exact decodeReadPropertyOp_mem (outcome_eq_next.1 h)
  | decodeWriteProperty => exact decodeWritePropertyOp_mem (outcome_eq_next.1 h)
  | encodeRequest => exact absurd rfl hRequest
  | encodeRead => exact absurd rfl hRead
  | encodeWrite => exact absurd rfl hWrite
  | _ => cases hop

/-- ENCODE_REQUEST completes only where its first 16 offsets lie in the buffer, and stores its payload checksum only
where the frame fits (R156). -/
theorem encodeRequestOp_inBuffer (hm : memWf s.mem) (h : encodeRequestOp s = .ok t) :
    sameMemoryOutside s t s.ch.bufBase.toNat s.ch.capacity.toNat := by
  obtain ⟨hspans, -⟩ := encodeRequestOp_cases hm h
  obtain ⟨hcap, -⟩ := spans_bounds hspans (by decide)
  exact fun x hx => encodeRequestOp_outside hm h x (by omega) (by omega)

/-- A store at the accessible offsets 16 to 23 is a store in the buffer (R182). -/
theorem StoresWithin.inBuffer (hspans : spans s 16 8) (h : StoresWithin s t (s.ch.bufBase.toNat + 16) 8) :
    sameMemoryOutside s t s.ch.bufBase.toNat s.ch.capacity.toNat := by
  obtain ⟨hcap, -⟩ := spans_bounds hspans (by decide)
  exact h.outside.widen (by omega) (by omega)

/-- No operation writes a byte outside the buffer it started with (R61). -/
theorem exec_stores_inBuffer (hm : memWf s.mem) (hop : isOperation i = true) (h : exec i s = .next t) :
    sameMemoryOutside s t s.ch.bufBase.toNat s.ch.capacity.toNat := by
  by_cases hRequest : i = .encodeRequest
  · subst hRequest
    exact encodeRequestOp_inBuffer hm (outcome_eq_next.1 h)
  by_cases hRead : i = .encodeRead
  · subst hRead
    obtain ⟨hspans, -⟩ := encodeReadOp_cases (outcome_eq_next.1 h)
    exact (encodeReadOp_stores hm (outcome_eq_next.1 h)).inBuffer hspans
  by_cases hWrite : i = .encodeWrite
  · subst hWrite
    obtain ⟨-, hspans, -⟩ := encodeWriteOp_cases (outcome_eq_next.1 h)
    exact (encodeWriteOp_stores hm (outcome_eq_next.1 h)).inBuffer hspans
  exact .of_mem_eq (exec_mem_eq hop hRequest hRead hWrite h) _ _

/-! ### What an operation reads -/

/-- The outcomes over two memories are alike: the same stop, or next states that differ in their memories at most, which
read alike in the buffer of `s`. -/
inductive AlikeInBuffer (s : State) :
    Host.Outcome State Fault Refusal → Host.Outcome State Fault Refusal → Prop where
  | next {t : State} {m : List Host.Cell}
      (hm : ∀ k < s.ch.capacity.toNat, memGet m (s.ch.bufBase.toNat + k) = memGet t.mem (s.ch.bufBase.toNat + k)) :
      AlikeInBuffer s (.next t) (.next (t.setMem m))
  | fault (r : Fault) : AlikeInBuffer s (.fault r) (.fault r)
  | refused (r : Refusal) : AlikeInBuffer s (.refused r) (.refused r)

theorem AlikeInBuffer.of_error (x : Stop) : AlikeInBuffer s (outcome (.error x)) (outcome (.error x)) := by
  cases x with
  | fault r => exact .fault r
  | refuse r => exact .refused r

/-- A run that looks at no byte outside the buffer has alike outcomes over memories that agree in it. -/
theorem Windowed.alike {f : State → Run State} (hf : Windowed f) (h : Agree s m) :
    AlikeInBuffer s (outcome (f s)) (outcome (f (s.setMem m))) := by
  rcases hf s m h with ⟨x, hs, hm⟩ | ⟨t, m', hs, hm, hagree, hbase, hcap⟩
  · rw [hs, hm]
    exact .of_error x
  · have hsame := hagree.same
    rw [hbase, hcap] at hsame
    rw [hs, hm]
    exact .next hsame

/-- An operation that updates registers or the reply alone is such a run. -/
theorem exec_windowed_of_aside {u : State → State} (hu : Aside u) (h : ∀ s, exec i s = .next (u s)) :
    ∃ f, Windowed f ∧ ∀ s, exec i s = outcome (f s) := ⟨_, .upd hu, h⟩

/-- Every operation but FRAME_INIT, which binds another buffer, is a run that looks at no byte outside the buffer. -/
theorem exec_windowed (hop : isOperation i = true) (hInit : i ≠ .frameInit) :
    ∃ f, Windowed f ∧ ∀ s, exec i s = outcome (f s) := by
  cases i with
  | ckInit =>
    exact exec_windowed_of_aside (u := fun s => setAccumulators s ckStart)
      ⟨fun _ _ => rfl, fun _ => rfl, fun _ => rfl, fun _ => rfl⟩ fun _ => rfl
  | ckUpdate =>
    exact exec_windowed_of_aside (u := fun s => setAccumulators s (ckStep (s.ch.ckA, s.ch.ckB) (ckByte s.ch)))
      ⟨fun _ _ => rfl, fun _ => rfl, fun _ => rfl, fun _ => rfl⟩ fun _ => rfl
  | ckRange => exact ⟨_, windowed_ckRangeOp, fun _ => rfl⟩
  | frameInit => exact absurd rfl hInit
  | encodeRequest => exact ⟨_, windowed_encodeRequestOp, fun _ => rfl⟩
  | decodeFrameHeader => exact ⟨_, windowed_decodeFrameHeaderOp, fun _ => rfl⟩
  | decodeFrameData => exact ⟨_, windowed_decodeFrameDataOp, fun _ => rfl⟩
  | frameLength =>
    exact exec_windowed_of_aside (u := fun s => s.setReply (.value (BitVec.ofNat 33 (frameLength s.ch))))
      ⟨fun _ _ => rfl, fun _ => rfl, fun _ => rfl, fun _ => rfl⟩ fun _ => rfl
  | propInit =>
    exact exec_windowed_of_aside (u := fun s => s.setCh { s.ch with valueMax := valueMaxOf s.ch.capacity })
      ⟨fun _ _ => rfl, fun _ => rfl, fun _ => rfl, fun _ => rfl⟩ fun _ => rfl
  | encodeRead => exact ⟨_, windowed_encodeReadOp, fun _ => rfl⟩
  | encodeWrite => exact ⟨_, windowed_encodeWriteOp, fun _ => rfl⟩
  | decodeReadProperty => exact ⟨_, windowed_decodeReadPropertyOp, fun _ => rfl⟩
  | decodeWriteProperty => exact ⟨_, windowed_decodeWritePropertyOp, fun _ => rfl⟩
  | _ => cases hop

/-- A buffer that runs past the top of `MEM` is refused (R152). -/
theorem frameInitOp_pastTop (h : ¬ s.ch.opA.toNat + s.ch.opB.toNat ≤ memSize) :
    frameInitOp s = .error (.refuse (.bufferPastTop s.ch.opA s.ch.opB)) := if_neg h

/-- FRAME_INIT touches no byte (R150). -/
theorem frameInitOp_alike (h : Agree s m) :
    AlikeInBuffer s (outcome (frameInitOp s)) (outcome (frameInitOp (s.setMem m))) := by
  by_cases hfits : s.ch.opA.toNat + s.ch.opB.toNat ≤ memSize
  · rw [frameInitOp_ok hfits, frameInitOp_ok (s := s.setMem m) hfits]
    exact .next (t := (s.setCh (initChannel s)).addDraws 13) h.same
  · rw [frameInitOp_pastTop hfits, frameInitOp_pastTop (s := s.setMem m) hfits]
    exact .refused _

/-- Over a memory that agrees in the buffer an operation does the same (R61). -/
theorem exec_alike (hop : isOperation i = true) (h : Agree s m) : AlikeInBuffer s (exec i s) (exec i (s.setMem m)) := by
  by_cases hInit : i = .frameInit
  · subst hInit
    exact frameInitOp_alike h
  · obtain ⟨f, hf, hexec⟩ := exec_windowed hop hInit
    rw [hexec, hexec]
    exact hf.alike h

/-- Settles O46: by what an operation writes, and by what it does over a memory that agrees in the buffer. -/
theorem storesStayInBuffer : Obligations.StoresStayInBuffer := by
  intro s i hm hop inBuffer
  refine ⟨fun t h => ⟨exec_stores_inBuffer hm hop h, fun hRequest hRead hWrite =>
    exec_mem_eq hop hRequest hRead hWrite h⟩, fun m hm' hsame => ?_⟩
  have halike := exec_alike hop ⟨hm, hm', fun k hk => hsame _ ⟨by omega, by omega⟩⟩
  generalize exec i s = o, exec i (s.setMem m) = o' at halike ⊢
  cases halike with
  | @next t m' hread =>
    refine ⟨t.setMem m', rfl, rfl, fun a ⟨hlow, hhigh⟩ => ?_⟩
    obtain ⟨k, rfl⟩ := Nat.exists_eq_add_of_le hlow
    exact hread k (by omega)
  | fault r => rfl
  | refused r => rfl

end Sys2Proof.Machine
end

section
/-! The stores and loads of the host and the transport, by buffer offset and by address (O59). -/

namespace Sys2Proof.Machine

variable {s : State}

/-! ### The access that a step takes -/

theorem step_store (s : State) (k : Nat) (bytes : List Byte) :
    step (atPort s (.store k bytes)) = outcome (hostStore s (s.ch.bufBase.toNat + k) bytes) :=
  step_of_done ((fetch_atPort s _).trans (fetchAction_plain rfl))

theorem step_load (s : State) (k n : Nat) :
    step (atPort s (.load k n)) = outcome (hostLoad s (s.ch.bufBase.toNat + k) n) :=
  step_of_done ((fetch_atPort s _).trans (fetchAction_plain rfl))

theorem step_memStore (s : State) (addr : Nat) (bytes : List Byte) :
    step (s.setInbox (.memStore addr bytes :: s.inbox)) = outcome (hostStore s addr bytes) :=
  step_of_done rfl

theorem step_memLoad (s : State) (addr n : Nat) :
    step (s.setInbox (.memLoad addr n :: s.inbox)) = outcome (hostLoad s addr n) :=
  step_of_done rfl

/-! ### What the access does -/

/-- A store that runs past the top of `MEM` faults (log 15). -/
theorem hostStore_pastTop {addr : Nat} {bytes : List Byte} (h : ¬ addr + bytes.length ≤ memSize) (hne : bytes ≠ []) :
    hostStore s addr bytes = .error (.fault (.noSuchAddress (addr + bytes.length - 1))) :=
  if_neg (not_or.2 ⟨h, hne⟩)

theorem hostLoad_ok {addr n : Nat} (h : addr + n ≤ memSize) :
    hostLoad s addr n = .ok (s.setReply (.bytes (memLoadBytes s.mem addr n))) :=
  if_pos (Or.inl h)

/-- A load that runs past the top of `MEM` faults (log 15). -/
theorem hostLoad_pastTop {addr n : Nat} (h : ¬ addr + n ≤ memSize) (hne : n ≠ 0) :
    hostLoad s addr n = .error (.fault (.noSuchAddress (addr + n - 1))) :=
  if_neg (not_or.2 ⟨h, hne⟩)

theorem getD_memLoadBytes (m : List Host.Cell) {addr n j : Nat} (h : j < n) :
    (memLoadBytes m addr n).getD j 0 = memGet m (addr + j) := by
  rw [List.getD_eq_getElem?_getD, getElem_memLoadBytes m addr n j h, Option.getD_some]

/-- Settles O59: an access by offset is one by its address, and that is done in `MEM` or faults whole. -/
theorem hostStoreResult : Obligations.HostStoreResult := by
  intro s hm base stored loaded
  have hstore (addr : Nat) (bytes : List Byte) : stored (outcome (hostStore s addr bytes)) addr bytes := by
    simp only [stored]
    split
    · next hfits =>
      exact ⟨_, outcome_of_ok (hostStore_ok (Or.inl hfits)), rfl, sameElsewhere_refl s, rfl, rfl,
        fun a => memGet_store hm bytes addr a hfits⟩
    · next hpast => exact fun hne => congrArg outcome (hostStore_pastTop hpast hne)
  have hload (addr n : Nat) : loaded (outcome (hostLoad s addr n)) addr n := by
    simp only [loaded]
    split
    · next hfits =>
      exact ⟨_, outcome_of_ok (hostLoad_ok hfits), length_memLoadBytes s.mem addr n,
        fun j hj => getD_memLoadBytes s.mem hj⟩
    · next hpast => exact fun hne => congrArg outcome (hostLoad_pastTop hpast hne)
  refine ⟨fun k bytes => ?_, fun addr bytes => ?_, fun k n => ?_, fun addr n => ?_⟩
  · rw [step_store]; exact hstore (base + k) bytes
  · rw [step_memStore]; exact hstore addr bytes
  · rw [step_load]; exact hload (base + k) n
  · rw [step_memLoad]; exact hload addr n

end Sys2Proof.Machine
end

section
/-! The decoder and the encoder (R91, R107, R110): decoding after encoding (O1), encoding after decoding (O2), the
reserved command codes (O4) and the words of the opcode table (O3). -/

namespace Sys2Proof.Machine

/-! ### Fields of a frame image -/

/-- A field that begins behind a first part of the image is a field of the rest. -/
theorem fieldAt_append_right {pre l : List Byte} {k n : Nat} (h : pre.length ≤ k) :
    fieldAt (pre ++ l) k n = fieldAt l (k - pre.length) n := by
  rw [fieldAt, fieldAt, List.drop_append, List.drop_eq_nil_of_le h, List.nil_append]

/-- A number stored as a field is read back, but for the bits that the field does not hold (R108). -/
theorem fieldAt_leBytes (n v : Nat) (l : List Byte) : fieldAt (leBytes n v ++ l) 0 n = v % 256 ^ n := by
  rw [fieldAt, List.drop_zero, List.take_left' (length_leBytes n v), leNat_leBytes]

/-- A field stored behind `k` bytes of the image. -/
theorem fieldAt_of_eq {bytes pre l : List Byte} {k n v : Nat} (h : bytes = pre ++ (leBytes n v ++ l))
    (hk : pre.length = k) : fieldAt bytes k n = v % 256 ^ n := by
  rw [h, fieldAt_append_right hk.le, hk, Nat.sub_self, fieldAt_leBytes]

/-- A register stored as a field of its width is read back (R108). -/
theorem ofNat_fieldAt {bytes pre l : List Byte} {k n w : Nat} {x : BitVec w}
    (h : bytes = pre ++ (leBytes n x.toNat ++ l)) (hk : pre.length = k) (hw : 2 ^ w ≤ 256 ^ n := by decide) :
    BitVec.ofNat w (fieldAt bytes k n) = x := by
  rw [fieldAt_of_eq h hk, ← leNat_leBytes, ofNat_leNat_leBytes n w x hw]

/-! ### The image of a request -/

section
variable (sm : Byte) (src dst : BitVec 32) (sid : Byte) (otype : BitVec 16) (oid : BitVec 32) (pid : BitVec 16)
  (value : List Byte)

theorem length_requestFrame : (requestFrame sm src dst sid otype oid pid value).length = 26 + value.length := by
  simp [requestFrame, requestPayload]
  omega

/-- The selector of a request is a zero flags byte and its service id (R97). -/
theorem sflagsByte_requestFrame : sflagsByte (requestFrame sm src dst sid otype oid pid value) = 0 := by
  simp [sflagsByte, requestFrame, requestPayload, List.getD_eq_getElem?_getD]

theorem sidByte_requestFrame : sidByte (requestFrame sm src dst sid otype oid pid value) = sid := by
  rw [sidByte, requestFrame, requestPayload, List.append_assoc, List.getD_eq_getElem?_getD,
    List.getElem?_append_right (by simp)]
  simp

theorem imageSrc_requestFrame : imageSrc (requestFrame sm src dst sid otype oid pid value) = src :=
  ofNat_fieldAt (pre := [sm, 0]) (by simp [requestFrame, requestHeader, headerRange]; rfl) rfl

theorem imageDst_requestFrame : imageDst (requestFrame sm src dst sid otype oid pid value) = dst :=
  ofNat_fieldAt (pre := [sm, 0] ++ leBytes 4 src.toNat) (by simp [requestFrame, requestHeader, headerRange]; rfl)
    (by simp)

/-- The length field of a request counts its payload where 16 bits can (R100, R250). -/
theorem imageLen_requestFrame (h : value.length ≤ 65525) :
    imageLen (requestFrame sm src dst sid otype oid pid value) = 10 + value.length := by
  have hfield : imageLen (requestFrame sm src dst sid otype oid pid value) = (10 + value.length) % 256 ^ 2 :=
    fieldAt_of_eq (pre := [sm, 0] ++ leBytes 4 src.toNat ++ leBytes 4 dst.toNat)
      (by simp [requestFrame, requestHeader, headerRange]; rfl) (by simp)
  omega

theorem imageOtype_requestFrame : imageOtype (requestFrame sm src dst sid otype oid pid value) = otype :=
  ofNat_fieldAt (pre := requestHeader sm src dst (10 + value.length) ++ [0, sid])
    (by simp [requestFrame, requestPayload, propHeader]; rfl) (by simp)

theorem imageOid_requestFrame : imageOid (requestFrame sm src dst sid otype oid pid value) = oid :=
  ofNat_fieldAt (pre := requestHeader sm src dst (10 + value.length) ++ [0, sid] ++ leBytes 2 otype.toNat)
    (by simp [requestFrame, requestPayload, propHeader]; rfl) (by simp)

theorem imagePid_requestFrame : imagePid (requestFrame sm src dst sid otype oid pid value) = pid :=
  ofNat_fieldAt
    (pre := requestHeader sm src dst (10 + value.length) ++ [0, sid] ++ leBytes 2 otype.toNat ++ leBytes 4 oid.toNat)
    (by simp [requestFrame, requestPayload, propHeader]; rfl) (by simp)

/-- The value of a request stands behind its header, its service header and its property header (R104). -/
theorem imageValue_requestFrame (h : value.length ≤ 65525) :
    imageValue (requestFrame sm src dst sid otype oid pid value) = value := by
  have hparts : requestFrame sm src dst sid otype oid pid value =
      (requestHeader sm src dst (10 + value.length) ++ [0, sid] ++ propHeader otype oid pid) ++
        (value ++ leBytes 2 (cksum (requestPayload sid otype oid pid value)).toNat) := by
    simp [requestFrame, requestPayload]
  rw [imageValue, imageLen_requestFrame _ _ _ _ _ _ _ _ h, hparts, List.drop_left' (by simp),
    List.take_left' (by omega)]

/-- The image of a read request is decoded to it (R107). -/
theorem decodeFrame_readRequest (c : Config) :
    decodeFrame c (requestFrame sm src dst Config.serviceRead otype oid pid value) =
      .ok (.frameReadRequest src dst otype oid pid) := by
  have hlen := length_requestFrame sm src dst Config.serviceRead otype oid pid value
  have hshape : shapeOf c.sflags 0 Config.serviceRead = some .readRequest := rfl
  rw [decodeFrame, sflagsByte_requestFrame, sidByte_requestFrame, hshape, if_neg (by omega)]
  dsimp only
  rw [if_neg (by omega), imageSrc_requestFrame, imageDst_requestFrame, imageOtype_requestFrame,
    imageOid_requestFrame, imagePid_requestFrame]

/-- The image of a write request is decoded to it, where the length field can describe its value (R107, R250). -/
theorem decodeFrame_writeRequest (c : Config) (h : value.length ≤ 65525) :
    decodeFrame c (requestFrame sm src dst Config.serviceWrite otype oid pid value) =
      .ok (.frameWriteRequest src dst otype oid pid value) := by
  have hlen := length_requestFrame sm src dst Config.serviceWrite otype oid pid value
  have hshape : shapeOf c.sflags 0 Config.serviceWrite = some .writeRequest := rfl
  rw [decodeFrame, sflagsByte_requestFrame, sidByte_requestFrame, hshape, if_neg (by omega)]
  dsimp only
  rw [if_neg (by omega), imageSrc_requestFrame, imageDst_requestFrame, imageOtype_requestFrame,
    imageOid_requestFrame, imagePid_requestFrame, imageValue_requestFrame _ _ _ _ _ _ _ _ h]

end

/-! ### What the decoder can answer -/

variable {c : Config} {bytes : List Byte} {i : Instr}

/-- A message is well formed as a shape where it holds its selector and that names the shape (R107). -/
theorem messageWf_iff {sh : Shape} : messageWf c sh bytes = true ↔
    16 ≤ bytes.length ∧ shapeOf c.sflags (sflagsByte bytes) (sidByte bytes) = some sh := by
  simp [messageWf]

/-- A well-formed response is decoded to the row that its selector names, with the bytes as received (R107). -/
theorem decodeFrame_readResponse (h : messageWf c .readResponse bytes = true) :
    decodeFrame c bytes = .ok (.frameReadResponse bytes) := by
  obtain ⟨hlen, hshape⟩ := messageWf_iff.1 h
  rw [decodeFrame, if_neg (Nat.not_lt.2 hlen), hshape]

theorem decodeFrame_writeResponse (h : messageWf c .writeResponse bytes = true) :
    decodeFrame c bytes = .ok (.frameWriteResponse bytes) := by
  obtain ⟨hlen, hshape⟩ := messageWf_iff.1 h
  rw [decodeFrame, if_neg (Nat.not_lt.2 hlen), hshape]

theorem decodeFrame_errorResponse (h : messageWf c .errorResponse bytes = true) :
    decodeFrame c bytes = .ok (.frameErrorResponse bytes) := by
  obtain ⟨hlen, hshape⟩ := messageWf_iff.1 h
  rw [decodeFrame, if_neg (Nat.not_lt.2 hlen), hshape]

/-- Settles O1: a request's fields stand in its image where the decoder reads them, a response is its own image, and
the other rows have one code each. -/
theorem decodeOfEncode : Obligations.DecodeOfEncode := by
  intro c i h
  cases i with
  | frameReadRequest src dst otype oid pid => exact decodeFrame_readRequest _ src dst otype oid pid [] c
  | frameWriteRequest src dst otype oid pid value =>
    exact decodeFrame_writeRequest _ src dst otype oid pid value c (of_decide_eq_true h)
  | frameReadResponse bytes => exact decodeFrame_readResponse h
  | frameWriteResponse bytes => exact decodeFrame_writeResponse h
  | frameErrorResponse bytes => exact decodeFrame_errorResponse h
  | _ => rfl

/-- The message that `bytes` are decoded to: a response of their shape, with them as its bytes, or a request with the
fields that stand in them (R107). -/
inductive FrameDecoded (c : Config) (bytes : List Byte) : Instr → Prop where
  | readResponse (h : messageWf c .readResponse bytes = true) : FrameDecoded c bytes (.frameReadResponse bytes)
  | writeResponse (h : messageWf c .writeResponse bytes = true) : FrameDecoded c bytes (.frameWriteResponse bytes)
  | errorResponse (h : messageWf c .errorResponse bytes = true) : FrameDecoded c bytes (.frameErrorResponse bytes)
  | readRequest (h : sflagsByte bytes = 0) : FrameDecoded c bytes (.frameReadRequest (imageSrc bytes) (imageDst bytes)
      (imageOtype bytes) (imageOid bytes) (imagePid bytes))
  | writeRequest (h : sflagsByte bytes = 0) : FrameDecoded c bytes (.frameWriteRequest (imageSrc bytes)
      (imageDst bytes) (imageOtype bytes) (imageOid bytes) (imagePid bytes) (imageValue bytes))

/-- A request has an all-zero service flags byte (R98). -/
theorem sflags_eq_zero_of_request {l : SFlagsLayout} {sflags sid : Byte} {sh : Shape}
    (h : shapeOf l sflags sid = some sh) (hsh : sh = .readRequest ∨ sh = .writeRequest) : sflags = 0 := by
  by_contra hne
  rw [shapeOf, if_neg hne] at h
  split_ifs at h <;> cases h <;> simp at hsh

/-- The decoder's answer to a message, by the shape that its selector names (R107). -/
theorem frameDecoded_of_decode (h : decodeFrame c bytes = .ok i) : FrameDecoded c bytes i := by
  unfold decodeFrame at h
  split at h
  · cases h
  rename_i hlen
  have hwf {sh : Shape} (hshape : shapeOf c.sflags (sflagsByte bytes) (sidByte bytes) = some sh) :
      messageWf c sh bytes = true := messageWf_iff.2 ⟨Nat.not_lt.1 hlen, hshape⟩
  split at h
  case h_1 => cases h
  case h_2 hshape => cases h; exact .readResponse (hwf hshape)
  case h_3 hshape => cases h; exact .writeResponse (hwf hshape)
  case h_4 hshape => cases h; exact .errorResponse (hwf hshape)
  case h_5 hshape =>
    split at h
    · cases h
    · cases h; exact .readRequest (sflags_eq_zero_of_request hshape (.inl rfl))
  case h_6 hshape =>
    split at h
    · cases h
    · cases h; exact .writeRequest (sflags_eq_zero_of_request hshape (.inr rfl))

/-- The value read from an image has a length that the length field can describe (R100, R250). -/
theorem length_imageValue_le (bytes : List Byte) : (imageValue bytes).length ≤ 65525 := by
  have hfield := imageLen_lt bytes
  have htake : (imageValue bytes).length ≤ imageLen bytes - 10 := List.length_take_le _ _
  omega

/-- What a message is decoded to is well formed. -/
theorem FrameDecoded.wf (h : FrameDecoded c bytes i) : i.wf c = true := by
  cases h with
  | readResponse h => exact h
  | writeResponse h => exact h
  | errorResponse h => exact h
  | readRequest _ => rfl
  | writeRequest _ => exact decide_eq_true (length_imageValue_le bytes)

/-- A message whose service flags are not all 0 is a response, and its own image. -/
theorem FrameDecoded.encode_eq (h : FrameDecoded c bytes i) (hflags : sflagsByte bytes ≠ 0) :
    encode c i = .frame bytes := by
  cases h with
  | readResponse _ => rfl
  | writeResponse _ => rfl
  | errorResponse _ => rfl
  | readRequest h => exact absurd h hflags
  | writeRequest h => exact absurd h hflags

/-- An operation's only code is the one it was decoded from (R110). -/
theorem encode_of_decodeCmd {code : BitVec 8} (h : decodeCmd code = .ok i) :
    i.wf c = true ∧ encode c i = .cmd code := by
  unfold decodeCmd at h
  split at h
  case h_13 => cases h
  all_goals
    rename_i hcode
    cases h
    exact ⟨rfl, congrArg Packet.cmd (BitVec.eq_of_toNat_eq hcode.symm)⟩

/-- FRAME_LENGTH is the read of register 0x13 and of no other (R110). -/
theorem encode_of_decodeRegRead {num : BitVec 8} (h : decodeRegRead num = .ok i) :
    i.wf c = true ∧ encode c i = .regRead num := by
  unfold decodeRegRead at h
  split at h
  · rename_i hnum
    cases h
    exact ⟨rfl, congrArg Packet.regRead hnum.symm⟩
  · cases h

/-- Settles O2: by the packet, and by what the decoder can answer to it. -/
theorem encodeOfDecode : Obligations.EncodeOfDecode := by
  intro c p i h
  cases p with
  | cmd code =>
    obtain ⟨hwf, henc⟩ := encode_of_decodeCmd (c := c) h
    exact ⟨hwf, fun _ => henc, fun _ hp _ => by cases hp⟩
  | regRead num =>
    obtain ⟨hwf, henc⟩ := encode_of_decodeRegRead (c := c) h
    exact ⟨hwf, fun _ => henc, fun _ hp _ => by cases hp⟩
  | frame bytes =>
    have hdec := frameDecoded_of_decode h
    refine ⟨hdec.wf, fun hformat => absurd rfl hformat, fun l hl hflags => ?_⟩
    cases hl
    exact hdec.encode_eq hflags

/-! ### The reserved command codes -/

/-- The command codes that the table gives no operation (R112). -/
def reservedCode (n : Nat) : Prop :=
  n = 0x00 ∨ (0x05 ≤ n ∧ n ≤ 0x07) ∨ (0x0D ≤ n ∧ n ≤ 0x0F) ∨ 0x13 ≤ n

/-- A reserved code is rejected by name (R112). -/
theorem decodeCmd_reserved {code : BitVec 8} (h : reservedCode code.toNat) :
    decodeCmd code = .error (.reservedCommand code) := by
  unfold reservedCode at h
  unfold decodeCmd
  split
  case h_13 => rfl
  all_goals omega

/-- A code that is not reserved is an operation's (R110, R112). -/
theorem exists_decodeCmd {code : BitVec 8} (h : ¬ reservedCode code.toNat) : ∃ i, decodeCmd code = .ok i := by
  unfold reservedCode at h
  unfold decodeCmd
  split
  case h_13 => simp only [imp_false] at *; omega
  all_goals exact ⟨_, rfl⟩

/-- Settles O4: the decoder rejects the reserved codes by name, and the step makes that its refusal. -/
theorem reservedCommandsRefused : Obligations.ReservedCommandsRefused := by
  intro s code reserved
  refine ⟨⟨fun ⟨i, hi⟩ hres => ?_, exists_decodeCmd⟩, fun hres => ?_⟩
  · have hrejected : decode s.config (.cmd code) = .error (.reservedCommand code) := decodeCmd_reserved hres
    rw [hrejected] at hi
    cases hi
  · exact step_of_done ((fetch_atPort s _).trans
      (fetchAction_rejected (packet_cmd code) (decodeCmd_reserved hres)))

/-- Settles O3: the decoder evaluates on each word. -/
theorem tableWordsDecode : Obligations.TableWordsDecode :=
  ⟨rfl, rfl, rfl, rfl, rfl, rfl, rfl, rfl, rfl, rfl, rfl, rfl, rfl, rfl, rfl, rfl, rfl, rfl, rfl⟩

end Sys2Proof.Machine
end

section
/-! The flag bytes (O5). Under any layout the bits are those of the default layout after a permutation of the byte, and
under the default layout the fields are the byte's own parts. -/

namespace Sys2Proof.Machine

/-! ### A byte with its bits moved -/

/-- The byte whose bit `k` is bit `p k` of `b`. -/
def movedBits (p : Fin 8 → Fin 8) (b : Byte) : Byte := BitVec.ofFnLE fun k => b.getLsbD (p k)

theorem getLsbD_movedBits (p : Fin 8 → Fin 8) (b : Byte) (k : Fin 8) :
    (movedBits p b).getLsbD k = b.getLsbD (p k) := by
  rw [movedBits, BitVec.getLsbD_ofFnLE, dif_pos k.isLt]

theorem bitAt_movedBits (p : Fin 8 → Fin 8) (b : Byte) (k : Fin 8) : bitAt (movedBits p b) k = bitAt b (p k) :=
  congrArg BitVec.ofBool (getLsbD_movedBits p b k)

/-- Moving the bits to where `q` takes them from brings them back. -/
theorem movedBits_movedBits {p q : Fin 8 → Fin 8} (h : ∀ k, q (p k) = k) (b : Byte) :
    movedBits p (movedBits q b) = b := by
  apply BitVec.eq_of_getLsbD_eq
  intro k hk
  rw [getLsbD_movedBits p _ ⟨k, hk⟩, getLsbD_movedBits, h]

/-- Moving the bits by a permutation loses none. -/
theorem movedBits_bijective {p : Fin 8 → Fin 8} (hp : Function.Injective p) : Function.Bijective (movedBits p) := by
  obtain ⟨q, hleft, hright⟩ := Function.bijective_iff_has_inverse.1 (Finite.injective_iff_bijective.1 hp)
  exact Function.bijective_iff_has_inverse.2 ⟨movedBits q, movedBits_movedBits hright, movedBits_movedBits hleft⟩

/-- The positions of a layout, each bit once, are a permutation (R3). -/
theorem get_injective_of_nodup {l : List (Fin 8)} (hl : l.length = 8) (h : l.Nodup) :
    Function.Injective fun k : Fin 8 => l.get (k.cast hl.symm) := fun _ _ he =>
  Fin.cast_injective _ (List.nodup_iff_injective_get.1 h he)

/-! ### The default layouts -/

/-- A bit of a byte is its one-bit part there. -/
theorem bitAt_eq_extractLsb' (b : Byte) (i : Fin 8) : bitAt b i = b.extractLsb' i 1 := by
  apply BitVec.eq_of_getLsbD_eq
  intro k hk
  obtain rfl : k = 0 := by omega
  simp [bitAt]

/-- The default frame-flags layout takes the parts that R96 lists. -/
theorem unpackFf_default (b : Byte) : unpackFf FFlagsLayout.default b =
    { msgPending := b.extractLsb' 0 1, rccReset := b.extractLsb' 1 1, sdPresent := b.extractLsb' 2 1
      sdFull := b.extractLsb' 3 1, datalogFile := b.extractLsb' 4 1, reserved := b.extractLsb' 5 3 } := by
  simp only [unpackFf, bitAt_eq_extractLsb', FFlagsLayout.default]
  rw [BitVec.extractLsb'_append_extractLsb'_eq_extractLsb' (by rfl),
    BitVec.extractLsb'_append_extractLsb'_eq_extractLsb' (by rfl)]
  rfl

/-- The default service-flags layout takes the parts that R99 lists. -/
theorem unpackSf_default (b : Byte) : unpackSf SFlagsLayout.default b =
    { error := b.extractLsb' 0 1, response := b.extractLsb' 1 1, reserved := b.extractLsb' 2 6 } := by
  simp only [unpackSf, bitAt_eq_extractLsb', SFlagsLayout.default]
  iterate 5 rw [BitVec.extractLsb'_append_extractLsb'_eq_extractLsb' (by rfl)]
  rfl

/-- The byte whose parts are the six frame flags (R96). -/
def packFf (f : FrameFlags) : Byte :=
  f.reserved ++ f.datalogFile ++ f.sdFull ++ f.sdPresent ++ f.rccReset ++ f.msgPending

/-- The byte whose parts are the three service flags (R99). -/
def packSf (f : ServiceFlags) : Byte := f.reserved ++ f.response ++ f.error

theorem packFf_unpackFf_default (b : Byte) : packFf (unpackFf FFlagsLayout.default b) = b := by
  rw [unpackFf_default, packFf]
  iterate 5 rw [BitVec.extractLsb'_append_extractLsb'_eq_extractLsb' (by rfl)]
  exact BitVec.extractLsb'_eq_self

theorem packSf_unpackSf_default (b : Byte) : packSf (unpackSf SFlagsLayout.default b) = b := by
  rw [unpackSf_default, packSf]
  iterate 2 rw [BitVec.extractLsb'_append_extractLsb'_eq_extractLsb' (by rfl)]
  exact BitVec.extractLsb'_eq_self

/-- A joined word tells its two parts. -/
theorem append_parts {v w : Nat} {a c : BitVec v} {b d : BitVec w} (h : a ++ b = c ++ d) : a = c ∧ b = d := by
  have hhigh := congrArg (BitVec.extractLsb' w v) h
  have hlow := congrArg (BitVec.extractLsb' 0 w) h
  rw [BitVec.extractLsb'_append_eq_left, BitVec.extractLsb'_append_eq_left] at hhigh
  rw [BitVec.extractLsb'_append_eq_right, BitVec.extractLsb'_append_eq_right] at hlow
  exact ⟨hhigh, hlow⟩

theorem packFf_injective : Function.Injective packFf := by
  rintro ⟨_, _, _, _, _, _⟩ ⟨_, _, _, _, _, _⟩ h
  obtain ⟨h, rfl⟩ := append_parts h
  obtain ⟨h, rfl⟩ := append_parts h
  obtain ⟨h, rfl⟩ := append_parts h
  obtain ⟨h, rfl⟩ := append_parts h
  obtain ⟨rfl, rfl⟩ := append_parts h
  rfl

theorem packSf_injective : Function.Injective packSf := by
  rintro ⟨_, _, _⟩ ⟨_, _, _⟩ h
  obtain ⟨h, rfl⟩ := append_parts h
  obtain ⟨rfl, rfl⟩ := append_parts h
  rfl

theorem unpackFf_default_bijective : Function.Bijective (unpackFf FFlagsLayout.default) := by
  have hpack : Function.LeftInverse packFf (unpackFf FFlagsLayout.default) := packFf_unpackFf_default
  exact Function.bijective_iff_has_inverse.2 ⟨packFf, hpack, hpack.rightInverse_of_injective packFf_injective⟩

theorem unpackSf_default_bijective : Function.Bijective (unpackSf SFlagsLayout.default) := by
  have hpack : Function.LeftInverse packSf (unpackSf SFlagsLayout.default) := packSf_unpackSf_default
  exact Function.bijective_iff_has_inverse.2 ⟨packSf, hpack, hpack.rightInverse_of_injective packSf_injective⟩

/-! ### Every layout -/

/-- Any frame-flags layout is the default one over the byte with its bits moved to their positions (R95). -/
theorem unpackFf_eq_default (l : FFlagsLayout) :
    unpackFf l = unpackFf FFlagsLayout.default ∘ movedBits fun k => l.positions.get (k.cast rfl) := by
  funext b
  simp only [Function.comp_apply, unpackFf, bitAt_movedBits]
  rfl

/-- Any service-flags layout is the default one over the byte with its bits moved to their positions (R98). -/
theorem unpackSf_eq_default (l : SFlagsLayout) :
    unpackSf l = unpackSf SFlagsLayout.default ∘ movedBits fun k => l.positions.get (k.cast rfl) := by
  funext b
  simp only [Function.comp_apply, unpackSf, bitAt_movedBits]
  rfl

/-- Settles O5: a layout permutes the bits, and the default layouts cut the byte into its parts. -/
theorem flagBytesUnpackBijectively : Obligations.FlagBytesUnpackBijectively := by
  refine ⟨fun l h => ?_, fun l h => ?_, unpackFf_default, unpackSf_default⟩
  · rw [unpackFf_eq_default]
    exact unpackFf_default_bijective.comp (movedBits_bijective (get_injective_of_nodup rfl h))
  · rw [unpackSf_eq_default]
    exact unpackSf_default_bijective.comp (movedBits_bijective (get_injective_of_nodup rfl h))

end Sys2Proof.Machine
end

section
/-! The requests (R91, R92, R114): READ_REQ and WRITE_REQ leave the frame that encodes them in the buffer (O30, O31). -/

namespace Sys2Proof.Machine

variable {s t u : State}

/-! ### A request where its registers and its payload stand -/

/-- ENCODE_REQUEST leaves the whole frame in a buffer that holds the property header and the value (R92, R154). -/
theorem encodeRequestOp_builds (hm : memWf u.mem) (hb : u.ch.bound) {otype : BitVec 16} {oid : BitVec 32}
    {pid : BitVec 16} {value : List Byte} (hlen : u.ch.dataLen.toNat = 10 + value.length)
    (hfit : 26 + value.length ≤ u.ch.capacity.toNat)
    (hpay : bufList u 16 (8 + value.length) = propHeader otype oid pid ++ value) :
    ∃ t, encodeRequestOp u = .ok t ∧ t.ch = { u.ch with phase := .encoded } ∧ sameElsewhere u t ∧
      t.reply = u.reply ∧ t.draws = u.draws ∧
      bufList t 0 (26 + value.length) =
        requestFrame u.config.startMarker u.ch.srcAddr u.ch.dstAddr u.ch.serviceId otype oid pid value := by
  obtain ⟨t, ht, hch, hmem, hels, hreply, hdraws⟩ := request_encoded hm hb (by omega)
  refine ⟨t, ht, hch, hels, hreply, hdraws, ?_⟩
  have hload := load_requestMem u hm (spans_of_bound hb (by omega)) (spans_of_bound hb (by omega)) (by omega)
  rw [frame_of_request u _ _ _ otype oid pid value rfl rfl rfl hlen hpay, ← hload, ← hmem, hlen, bufList, hch]
  congr 1
  omega

/-- A value and then the property header, stored where they belong, are read as one stretch (R92). -/
theorem load_prop_value {m : List Host.Cell} (hm : memWf m) {a : Nat} {value : List Byte} (otype : BitVec 16)
    (oid : BitVec 32) (pid : BitVec 16) (hfit : a + 24 + value.length ≤ memSize) :
    memLoadBytes (memStoreBytes (memStoreBytes m (a + 24) value) (a + 16) (propHeader otype oid pid)) (a + 16)
      (8 + value.length) = propHeader otype oid pid ++ value := by
  have hvalue := memWf_memStoreBytes hm value (a + 24) hfit
  have hprop := memLoadBytes_memStoreBytes hvalue (propHeader otype oid pid) (a + 16)
    (by rw [length_propHeader]; omega)
  rw [length_propHeader] at hprop
  have htail : memLoadBytes (memStoreBytes (memStoreBytes m (a + 24) value) (a + 16) (propHeader otype oid pid))
      (a + 16 + 8) value.length = value := by
    refine Eq.trans (memLoadBytes_congr fun i _ => ?_) (memLoadBytes_memStoreBytes hm value (a + 24) hfit)
    exact memGet_outside hvalue (.inl (by rw [length_propHeader]; omega)) (by rw [length_propHeader]; omega)
  rw [memLoadBytes_add, hprop, htail]

/-! ### The messages -/

section
variable (s : State) (src dst : BitVec 32) (otype : BitVec 16) (oid : BitVec 32) (pid : BitVec 16) (value : List Byte)

/-- The state in which a message leaves its registers, its value and its property header for ENCODE_REQUEST (R114). -/
def requestPrepared (sid : Byte) : State :=
  (s.setCh { s.ch with
    srcAddr := src, dstAddr := dst, objType := otype, objId := oid, propId := pid, serviceId := sid
    valueLen := BitVec.ofNat 32 value.length, dataLen := BitVec.ofNat 32 (10 + value.length) }).setMem
  (memStoreBytes (memStoreBytes s.mem (s.ch.bufBase.toNat + 24) value) (s.ch.bufBase.toNat + 16)
    (propHeader otype oid pid))

/-- READ_REQ is ENCODE_REQUEST of an empty value (R114, R183). -/
theorem readReq_eq (h : spans s 16 8) : readReq s src dst otype oid pid =
    encodeRequestOp (requestPrepared s src dst otype oid pid [] Config.serviceRead) := by
  rw [readReq, encodeReadOp_ok (s := setRequest s src dst otype oid pid) h, run_ok_bind]
  rfl

/-- WRITE_REQ is ENCODE_REQUEST of the value (R114, R185). -/
theorem writeReq_eq (h : spans s 16 8) (htop : s.ch.bufBase.toNat + 24 + value.length ≤ memSize)
    (hlen : 10 + value.length < 4294967296) : writeReq s src dst otype oid pid value =
    encodeRequestOp (requestPrepared s src dst otype oid pid value Config.serviceWrite) := by
  have hstore : storeAt (setRequest s src dst otype oid pid) 24 value =
      .ok ((setRequest s src dst otype oid pid).setMem (memStoreBytes s.mem (s.ch.bufBase.toNat + 24) value)) :=
    hostStore_ok (.inl htop)
  have hset (u : State) : setValueLength u value.length = .ok (setValueLen u (BitVec.ofNat 32 value.length)) :=
    if_pos (by omega)
  have hfits : 10 + (BitVec.ofNat 32 value.length).toNat < 4294967296 := by
    rwa [BitVec.toNat_ofNat, Nat.mod_eq_of_lt (by omega)]
  have hdlen : (10 : BitVec 32) + BitVec.ofNat 32 value.length = BitVec.ofNat 32 (10 + value.length) :=
    (BitVec.ofNat_add 10 value.length).symm
  have hwrite := encodeWriteOp_ok (s := setValueLen ((setRequest s src dst otype oid pid).setMem
    (memStoreBytes s.mem (s.ch.bufBase.toNat + 24) value)) (BitVec.ofNat 32 value.length)) hfits h
  rw [writeReq, hstore, run_ok_bind, hset, run_ok_bind, hwrite, run_ok_bind, requestPrepared, ← hdlen]
  rfl

variable {s}

/-- A prepared request whose frame fits the buffer is built in it, and nothing else but PHASE changes (R92, R154). -/
theorem requestPrepared_builds (sid : Byte) (hm : memWf s.mem) (hb : s.ch.bound)
    (hfit : 26 + value.length ≤ s.ch.capacity.toNat) :
    ∃ t, encodeRequestOp (requestPrepared s src dst otype oid pid value sid) = .ok t ∧
      bufList t 0 (26 + value.length) = requestFrame s.config.startMarker src dst sid otype oid pid value ∧
      t.ch = { (requestPrepared s src dst otype oid pid value sid).ch with phase := .encoded } ∧
      sameElsewhere s t ∧ t.reply = s.reply ∧ t.draws = s.draws := by
  have hcap := s.ch.capacity.isLt
  have htop : s.ch.bufBase.toNat + s.ch.capacity.toNat ≤ memSize := hb
  have hwf : memWf (requestPrepared s src dst otype oid pid value sid).mem :=
    memWf_memStoreBytes (memWf_memStoreBytes hm _ _ (by omega)) _ _ (by rw [length_propHeader]; omega)
  have hlen : (requestPrepared s src dst otype oid pid value sid).ch.dataLen.toNat = 10 + value.length :=
    Nat.mod_eq_of_lt (by omega)
  obtain ⟨t, ht, hch, hels, hreply, hdraws, hframe⟩ := encodeRequestOp_builds hwf hb hlen hfit
    (load_prop_value hm otype oid pid (by omega))
  exact ⟨t, ht, hframe, hch, hels, hreply, hdraws⟩

end

/-- Settles O30: READ_REQ is ENCODE_REQUEST of an empty value, and that builds the frame. -/
theorem readRequestBuildsItsFrame : Obligations.ReadRequestBuildsItsFrame := by
  intro s src dst otype oid pid hm hb hfit
  have heq := readReq_eq s src dst otype oid pid (spans_of_bound hb (by omega))
  obtain ⟨t, ht, hframe, hch, hels, hreply, hdraws⟩ :=
    requestPrepared_builds src dst otype oid pid [] Config.serviceRead hm hb hfit
  rw [← heq] at ht
  obtain ⟨-, hstores⟩ := readReq_frame hm ht
  exact ⟨t, outcome_of_ok ht, congrArg Packet.frame hframe.symm, hch, hstores.outside, hels, hreply, hdraws⟩

/-- Settles O31: WRITE_REQ is ENCODE_REQUEST of the value, and that builds the frame. -/
theorem writeRequestBuildsItsFrame : Obligations.WriteRequestBuildsItsFrame := by
  intro s src dst otype oid pid value hm hb hfit hlen
  have htop : s.ch.bufBase.toNat + s.ch.capacity.toNat ≤ memSize := hb
  have heq := writeReq_eq s src dst otype oid pid value (spans_of_bound hb (by omega)) (by omega) (by omega)
  obtain ⟨t, ht, hframe, hch, hels, hreply, hdraws⟩ :=
    requestPrepared_builds src dst otype oid pid value Config.serviceWrite hm hb hfit
  rw [← heq] at ht
  obtain ⟨-, hstores⟩ := writeReq_frame hm ht
  exact ⟨t, outcome_of_ok ht, congrArg Packet.frame hframe.symm, hch, hstores.outside, hels, hreply, hdraws⟩

end Sys2Proof.Machine
end

section
/-! A message is its lines run through the port (R114): the requests (O36, O37) and the responses (O38). -/

namespace Sys2Proof.Machine

variable {s t u v : State}

/-! ### Lines, as the runs that they make one after the other -/

theorem run_zero (s : State) : run 0 s = .next s := rfl

/-- A `STORE` line, then lines that together do `g`. -/
theorem run_store_bind {k : Nat} {l : List Byte} {acts : List Action} {n : Nat} {g : State → Run State}
    (h : ∀ t, run n (linesAtPort t acts) = outcome (g t)) :
    run (n + 1) (linesAtPort s (.store k l :: acts)) = outcome (storeAt s k l >>= g) := by
  rw [run_store]
  cases storeAt s k l with
  | ok t => exact h t
  | error e => cases e <;> rfl

/-- A line that writes a command code, then lines that together do `g`. -/
theorem run_code_bind {code : BitVec 8} {i : Instr} {f g : State → Run State} {acts : List Action} {n : Nat}
    (hd : ∀ c, decode c (.cmd code) = .ok i) (he : ∀ u, exec i u = outcome (f u)) (hf : Local f)
    (h : ∀ t, run n (linesAtPort t acts) = outcome (g t)) :
    run (n + 1) (linesAtPort s (.writeReg 0x00 (code.setWidth 32) :: acts)) = outcome (f s >>= g) := by
  rw [run_code hd he hf]
  cases f s with
  | ok t => exact h t
  | error e => cases e <;> rfl

/-- A last line that writes a command code. -/
theorem run_code_last {code : BitVec 8} {i : Instr} {f : State → Run State}
    (hd : ∀ c, decode c (.cmd code) = .ok i) (he : ∀ u, exec i u = outcome (f u)) (hf : Local f) (s : State) :
    run 1 (linesAtPort s [.writeReg 0x00 (code.setWidth 32)]) = outcome (f s) :=
  (run_code_bind hd he hf fun t => run_zero t).trans (congrArg outcome (bind_pure (f s)))

/-- A last `GET` line. -/
theorem run_get_last {num : BitVec 8} (h : num ≠ 0x13) (s : State) :
    run 1 (linesAtPort s [.readReg num]) = .next (getReg s num) := run_get h

/-! ### The requests -/

/-- The five `SET` lines of a request (R114). -/
theorem run_setRequest (s : State) (src dst : BitVec 32) (otype : BitVec 16) (oid : BitVec 32) (pid : BitVec 16)
    (acts : List Action) (n : Nat) :
    run (n + 5) (linesAtPort s (.writeReg 0x0C src :: .writeReg 0x0D dst :: .writeReg 0x14 (otype.setWidth 32) ::
      .writeReg 0x15 oid :: .writeReg 0x16 (pid.setWidth 32) :: acts)) =
    run n (linesAtPort (setRequest s src dst otype oid pid) acts) := by
  rw [run_set (fun c => { c with srcAddr := src }) (by decide) fun _ => rfl,
    run_set (fun c => { c with dstAddr := dst }) (by decide) fun _ => rfl,
    run_set (fun c => { c with objType := otype }) (by decide) fun u =>
      (setReg_objType u _).trans (putReg_of_width u _ _ _),
    run_set (fun c => { c with objId := oid }) (by decide) fun _ => rfl,
    run_set (fun c => { c with propId := pid }) (by decide) fun u =>
      (setReg_propId u _).trans (putReg_of_width u _ _ _)]
  simp only [State.setCh_setCh, State.setCh_ch]
  rfl

/-- ENCODE_REQUEST's line as the last one (R114). -/
theorem run_encodeRequest_last (s : State) :
    run 1 (linesAtPort s [.writeReg 0x00 0x02]) = outcome (encodeRequestOp s) :=
  run_code_last (code := 0x02) (fun _ => rfl) (fun _ => rfl) local_encodeRequestOp s

/-- Settles O36: the `SET` lines, then the two commands. -/
theorem readRequestIsItsLines : Obligations.ReadRequestIsItsLines := by
  intro s src dst otype oid pid
  exact (run_setRequest s src dst otype oid pid _ 2).trans
    (run_code_bind (code := 0x09) (fun _ => rfl) (fun _ => rfl) local_encodeReadOp run_encodeRequest_last)

/-- Settles O37: the `SET` lines, the `STORE`, the length, then the two commands. -/
theorem writeRequestIsItsLines : Obligations.WriteRequestIsItsLines := by
  intro s src dst otype oid pid value hlen
  have hlength (u : State) : setValueLength u value.length = .ok (setValueLen u (BitVec.ofNat 32 value.length)) :=
    if_pos hlen
  refine (run_setRequest s src dst otype oid pid _ 4).trans (run_store_bind fun t => ?_)
  rw [hlength, run_ok_bind]
  exact (run_set (fun c => { c with valueLen := BitVec.ofNat 32 value.length }) (by decide) fun _ => rfl).trans
    (run_code_bind (code := 0x0A) (fun _ => rfl) (fun _ => rfl) local_encodeWriteOp run_encodeRequest_last)

/-! ### The responses -/

/-- RECV's first lines: the header stored and decoded, and GET LAST_ERROR (R114). -/
def recvHeader (s : State) (bytes : List Byte) : Run State :=
  storeAt s 0 (bytes.take 14) >>= fun s => decodeFrameHeaderOp s >>= fun s => .ok (getReg s regLastError)

/-- RECV's last lines, and the GET LAST_ERROR that READ_RSP and WRITE_RSP put after them (R114). -/
def recvData (s : State) (bytes : List Byte) : Run State :=
  storeAt s 14 (bytes.drop 14) >>= fun s => decodeFrameDataOp s >>= fun s => .ok (getReg s regLastError)

/-- What is done where `LAST_ERROR` is 0, and otherwise is not (R114, R248). -/
def unlessError (f : State → Run State) (s : State) : Run State := if s.ch.lastError = 0 then f s else .ok s

theorem outcome_unlessError (f : State → Run State) (s : State) :
    outcome (unlessError f s) = if s.ch.lastError ≠ 0 then .next s else outcome (f s) := by
  unfold unlessError
  by_cases h : s.ch.lastError = 0
  · rw [if_pos h, if_neg (not_not.2 h)]
  · rw [if_neg h, if_pos h, outcome_ok]

theorem ifAccepted_eq (s : State) (f : State → Run State) :
    ifAccepted s f = unlessError f (getReg s regLastError) := rfl

/-- The first lines of RECV end in a GET of `LAST_ERROR`, and another one answers the same. -/
theorem getReg_of_recvHeader {bytes : List Byte} (h : recvHeader s bytes = .ok u) : getReg u regLastError = u := by
  simp only [recvHeader, run_bind_eq_ok] at h
  obtain ⟨_, -, _, -, hu⟩ := h
  cases hu
  rfl

theorem recv_eq (s : State) (bytes : List Byte) : recv s bytes =
    recvHeader s bytes >>= unlessError fun u => storeAt u 14 (bytes.drop 14) >>= decodeFrameDataOp := by
  simp only [recv, recvHeader, bind_assoc, run_ok_bind]
  rfl

/-- A response is the first lines, the last lines and the property decode, each where `LAST_ERROR` is 0 after those
before it (R114). -/
theorem response_eq (s : State) (bytes : List Byte) (f : State → Run State) :
    (recv s bytes >>= fun u => ifAccepted u f) =
      recvHeader s bytes >>= unlessError fun u => recvData u bytes >>= unlessError f := by
  rw [recv_eq]
  cases hu : recvHeader s bytes with
  | error e => rfl
  | ok u =>
    rw [run_ok_bind, run_ok_bind, unlessError, unlessError]
    split
    · simp only [recvData, bind_assoc, run_ok_bind, ifAccepted_eq]
    · rename_i herr
      rw [run_ok_bind, ifAccepted_eq, getReg_of_recvHeader hu, unlessError, if_neg herr]

/-- The first three lines of a response (R114). -/
theorem run_recvHeader (s : State) (bytes : List Byte) :
    run 3 (linesAtPort s [.store 0 (bytes.take 14), .writeReg 0x00 0x03, .readReg 0x05]) =
      outcome (recvHeader s bytes) :=
  run_store_bind fun _ => run_code_bind (code := 0x03) (fun _ => rfl) (fun _ => rfl) local_decodeFrameHeaderOp
    fun t => run_get_last (by decide) t

/-- The three lines after them (R114). -/
theorem run_recvData (s : State) (bytes : List Byte) :
    run 3 (linesAtPort s [.store 14 (bytes.drop 14), .writeReg 0x00 0x04, .readReg 0x05]) =
      outcome (recvData s bytes) :=
  run_store_bind fun _ => run_code_bind (code := 0x04) (fun _ => rfl) (fun _ => rfl) local_decodeFrameDataOp
    fun t => run_get_last (by decide) t

/-- A response is a run of RECV and a property decode `f`, and the line of `f` is the write of its code (R107, R114). -/
theorem exec_response {bytes : List Byte} {i : Instr} {code : BitVec 32}
    (h : (i = .frameReadResponse bytes ∧ code = 0x0B) ∨ (i = .frameWriteResponse bytes ∧ code = 0x0C) ∨
      (i = .frameErrorResponse bytes ∧ code = 0x0B)) :
    ∃ f : State → Run State, (∀ s, exec i s = outcome (recv s bytes >>= fun u => ifAccepted u f)) ∧
      ∀ v, run 1 (linesAtPort v [.writeReg 0x00 code]) = outcome (f v) := by
  have hread (v : State) : run 1 (linesAtPort v [.writeReg 0x00 0x0B]) = outcome (decodeReadPropertyOp v) :=
    run_code_last (code := 0x0B) (fun _ => rfl) (fun _ => rfl) local_decodeReadPropertyOp v
  have hwrite (v : State) : run 1 (linesAtPort v [.writeReg 0x00 0x0C]) = outcome (decodeWritePropertyOp v) :=
    run_code_last (code := 0x0C) (fun _ => rfl) (fun _ => rfl) local_decodeWritePropertyOp v
  obtain ⟨rfl, rfl⟩ | ⟨rfl, rfl⟩ | ⟨rfl, rfl⟩ := h
  · exact ⟨decodeReadPropertyOp, fun _ => rfl, hread⟩
  · exact ⟨decodeWritePropertyOp, fun _ => rfl, hwrite⟩
  · exact ⟨decodeReadPropertyOp, fun _ => rfl, hread⟩

/-- Settles O38: stage by stage, by what the lines of each stage do. -/
theorem responseIsItsLines : Obligations.ResponseIsItsLines := by
  intro s bytes i code hi first second
  obtain ⟨f, hexec, hdecode⟩ := exec_response hi
  have hfirst : first = outcome (recvHeader s bytes) := run_recvHeader s bytes
  have hsecond (u : State) : second u = outcome (recvData u bytes) := run_recvData u bytes
  rw [hexec, response_eq, hfirst]
  cases recvHeader s bytes with
  | error e => cases e <;> rfl
  | ok u =>
    rw [run_ok_bind, outcome_unlessError]
    refine ite_congr rfl (fun _ => rfl) fun _ => ?_
    rw [hsecond]
    cases recvData u bytes with
    | error e => cases e <;> rfl
    | ok v =>
      rw [run_ok_bind, outcome_unlessError]
      exact ite_congr rfl (fun _ => rfl) fun _ => (hdecode v).symm

end Sys2Proof.Machine
end

section
/-! The reception of a response (R107, R114): one that the frame codec accepts (O32, O33, O34), and one whose header it
rejects (O35). -/

namespace Sys2Proof.Machine

variable {s t w : State} {bytes : List Byte}

/-! ### The property decodes where they answer -/

/-- DECODE_READ_PROPERTY of a value that fits the value region (R190). -/
theorem decodeReadPropertyOp_accepts (he : s.ch.sfError ≠ 1)
    (hn : 0 ≤ impliedLength s.ch ∧ impliedLength s.ch ≤ valueMaxInt s.ch) (hs : spans s 16 8) :
    decodeReadPropertyOp s =
      .ok (s.setCh { decodedProp s with valueLen := BitVec.ofInt 32 (impliedLength s.ch) }) := by
  unfold decodeReadPropertyOp
  dsimp only
  rw [if_neg he, if_pos hn, readPropHeader_setValueLen _ hs]

/-- DECODE_READ_PROPERTY of a length that it does not accept (R190). -/
theorem decodeReadPropertyOp_rejects (he : s.ch.sfError ≠ 1)
    (hn : ¬(0 ≤ impliedLength s.ch ∧ impliedLength s.ch ≤ valueMaxInt s.ch)) :
    decodeReadPropertyOp s =
      .ok (s.setCh { s.ch with valueLen := 0, lastError := s.config.errBufferTooSmall }) := by
  unfold decodeReadPropertyOp
  dsimp only
  rw [if_neg he, if_neg hn]
  rfl

/-- DECODE_WRITE_PROPERTY of an empty value (R193). -/
theorem decodeWritePropertyOp_accepts (he : s.ch.sfError ≠ 1) (hn : impliedLength s.ch = 0)
    (hv : 0 ≤ valueMaxInt s.ch) (hs : spans s 16 8) :
    decodeWritePropertyOp s = .ok (s.setCh { decodedProp s with valueLen := 0 }) := by
  unfold decodeWritePropertyOp
  dsimp only
  rw [if_neg he, if_pos ⟨hn.ge, hn ▸ hv, hn⟩, readPropHeader_setValueLen _ hs]

/-- DECODE_WRITE_PROPERTY of a length that it does not accept (R193). -/
theorem decodeWritePropertyOp_rejects (he : s.ch.sfError ≠ 1)
    (hn : ¬(impliedLength s.ch = 0 ∧ 0 ≤ valueMaxInt s.ch)) :
    decodeWritePropertyOp s =
      .ok (s.setCh { s.ch with valueLen := 0, lastError := s.config.errBufferTooSmall }) := by
  unfold decodeWritePropertyOp
  dsimp only
  rw [if_neg he, if_neg fun ⟨hlow, hhigh, h⟩ => hn ⟨h, hlow.trans hhigh⟩]
  rfl

/-- With the error flag DECODE_READ_PROPERTY decodes an error response (R196). -/
theorem decodeReadPropertyOp_error (he : s.ch.sfError = 1) :
    decodeReadPropertyOp s = errorResponse s (impliedLength s.ch) := if_pos he

/-! ### A frame received -/

/-- RECV has stored the bytes from offset 0 and decoded their frame into the registers (R114). -/
structure Received (s w : State) (bytes : List Byte) : Prop where
  ch : w.ch = receivedChannel s.config s.ch bytes
  mem : w.mem = memStoreBytes s.mem s.ch.bufBase.toNat bytes
  els : sameElsewhere s w
  draws : w.draws = s.draws

/-- A response that the frame codec accepts reaches its property decode (R114, R166). -/
theorem response_of_goodFrame (hm : memWf s.mem) (hb : s.ch.bound) (h0 : s.ch.lastError = 0)
    (hg : goodFrame s.config s.ch.capacity.toNat bytes) (f : State → Run State) :
    ∃ w, Received s w bytes ∧ (recv s bytes >>= fun u => ifAccepted u f) = f w := by
  obtain ⟨w, hrecv, hch, hmem, hels, hdraws⟩ := received_good hm hb h0 bytes hg
  have herr : (getReg w regLastError).ch.lastError = 0 := (congrArg Channel.lastError hch).trans h0
  exact ⟨getReg w regLastError, ⟨hch, hmem, hels, hdraws⟩, by rw [hrecv, run_ok_bind, ifAccepted, if_pos herr]⟩

/-- A frame that the frame codec accepts is complete and lies inside the buffer (R106, R166), and so inside `MEM`. -/
theorem goodFrame_bounds {c : Config} {cap : Nat} (hg : goodFrame c cap bytes) :
    bytes.length = 16 + imageLen bytes ∧ 16 + imageLen bytes ≤ cap := by
  obtain ⟨hlen, -, hcap, -⟩ := hg
  omega

theorem goodFrame_top (hb : s.ch.bound) (hg : goodFrame s.config s.ch.capacity.toNat bytes) :
    s.ch.bufBase.toNat + bytes.length ≤ memSize := by
  obtain ⟨hlen, hcap⟩ := goodFrame_bounds hg
  unfold Channel.bound at hb
  omega

namespace Received

theorem config (h : Received s w bytes) : w.config = s.config := by
  obtain ⟨hconfig, -⟩ := h.els
  exact hconfig

theorem bufBase (h : Received s w bytes) : w.ch.bufBase = s.ch.bufBase := by rw [h.ch]; rfl

theorem capacity (h : Received s w bytes) : w.ch.capacity = s.ch.capacity := by rw [h.ch]; rfl

/-- The implied value length is that of the image (R190). -/
theorem impliedLength_eq (h : Received s w bytes) : impliedLength w.ch = (imageLen bytes : Int) - 10 := by
  have hlt := imageLen_lt bytes
  have hlen : w.ch.dataLen.toNat = imageLen bytes := by
    rw [h.ch]
    exact Nat.mod_eq_of_lt (by omega)
  rw [impliedLength, hlen]

/-- The value region is that of the buffer (R39). -/
theorem valueMaxInt_eq (h : Received s w bytes) (hd : s.ch.derived) :
    valueMaxInt w.ch = (s.ch.capacity.toNat : Int) - 24 :=
  (congrArg (fun c => c.valueMax.toInt) h.ch).trans hd

theorem accessible (h : Received s w bytes) (hb : s.ch.bound) {k n : Nat} (hk : k + n ≤ s.ch.capacity.toNat) :
    spans w k n :=
  (spans_congr h.bufBase h.capacity).2 (spans_of_bound hb hk)

section
variable (h : Received s w bytes) (hm : memWf s.mem) (htop : s.ch.bufBase.toNat + bytes.length ≤ memSize)
include h hm htop

/-- What leaves the memory and the binding after the reception leaves the received bytes in the buffer. -/
theorem bufList_eq (hmem : t.mem = w.mem) (hbase : t.ch.bufBase = s.ch.bufBase) {k n : Nat}
    (hk : k + n ≤ bytes.length) : bufList t k n = (bytes.drop k).take n := by
  rw [← hbase] at htop
  exact bufList_stored hm bytes htop (by rw [hmem, h.mem, hbase]) k n hk

/-- The value stands where the image has it (R104). -/
theorem bufList_value (hmem : t.mem = w.mem) (hbase : t.ch.bufBase = s.ch.bufBase)
    (hk : 24 + (imageLen bytes - 10) ≤ bytes.length) : bufList t 24 (imageLen bytes - 10) = imageValue bytes :=
  h.bufList_eq hm htop hmem hbase hk

/-- The whole frame stands at offset 0 (R61). -/
theorem bufList_all (hmem : t.mem = w.mem) (hbase : t.ch.bufBase = s.ch.bufBase) :
    bufList t 0 bytes.length = bytes := by
  rw [h.bufList_eq hm htop hmem hbase (by omega), List.drop_zero, List.take_length]

/-- Every other byte is as before the reception. -/
theorem outside (hmem : t.mem = w.mem) : sameMemoryOutside s t s.ch.bufBase.toNat bytes.length := by
  intro x hx
  rw [hmem, h.mem]
  exact memGet_outside hm (.inl htop) hx

/-- A field of the received bytes is a field of the buffer (R108). -/
theorem bufField_eq {k n : Nat} (hk : k + n ≤ bytes.length) : bufField w k n = fieldAt bytes k n := by
  rw [bufField, h.bufList_eq hm htop rfl h.bufBase hk, fieldAt]

/-- The property header decoded from the buffer is that of the image (R182). -/
theorem decodedProp_eq (hlen : 24 ≤ bytes.length) :
    decodedProp w = { receivedChannel s.config s.ch bytes with
      objType := imageOtype bytes, objId := imageOid bytes, propId := imagePid bytes } := by
  rw [decodedProp, h.bufField_eq hm htop (by omega), h.bufField_eq hm htop (by omega),
    h.bufField_eq hm htop (by omega), h.ch]
  rfl

end

/-- The error flag is that of the image (R160). -/
theorem sfError_eq (h : Received s w bytes) :
    w.ch.sfError = (unpackSf s.config.sflags (sflagsByte bytes)).error := congrArg Channel.sfError h.ch

/-- A length that the property decode does not accept, with the registers as received (R190, R193). -/
theorem rejected_ch (h : Received s w bytes) :
    (w.setCh { w.ch with valueLen := 0, lastError := w.config.errBufferTooSmall }).ch =
      { receivedChannel s.config s.ch bytes with valueLen := 0, lastError := s.config.errBufferTooSmall } := by
  rw [State.setCh_ch, h.ch, h.config]

end Received

/-! ### The responses that are accepted -/

/-- Settles O32: received, then decoded or rejected by the length of its payload. -/
theorem readResponseReceived : Obligations.ReadResponseReceived := by
  intro s bytes hm hb hd h0 hg herr
  obtain ⟨hlen, hcap⟩ := goodFrame_bounds hg
  have htop := goodFrame_top hb hg
  obtain ⟨w, hw, hrun⟩ := response_of_goodFrame hm hb h0 hg decodeReadPropertyOp
  have hflag : w.ch.sfError ≠ 1 := by rw [hw.sfError_eq, herr]; decide
  have hn := hw.impliedLength_eq
  have hmax := hw.valueMaxInt_eq hd
  by_cases h10 : 10 ≤ imageLen bytes
  · have hdec := decodeReadPropertyOp_accepts hflag (by omega) (hw.accessible hb (by omega))
    have hval : BitVec.ofInt 32 (impliedLength w.ch) = BitVec.ofNat 32 (imageLen bytes - 10) := by
      rw [hn, ← BitVec.ofInt_natCast]
      congr 1
      omega
    rw [hw.decodedProp_eq hm htop (by omega), hval] at hdec
    exact ⟨_, outcome_of_ok (hrun.trans hdec),
      fun _ => ⟨rfl, hw.bufList_value hm htop rfl rfl (by omega)⟩, fun hlt => absurd h10 (by omega),
      hw.bufList_all hm htop rfl rfl, hw.outside hm htop rfl, hw.els, hw.draws⟩
  · have hdec := decodeReadPropertyOp_rejects hflag (by omega)
    exact ⟨_, outcome_of_ok (hrun.trans hdec), fun hge => absurd hge h10, fun _ => hw.rejected_ch,
      hw.bufList_all hm htop rfl hw.bufBase, hw.outside hm htop rfl, hw.els, hw.draws⟩

/-- Settles O33: received, then decoded where its value is empty and rejected otherwise. -/
theorem writeResponseReceived : Obligations.WriteResponseReceived := by
  intro s bytes hm hb hd h0 hg herr
  obtain ⟨hlen, hcap⟩ := goodFrame_bounds hg
  have htop := goodFrame_top hb hg
  obtain ⟨w, hw, hrun⟩ := response_of_goodFrame hm hb h0 hg decodeWritePropertyOp
  have hflag : w.ch.sfError ≠ 1 := by rw [hw.sfError_eq, herr]; decide
  have hn := hw.impliedLength_eq
  have hmax := hw.valueMaxInt_eq hd
  by_cases h10 : imageLen bytes = 10
  · have hdec := decodeWritePropertyOp_accepts hflag (by omega) (by omega) (hw.accessible hb (by omega))
    rw [hw.decodedProp_eq hm htop (by omega)] at hdec
    exact ⟨_, outcome_of_ok (hrun.trans hdec), fun _ => rfl, fun hne => absurd h10 hne,
      hw.bufList_all hm htop rfl rfl, hw.outside hm htop rfl, hw.els, hw.draws⟩
  · have hdec := decodeWritePropertyOp_rejects hflag (by omega)
    exact ⟨_, outcome_of_ok (hrun.trans hdec), fun heq => absurd heq h10, fun _ => hw.rejected_ch,
      hw.bufList_all hm htop rfl hw.bufBase, hw.outside hm htop rfl, hw.els, hw.draws⟩

/-- Settles O34: received, then decoded as an error response of exactly two bytes, or recorded as malformed. -/
theorem errorResponseReceived : Obligations.ErrorResponseReceived := by
  intro s bytes hm hb h0 hg herr
  obtain ⟨hlen, hcap⟩ := goodFrame_bounds hg
  have htop := goodFrame_top hb hg
  obtain ⟨w, hw, hrun⟩ := response_of_goodFrame hm hb h0 hg decodeReadPropertyOp
  have hdec := decodeReadPropertyOp_error (hw.sfError_eq.trans herr)
  have hn := hw.impliedLength_eq
  by_cases h12 : imageLen bytes = 12
  · rw [show impliedLength w.ch = 2 by omega, errorResponse_two (hw.accessible hb (by omega)),
      hw.decodedProp_eq hm htop (by omega), hw.bufField_eq hm htop (by omega)] at hdec
    exact ⟨_, outcome_of_ok (hrun.trans hdec), fun _ => rfl, fun hne => absurd h12 hne,
      hw.bufList_all hm htop rfl rfl, hw.outside hm htop rfl, hw.els⟩
  · rw [errorResponse_other (by omega), hw.ch, hw.config] at hdec
    exact ⟨_, outcome_of_ok (hrun.trans hdec), fun heq => absurd heq h12, fun _ => rfl,
      hw.bufList_all hm htop rfl rfl, hw.outside hm htop rfl, hw.els⟩

/-! ### A response whose header is rejected -/

/-- With an error after its first lines a response does no more (R114, R248). -/
theorem response_stops {u : State} (h : recvHeader s bytes = .ok u) (herr : u.ch.lastError ≠ 0)
    (f : State → Run State) : (recv s bytes >>= fun u => ifAccepted u f) = .ok u := by
  rw [response_eq, h, run_ok_bind, unlessError, if_neg herr]

/-- Settles O35: the header is stored and decoded, which records the error, and there a response of any shape stops. -/
theorem badHeaderStopsReception : Obligations.BadHeaderStopsReception := by
  intro s bytes i hi hm hb hcap hlen hcode hbad
  obtain ⟨u, v, hstore, hheader, ⟨e, hch, he, -⟩, hmem, hels, -, -⟩ := message_header hm hb hcap bytes hlen
  obtain rfl : e = s.config.errInvalidFrame := he hbad
  have hfirst : recvHeader s bytes = .ok (getReg v regLastError) := by
    rw [recvHeader, hstore, run_ok_bind, hheader, run_ok_bind]
  have herr : (getReg v regLastError).ch.lastError ≠ 0 := by
    rw [show (getReg v regLastError).ch = v.ch from rfl, hch]
    exact hcode
  have hstop := response_stops hfirst herr
  have htake : (bytes.take 14).length = 14 := List.length_take_of_le hlen
  have htop : s.ch.bufBase.toNat + (bytes.take 14).length ≤ memSize := by unfold Channel.bound at hb; omega
  have hexec : exec i s = .next (getReg v regLastError) := by
    obtain rfl | rfl | rfl := hi
    · exact outcome_of_ok (hstop _)
    · exact outcome_of_ok (hstop _)
    · exact outcome_of_ok (hstop _)
  have hbase : v.ch.bufBase = s.ch.bufBase := by rw [hch]; rfl
  refine ⟨getReg v regLastError, hexec, hch, ?_, fun x hx => ?_, hels⟩
  · have hlist := bufList_stored (u := v) hm (bytes.take 14) (by rwa [hbase]) (by rw [hmem, hbase]) 0 14 (by omega)
    rwa [List.drop_zero, List.take_take, Nat.min_self] at hlist
  · rw [getReg_mem, hmem]
    exact memGet_outside hm (.inl htop) (by rwa [htake])

end Sys2Proof.Machine
end

section
/-! The checksum function: its two accumulators in closed form (O6), and what a change of one byte does to them (O7). -/

namespace Sys2Proof.Machine

/-! ### The two bytes of a result -/

/-- The low byte of a joined pair, as a number, is A (R130). -/
theorem ckJoin_toNat_mod (acc : Byte × Byte) : (ckJoin acc).toNat % 256 = acc.1.toNat :=
  (BitVec.toNat_setWidth 8 (ckJoin acc)).symm.trans (congrArg BitVec.toNat (ckJoin_low acc))

/-- The high byte of a joined pair, as a number, is B (R130). -/
theorem ckJoin_toNat_div (acc : Byte × Byte) : (ckJoin acc).toNat / 256 = acc.2.toNat := by
  have hlt := (ckJoin acc).isLt
  rw [← ckJoin_high acc, BitVec.toNat_setWidth, BitVec.toNat_ushiftRight, Nat.shiftRight_eq_div_pow]
  omega

/-! ### The closed form -/

/-- The sum in which a byte counts as often as there are bytes from it to the end: the `n - i + 1` of R132. -/
def weightedSum (l : List Byte) : Nat :=
  ((List.range l.length).map fun i => (l.length - i) * (l.getD i 0).toNat).sum

@[simp] theorem weightedSum_nil : weightedSum [] = 0 := rfl

/-- A byte put in front has the greatest weight, and the others keep theirs. -/
@[simp] theorem weightedSum_cons (b : Byte) (l : List Byte) :
    weightedSum (b :: l) = (l.length + 1) * b.toNat + weightedSum l := by
  simp [weightedSum, List.range_succ_eq_map, Function.comp_def]

/-- A gains every byte once (R132). -/
theorem ckRun_fst (acc : Byte × Byte) (l : List Byte) :
    (ckRun acc l).1 = acc.1 + BitVec.ofNat 8 (l.map BitVec.toNat).sum := by
  induction l generalizing acc with
  | nil => simp
  | cons b l ih => simp [ih, ckStep, BitVec.ofNat_add, add_assoc]

/-- B gains the A of every byte: the A at the start once for each, and a byte once for itself and each after it
(R132). -/
theorem ckRun_snd (acc : Byte × Byte) (l : List Byte) :
    (ckRun acc l).2 = acc.2 + BitVec.ofNat 8 l.length * acc.1 + BitVec.ofNat 8 (weightedSum l) := by
  induction l generalizing acc with
  | nil => simp
  | cons b l ih =>
    have hone : BitVec.ofNat 8 1 = 1 := rfl
    rw [ckRun_cons, ih, weightedSum_cons, List.length_cons]
    simp only [ckStep, BitVec.ofNat_add, BitVec.ofNat_mul, BitVec.ofNat_toNat, BitVec.setWidth_eq, hone]
    ring

/-- Settles O6: the two accumulators, each by induction on the bytes, from the initial values. -/
theorem cksumClosedForm : Obligations.CksumClosedForm := by
  intro l
  constructor
  · rw [cksum, ckJoin_toNat_mod, ckRun_fst, BitVec.toNat_add, BitVec.toNat_ofNat]
    exact Nat.add_mod_mod _ _ _
  · have hA : ckStart.1.toNat = 255 := rfl
    have hB : ckStart.2.toNat = 0 := rfl
    rw [cksum, ckJoin_toNat_div, ckRun_snd, ← weightedSum]
    simp only [BitVec.toNat_add, BitVec.toNat_mul, BitVec.toNat_ofNat, hA, hB]
    omega

/-! ### A change of one byte -/

/-- Settles O7: A takes the byte changed once and the others as before, so the two values of A differ. -/
theorem cksumSeesSingleByteChange : Obligations.CksumSeesSingleByteChange := by
  intro l r a b hne heq
  have hA : (ckRun ckStart (l ++ a :: r)).1 = (ckRun ckStart (l ++ b :: r)).1 := by
    rw [← ckJoin_low, ← ckJoin_low]
    exact congrArg (BitVec.setWidth 8) heq
  simp only [ckRun_fst, List.map_append, List.map_cons, List.sum_append, List.sum_cons, BitVec.ofNat_add,
    BitVec.ofNat_toNat, BitVec.setWidth_eq, add_right_inj, add_left_inj] at hA
  exact hne hA

end Sys2Proof.Machine
end

section
/-! The checksum unit: the result of CK_INIT (O9), of CK_UPDATE (O10) and of CK_RANGE (O11), and a list streamed through
the port (O8). -/

namespace Sys2Proof.Machine

variable {s : State}

/-! ### CK_INIT and CK_UPDATE -/

theorem exec_ckInit (s : State) : exec .ckInit s = .next (setAccumulators s ckStart) := rfl

theorem exec_ckUpdate (s : State) :
    exec .ckUpdate s = .next (setAccumulators s (ckStep (s.ch.ckA, s.ch.ckB) (ckByte s.ch))) := rfl

/-- `CK_SUM` joins the accumulators (R42). -/
@[simp] theorem ckSum_setAccumulators (s : State) (acc : Byte × Byte) :
    ckSum (setAccumulators s acc).ch = ckJoin acc := rfl

/-- The accumulators hold what was written last. -/
@[simp] theorem setAccumulators_setAccumulators (s : State) (acc acc' : Byte × Byte) :
    setAccumulators (setAccumulators s acc) acc' = setAccumulators s acc' := rfl

/-- Settles O9: the accumulators are written with their initial values, and again with the same. -/
theorem ckInitResult : Obligations.CkInitResult := by
  intro s
  refine ⟨rfl, exec_ckInit s, fun t ht => ?_⟩
  rw [exec_ckInit] at ht
  cases ht
  refine ⟨?_, ckSum_setAccumulators s ckStart, ?_⟩
  · rw [ckSum_setAccumulators]; decide
  · rw [exec_ckInit, setAccumulators_setAccumulators]

/-- One byte into the accumulators, as numbers: both sums drop their carries (R130). -/
theorem ckStep_eq_ofNat (acc : Byte × Byte) (b : Byte) :
    ckStep acc b =
      (BitVec.ofNat 8 ((acc.1.toNat + b.toNat) % 256),
        BitVec.ofNat 8 ((acc.2.toNat + (acc.1.toNat + b.toNat) % 256) % 256)) := by
  refine Prod.ext (BitVec.eq_of_toNat_eq ?_) (BitVec.eq_of_toNat_eq ?_) <;>
    simp [ckStep, BitVec.toNat_add]

/-- Settles O10: the step of the checksum with the low byte of `OP_A`, as numbers. -/
theorem ckUpdateResult : Obligations.CkUpdateResult := by
  intro s a b
  have hbyte : (ckByte s.ch).toNat = s.ch.opA.toNat % 256 := BitVec.toNat_setWidth _ _
  refine ⟨rfl, ?_⟩
  rw [exec_ckUpdate, ckStep_eq_ofNat, hbyte]
  rfl

/-! ### CK_RANGE -/

/-- A result written to the accumulators byte by byte (R136, R42). -/
theorem setAccumulators_bytes (s : State) (sum : BitVec 16) :
    setAccumulators s (sum.setWidth 8, (sum >>> 8).setWidth 8) =
      s.setCh { s.ch with ckA := BitVec.ofNat 8 (sum.toNat % 256), ckB := BitVec.ofNat 8 (sum.toNat / 256) } := by
  have hlow : sum.setWidth 8 = BitVec.ofNat 8 (sum.toNat % 256) := by
    apply BitVec.eq_of_toNat_eq
    simp
  have hhigh : (sum >>> 8).setWidth 8 = BitVec.ofNat 8 (sum.toNat / 256) := by
    apply BitVec.eq_of_toNat_eq
    simp [Nat.shiftRight_eq_div_pow]
  rw [hlow, hhigh]
  rfl

/-- CK_RANGE of a range that leaves a bound buffer is refused at its first bad offset (R136). -/
theorem ckRangeOp_refused (hb : s.ch.bound) (hlen : 0 < s.ch.opB.toNat)
    (hout : s.ch.capacity.toNat < s.ch.opA.toNat + s.ch.opB.toNat) :
    ckRangeOp s = .error (.refuse (.outOfBuffer (max s.ch.opA.toNat s.ch.capacity.toNat))) := by
  rw [ckRangeOp, show rangeOffset s.ch = s.ch.opA.toNat from rfl, show rangeLength s.ch = s.ch.opB.toNat from rfl,
    bufBytes_refused hb hlen hout, run_error_bind]

/-- Settles O11: the range is accessible and its checksum is written, or it leaves the buffer and is refused. -/
theorem ckRangeResult : Obligations.CkRangeResult := by
  intro s hb
  have hok (h : spans s s.ch.opA.toNat s.ch.opB.toNat) : exec .ckRange s = .next (setAccumulators s
      ((cksum (bufList s s.ch.opA.toNat s.ch.opB.toNat)).setWidth 8,
        (cksum (bufList s s.ch.opA.toNat s.ch.opB.toNat) >>> 8).setWidth 8)) :=
    outcome_of_ok (ckRangeOp_ok h)
  refine ⟨rfl, fun hin => ?inside, fun hzero => ?empty, fun hlen hout => ?outside⟩
  case inside =>
    have hspans : spans s s.ch.opA.toNat s.ch.opB.toNat := by
      rcases hin with hzero | hfit
      · exact .inl (by rw [hzero]; rfl)
      · exact spans_of_bound hb hfit
    rw [hok hspans, setAccumulators_bytes]
  case empty =>
    have hnone : s.ch.opB.toNat = 0 := by rw [hzero]; rfl
    rw [hok (.inl hnone), hnone, cksum, ckJoin_low, ckJoin_high]
    rfl
  case outside =>
    exact congrArg outcome (ckRangeOp_refused hb (by bv_omega) hout)

/-! ### Streaming -/

/-- The line that writes CK_INIT's code, and the lines after it (R134). -/
theorem run_ckInit {acts : List Action} {n : Nat} :
    run (n + 1) (linesAtPort s (.writeReg 0x00 0x10 :: acts)) = run n (linesAtPort (setAccumulators s ckStart) acts) :=
  run_code (code := 0x10) (f := fun u => .ok (setAccumulators u ckStart)) (fun _ => rfl) exec_ckInit
    (Local.pure fun _ _ _ _ => rfl)

/-- The line that writes CK_UPDATE's code, and the lines after it (R135). -/
theorem run_ckUpdate {acts : List Action} {n : Nat} :
    run (n + 1) (linesAtPort s (.writeReg 0x00 0x11 :: acts)) =
      run n (linesAtPort (setAccumulators s (ckStep (s.ch.ckA, s.ch.ckB) (ckByte s.ch))) acts) :=
  run_code (code := 0x11) (f := fun u => .ok (setAccumulators u (ckStep (u.ch.ckA, u.ch.ckB) (ckByte u.ch))))
    (fun _ => rfl) exec_ckUpdate (Local.pure fun _ _ _ _ => rfl)

/-- The two lines of a byte streamed: the operand, whose low byte it is, and CK_UPDATE (R135). -/
theorem run_streamByte (b : Byte) {acts : List Action} {n : Nat} :
    run (n + 2) (linesAtPort s (.writeReg 0x01 (b.setWidth 32) :: .writeReg 0x00 0x11 :: acts)) =
      run n (linesAtPort (setAccumulators (s.setCh { s.ch with opA := b.setWidth 32 })
        (ckStep (s.ch.ckA, s.ch.ckB) b)) acts) := by
  have hbyte : (b.setWidth 32).setWidth 8 = b := by simp
  rw [run_set (fun c => { c with opA := b.setWidth 32 }) (by decide) fun _ => rfl, run_ckUpdate, ckByte,
    State.setCh_ch, hbyte]

/-- A list streamed byte by byte runs the accumulators over it and leaves some operand in `OP_A` (R133(b), R135). -/
theorem run_stream (s : State) (l : List Byte) :
    ∃ op, run (2 * l.length)
        (linesAtPort s (l.flatMap fun b => [.writeReg 0x01 (b.setWidth 32), .writeReg 0x00 0x11])) =
      .next (setAccumulators (s.setCh { s.ch with opA := op }) (ckRun (s.ch.ckA, s.ch.ckB) l)) := by
  induction l generalizing s with
  | nil => exact ⟨s.ch.opA, rfl⟩
  | cons b l ih =>
    obtain ⟨op, hrest⟩ := ih (setAccumulators (s.setCh { s.ch with opA := b.setWidth 32 })
      (ckStep (s.ch.ckA, s.ch.ckB) b))
    exact ⟨op, (run_streamByte b).trans hrest⟩

/-- Settles O8: CK_INIT puts the accumulators at their initial values, and the stream runs them over the list. -/
theorem checkUnitStreamsChecksum : Obligations.CheckUnitStreamsChecksum := by
  intro s l
  obtain ⟨op, hstream⟩ := run_stream (setAccumulators s ckStart) l
  have hlines := run_ckInit.trans hstream
  rw [Nat.add_comm _ 1] at hlines
  exact ⟨_, hlines, ckSum_setAccumulators _ _, rfl⟩

end Sys2Proof.Machine
end

section
/-! FRAME_INIT (O12, O25), FRAME_LENGTH (O18) and ENCODE_REQUEST (O13, O14). -/

namespace Sys2Proof.Machine

variable {s : State}

/-! ### FRAME_INIT and FRAME_LENGTH -/

/-- Settles O12: the result of FRAME_INIT, whose thirteen draws stand in the registers that it leaves open. -/
theorem frameInitResult : Obligations.FrameInitResult := by
  intro s hfits
  exact ⟨_, outcome_of_ok (frameInitOp_ok hfits), rfl, valueMaxOf_toInt _, rfl, rfl, rfl, rfl, rfl, rfl⟩

/-- FRAME_INIT of a buffer past the top of `MEM` is refused (R152). -/
theorem frameInitOp_refused (h : memSize < s.ch.opA.toNat + s.ch.opB.toNat) :
    frameInitOp s = .error (.refuse (.bufferPastTop s.ch.opA s.ch.opB)) :=
  if_neg (Nat.not_le.2 h)

/-- ENCODE_WRITE of a value whose payload length no register holds is refused (R187). -/
theorem encodeWriteOp_refused (h : 4294967296 ≤ 10 + s.ch.valueLen.toNat) :
    encodeWriteOp s = .error (.refuse (.dataLenOverflow s.ch.valueLen)) :=
  if_neg (Nat.not_lt.2 h)

/-- Settles O25: each operation tests its size before it does anything else. -/
theorem oversizeRefused : Obligations.OversizeRefused := fun _ =>
  ⟨fun hsum => congrArg outcome (frameInitOp_refused hsum),
    fun hlen => congrArg outcome (encodeWriteOp_refused (by omega))⟩

/-- The 33 bits of a register read hold the length of every frame (R164). -/
theorem frameLength_lt (c : Channel) : frameLength c < 2 ^ 33 := by
  have := c.dataLen.isLt
  unfold frameLength
  omega

/-- Settles O18: the answer holds the length without reduction. -/
theorem frameLengthResult : Obligations.FrameLengthResult := fun s =>
  ⟨rfl, BitVec.ofNat 33 (frameLength s.ch), rfl,
    (BitVec.toNat_ofNat _ _).trans (Nat.mod_eq_of_lt (frameLength_lt s.ch))⟩

/-! ### ENCODE_REQUEST -/

/-- The headers as the sequence of their fields, the length reduced as it is stored (R154, R155). -/
theorem headerBytes_eq (s : State) :
    let range := headerRange s.ch.srcAddr s.ch.dstAddr (s.ch.dataLen.toNat % 65536)
    headerBytes s = s.config.startMarker :: (range ++ leBytes 2 (cksum range).toNat ++ [0x00, s.ch.serviceId]) := by
  rw [headerRange_mod]
  rfl

/-- A byte of the memory in which the headers are stored (R154). -/
theorem memGet_headersStored (hm : memWf s.mem) (h0 : spans s 0 16) (a : Nat) :
    memGet (headersStored s).mem a =
      if s.ch.bufBase.toNat ≤ a ∧ a < s.ch.bufBase.toNat + 16
      then (headerBytes s).getD (a - s.ch.bufBase.toNat) 0 else memGet s.mem a := by
  obtain ⟨-, htop⟩ := spans_bounds h0 (by omega)
  have hget := memGet_store hm (headerBytes s) s.ch.bufBase.toNat a (by simpa using htop)
  rwa [length_headerBytes] at hget

/-- A byte of the memory in which a request is stored: its checksum is stored last, over the headers where they meet
(R154, R157). -/
theorem memGet_requestMem (hm : memWf s.mem) (h0 : spans s 0 16) (hs : spans s 14 (s.ch.dataLen.toNat + 2))
    (a : Nat) :
    memGet (requestMem s) a =
      if s.ch.bufBase.toNat + 14 + s.ch.dataLen.toNat ≤ a ∧ a < s.ch.bufBase.toNat + 16 + s.ch.dataLen.toNat
      then (leBytes 2 (cksum (bufList (headersStored s) 14 s.ch.dataLen.toNat)).toNat).getD
        (a - (s.ch.bufBase.toNat + 14 + s.ch.dataLen.toNat)) 0
      else memGet (headersStored s).mem a := by
  obtain ⟨-, htop⟩ := spans_bounds hs (by omega)
  have hstart : s.ch.bufBase.toNat + (14 + s.ch.dataLen.toNat) = s.ch.bufBase.toNat + 14 + s.ch.dataLen.toNat := by
    omega
  have hend : s.ch.bufBase.toNat + 14 + s.ch.dataLen.toNat + 2 = s.ch.bufBase.toNat + 16 + s.ch.dataLen.toNat := by
    omega
  rw [requestMem, hstart, memGet_store (memWf_headersStored hm h0) _ _ _ (by rw [length_leBytes]; omega),
    length_leBytes, hend]

/-- Settles O13: the memory of a stored request, byte by byte. -/
theorem encodeRequestResult : Obligations.EncodeRequestResult := by
  intro s hm hb hcap hfits base n range head payload
  have h0 : spans s 0 16 := spans_of_bound hb (by omega)
  have hs : spans s 14 (s.ch.dataLen.toNat + 2) := spans_of_bound hb (by omega)
  obtain ⟨t, ht, hch, hmem, hels, hreply, hdraws⟩ := request_encoded hm hb hfits
  refine ⟨t, outcome_of_ok ht, hch, hels, hreply, hdraws, fun a => ?_⟩
  rw [hmem, memGet_requestMem hm h0 hs, memGet_headersStored hm h0, bufList_headersStored hm h0, headerBytes_eq]
  rfl

/-- Settles O14: the memory in which the headers alone are stored, byte by byte. -/
theorem encodeRequestTooSmall : Obligations.EncodeRequestTooSmall := by
  intro s hm hb hcap hbig base range head
  have h0 : spans s 0 16 := spans_of_bound hb (by omega)
  have ht := encodeRequestOp_tooBig hm (by unfold tooBig; omega) h0
  refine ⟨_, outcome_of_ok ht, rfl, sameElsewhere_refl s, rfl, rfl, fun a => ?_⟩
  rw [State.setMem_mem, memGet_headersStored hm h0, headerBytes_eq]
  rfl

end Sys2Proof.Machine
end

section
/-! The frame decodes: DECODE_FRAME_HEADER (O15), DECODE_FRAME_DATA (O16), the one after the other (O19, O21), and both
after ENCODE_REQUEST (O20). -/

namespace Sys2Proof.Machine

variable {s : State}

/-! ### Each decode -/

/-- The checks of DECODE_FRAME_HEADER as R158 lists them. -/
theorem headerBad_iff : headerBad s ↔
    bufAt s 0 ≠ s.config.startMarker ∨ bufField s 10 2 < 2 ∨ s.ch.capacity.toNat < 14 + bufField s 10 2 + 2 ∨
      (cksum (bufList s 1 11)).toNat ≠ bufField s 12 2 := by
  rw [headerBad, bufField_one, ne_eq, BitVec.toNat_inj, or_assoc]

/-- The checks of DECODE_FRAME_HEADER pass (R158, R166). -/
theorem not_headerBad_iff : ¬ headerBad s ↔
    bufAt s 0 = s.config.startMarker ∧ 2 ≤ bufField s 10 2 ∧ 16 + bufField s 10 2 ≤ s.ch.capacity.toNat ∧
      bufField s 12 2 = (cksum (bufList s 1 11)).toNat := by
  have hroom : 14 + bufField s 10 2 + 2 = 16 + bufField s 10 2 := by omega
  rw [headerBad_iff, hroom, eq_comm (a := bufField s 12 2)]
  simp only [not_or, ne_eq, not_not, Nat.not_lt]

/-- A run refused for an offset outside the buffer is a step so refused (R66). -/
theorem outcome_of_oob {r : Run State} (h : oob s r) :
    ∃ k, s.ch.capacity.toNat ≤ k ∧ outcome r = .refused (.outOfBuffer k) := by
  obtain ⟨k, hk, rfl⟩ := h
  exact ⟨k, hk, rfl⟩

/-- The state that DECODE_FRAME_HEADER leaves (R158, R159). -/
def headerDecoded (s : State) : State :=
  s.setCh (decodedHeader s (if headerBad s then s.config.errInvalidFrame else s.ch.lastError))

/-- DECODE_FRAME_HEADER in a buffer that holds a header (R158). -/
theorem exec_decodeFrameHeader (hb : s.ch.bound) (hcap : 14 ≤ s.ch.capacity.toNat) :
    exec .decodeFrameHeader s = .next (headerDecoded s) :=
  outcome_of_ok (decodeFrameHeaderOp_ok (spans_of_bound hb hcap))

/-- Settles O15: by whether the header lies in the buffer. -/
theorem decodeFrameHeaderResult : Obligations.DecodeFrameHeaderResult := by
  intro s hb f
  refine ⟨rfl, fun hsmall => outcome_of_oob (decodeFrameHeader_oob hb hsmall), fun hcap => ?_⟩
  rw [exec_decodeFrameHeader hb hcap, headerDecoded, if_congr headerBad_iff rfl rfl]
  rfl

/-- Settles O16: by `LAST_ERROR`, and then by whether the frame lies in the buffer. -/
theorem decodeFrameDataResult : Obligations.DecodeFrameDataResult := by
  intro s hb g
  refine ⟨rfl, fun herr => outcome_of_ok (decodeFrameDataOp_skip herr),
    fun h0 hbig => outcome_of_oob (decodeFrameData_oob hb h0 hbig), fun h0 hfits => ?_⟩
  have hop := decodeFrameDataOp_ok h0 (spans_of_bound hb (by omega))
  rw [h0] at hop
  exact outcome_of_ok hop

/-! ### One after the other -/

theorem headerDecoded_lastError (s : State) :
    (headerDecoded s).ch.lastError = if headerBad s then s.config.errInvalidFrame else s.ch.lastError := rfl

/-- A header without a fault records nothing (R159). -/
theorem headerDecoded_lastError_of_good (hgood : ¬ headerBad s) : (headerDecoded s).ch.lastError = s.ch.lastError :=
  if_neg hgood

/-- The length field fits the register that it is decoded to (R158, R108). -/
@[simp] theorem headerDecoded_dataLen (s : State) : (headerDecoded s).ch.dataLen.toNat = bufField s 10 2 := by
  have hlt := bufField_lt s 10 2
  exact (BitVec.toNat_ofNat _ _).trans (Nat.mod_eq_of_lt (by omega))

@[simp] theorem headerDecoded_capacity (s : State) : (headerDecoded s).ch.capacity = s.ch.capacity := rfl

/-- The payload that a header without a fault announces is in the buffer (R162). -/
theorem headerDecoded_spans (hb : s.ch.bound) (hgood : ¬ headerBad s) :
    spans (headerDecoded s) 14 ((headerDecoded s).ch.dataLen.toNat + 2) := by
  obtain ⟨-, -, hroom, -⟩ := not_headerBad_iff.1 hgood
  refine spans_of_bound (s := headerDecoded s) hb ?_
  rw [headerDecoded_dataLen, headerDecoded_capacity]
  omega

/-- `LAST_ERROR` is 0 after the header decode only where the header has no fault (R159, R3). -/
theorem not_headerBad_of_lastError (herr : s.config.errInvalidFrame ≠ 0)
    (h : (headerDecoded s).ch.lastError = 0) : ¬ headerBad s := by
  intro hbad
  rw [headerDecoded_lastError, if_pos hbad] at h
  exact herr h

/-- Settles O19: a header without a fault announces a payload that is in the buffer. -/
theorem decodeFrameDataSafeAfterHeader : Obligations.DecodeFrameDataSafeAfterHeader := by
  intro s t hb hdecode h0 herr
  obtain ⟨-, ht⟩ := decodeFrameHeaderOp_cases (outcome_eq_next.1 hdecode)
  obtain rfl : t = headerDecoded s := ht
  have hgood := not_headerBad_of_lastError herr h0
  have hop := decodeFrameDataOp_ok h0 (headerDecoded_spans hb hgood)
  obtain ⟨-, hmin, hroom, -⟩ := not_headerBad_iff.1 hgood
  rw [headerDecoded_dataLen, headerDecoded_capacity]
  exact ⟨hmin, hroom, _, outcome_of_ok hop⟩

/-- A flag that is not clear is set. -/
theorem bit_ne_zero_iff (b : BitVec 1) : b ≠ 0 ↔ b = 1 := by
  bv_omega

/-- The checks of DECODE_FRAME_DATA after a header decode pass, over the frame as it was received (R160, R166). -/
theorem not_dataBad_headerDecoded : ¬ dataBad (headerDecoded s) ↔
    bufField s (14 + bufField s 10 2) 2 = (cksum (bufList s 14 (bufField s 10 2))).toNat ∧
      (unpackSf s.config.sflags (bufAt s 14)).response = 1 := by
  rw [dataBad, headerDecoded_dataLen, not_or, ne_eq, not_not, ← ne_eq, bit_ne_zero_iff, eq_comm]
  rfl

/-- The two decodes of a frame, from no error, leave none exactly when neither finds a fault (R166). -/
theorem frame_decoded (hb : s.ch.bound) (h0 : s.ch.lastError = 0) (herr : s.config.errInvalidFrame ≠ 0) :
    ∃ u, decodeFrameDataOp (headerDecoded s) = .ok u ∧
      (u.ch.lastError = 0 ↔ ¬ headerBad s ∧ ¬ dataBad (headerDecoded s)) := by
  by_cases hbad : headerBad s
  case pos =>
    have hlast : (headerDecoded s).ch.lastError ≠ 0 := fun h => not_headerBad_of_lastError herr h hbad
    exact ⟨_, decodeFrameDataOp_skip hlast, fun h => absurd h hlast, fun h => absurd hbad h.1⟩
  case neg =>
    have hlast : (headerDecoded s).ch.lastError = 0 := (headerDecoded_lastError_of_good hbad).trans h0
    refine ⟨_, decodeFrameDataOp_ok hlast (headerDecoded_spans hb hbad), ?_⟩
    show (if dataBad (headerDecoded s) then s.config.errInvalidFrame else (headerDecoded s).ch.lastError) = 0 ↔ _
    rw [hlast]
    by_cases hdata : dataBad (headerDecoded s)
    · rw [if_pos hdata]
      exact ⟨fun h => absurd h herr, fun h => absurd hdata h.2⟩
    · rw [if_neg hdata]
      exact ⟨fun _ => ⟨hbad, hdata⟩, fun _ => rfl⟩

/-- Settles O21: neither decode finds a fault exactly when the frame meets the six conditions. -/
theorem frameAcceptedExactly : Obligations.FrameAcceptedExactly := by
  intro s hb hcap h0 herr n
  obtain ⟨u, hu, hiff⟩ := frame_decoded hb h0 herr
  refine ⟨headerDecoded s, u, exec_decodeFrameHeader hb hcap, outcome_of_ok hu, ?_⟩
  rw [hiff, not_headerBad_iff, not_dataBad_headerDecoded]
  simp only [and_assoc, n]

/-! ### The round trip -/

@[simp] theorem bitAt_zero (i : Fin 8) : bitAt 0 i = 0 := by
  simp [bitAt]

/-- A zero byte is six zero flags under any layout (R96). -/
theorem unpackFf_zero (l : FFlagsLayout) : unpackFf l 0 = ⟨0, 0, 0, 0, 0, 0⟩ := by
  simp only [unpackFf, bitAt_zero]
  rfl

/-- A zero byte has no response flag under any layout (R99). -/
theorem unpackSf_zero_response (l : SFlagsLayout) : (unpackSf l 0).response = 0 := bitAt_zero l.response

/-- Settles O20: the header decode finds in a request what was encoded, and the data decode finds no response flag. -/
theorem headerRoundTrip : Obligations.HeaderRoundTrip := by
  intro s hm hb h0 hmin hmax hfits
  obtain ⟨t, ht, hch, hmem, ⟨hconfig, -⟩, -, -⟩ := request_encoded hm hb hfits
  obtain ⟨hgood, hflags, hsrc, hdst, hlen, hsf⟩ := good_request_header hm hb hmin hmax hfits hch hmem hconfig
  have hbt : t.ch.bound := by rw [hch]; exact hb
  have hcap : t.ch.capacity = s.ch.capacity := by rw [hch]
  have hlast : (headerDecoded t).ch.lastError = 0 := by
    rw [headerDecoded_lastError_of_good hgood, hch]
    exact h0
  have hbad : dataBad (headerDecoded t) := by
    refine .inr ?_
    show (unpackSf t.config.sflags (bufAt t 14)).response = 0
    rw [hsf, unpackSf_zero_response]
  have hdata := decodeFrameDataOp_ok hlast (headerDecoded_spans hbt hgood)
  rw [if_pos hbad] at hdata
  have hff : unpackFf t.config.fflags (bufAt t 1) = ⟨0, 0, 0, 0, 0, 0⟩ := by rw [hflags, unpackFf_zero]
  have hreg (v : BitVec 32) {n : Nat} (hn : n = v.toNat) : BitVec.ofNat 32 n = v := by
    rw [hn, BitVec.ofNat_toNat, BitVec.setWidth_eq]
  exact ⟨t, headerDecoded t, _, outcome_of_ok ht, exec_decodeFrameHeader hbt (by rw [hcap]; omega),
    outcome_of_ok hdata, hreg _ hsrc, hreg _ hdst, hreg _ hlen,
    congrArg FrameFlags.datalogFile hff, congrArg FrameFlags.sdFull hff, congrArg FrameFlags.sdPresent hff,
    congrArg FrameFlags.rccReset hff, congrArg FrameFlags.msgPending hff, congrArg FrameFlags.reserved hff,
    hlast, congrArg Config.errInvalidFrame hconfig⟩

end Sys2Proof.Machine
end

section
/-! The property codec: PROP_INIT (O22), ENCODE_READ (O23), ENCODE_WRITE (O24), the property decodes (O26, O27, O28,
O29), and the read request that the header decode takes apart again (O39). -/

namespace Sys2Proof.Machine

variable {s : State}

/-! ### PROP_INIT -/

/-- A `VALUE_MAX` that is derived is the one that PROP_INIT derives (R39, R180). -/
theorem valueMaxOf_eq_of_derived {c : Channel} (hd : c.derived) : valueMaxOf c.capacity = c.valueMax :=
  BitVec.eq_of_toInt_eq ((valueMaxOf_toInt c.capacity).trans hd.symm)

/-- Settles O22: the register holds `CAPACITY - 24` exactly, so deriving it again changes nothing. -/
theorem propInitResult : Obligations.PropInitResult := by
  intro s
  refine ⟨rfl, ⟨valueMaxOf s.ch.capacity, rfl, valueMaxOf_toInt s.ch.capacity⟩, fun hd => ?_⟩
  show Host.Outcome.next (s.setCh { s.ch with valueMax := valueMaxOf s.ch.capacity }) = .next s
  rw [valueMaxOf_eq_of_derived hd]
  rfl

/-! ### The encoders -/

/-- A byte of the memory in which the property header is stored (R182). -/
theorem memGet_storedPropHeader (hm : memWf s.mem) (hs : spans s 16 8) (otype : BitVec 16) (oid : BitVec 32)
    (pid : BitVec 16) (a : Nat) :
    memGet (memStoreBytes s.mem (s.ch.bufBase.toNat + 16) (propHeader otype oid pid)) a =
      if s.ch.bufBase.toNat + 16 ≤ a ∧ a < s.ch.bufBase.toNat + 16 + 8
      then (propHeader otype oid pid).getD (a - (s.ch.bufBase.toNat + 16)) 0 else memGet s.mem a := by
  obtain ⟨-, htop⟩ := spans_bounds hs (by decide)
  have hget := memGet_store hm (propHeader otype oid pid) (s.ch.bufBase.toNat + 16) a
    (by rw [length_propHeader]; omega)
  rwa [length_propHeader] at hget

/-- ENCODE_READ in a buffer below 24 bytes (R183, R222). -/
theorem encodeReadOp_oob (hb : s.ch.bound) (h : s.ch.capacity.toNat < 24) : oob s (encodeReadOp s) :=
  writePropHeader_oob2 rfl rfl hb h

/-- ENCODE_WRITE of a length that fits in a buffer below 24 bytes (R185, R222). -/
theorem encodeWriteOp_oob (hb : s.ch.bound) (hlen : 10 + s.ch.valueLen.toNat < 4294967296)
    (h : s.ch.capacity.toNat < 24) : oob s (encodeWriteOp s) := by
  rw [encodeWriteOp, if_pos hlen]
  exact writePropHeader_oob2 rfl rfl hb h

/-- Settles O23: by whether the property header lies in the buffer. -/
theorem encodeReadResult : Obligations.EncodeReadResult := by
  intro s hm hb at16 head
  refine ⟨rfl, fun hsmall => outcome_of_oob (encodeReadOp_oob hb hsmall), fun hcap => ?_⟩
  have hs : spans s 16 8 := spans_of_bound hb hcap
  exact ⟨_, outcome_of_ok (encodeReadOp_ok hs), rfl, sameElsewhere_refl s, rfl, rfl,
    memGet_storedPropHeader hm hs _ _ _⟩

/-- Settles O24: by whether the payload length fits `DATA_LEN`, and then by whether the property header lies in the
buffer. -/
theorem encodeWriteResult : Obligations.EncodeWriteResult := by
  intro s hm hb at16 head
  refine ⟨rfl, fun hbig => congrArg outcome (encodeWriteOp_refused hbig),
    fun hlen hsmall => outcome_of_oob (encodeWriteOp_oob hb hlen hsmall), fun hlen hcap => ?_⟩
  have hs : spans s 16 8 := spans_of_bound hb hcap
  exact ⟨_, outcome_of_ok (encodeWriteOp_ok hlen hs), rfl, dataLen_toNat hlen, sameElsewhere_refl s, rfl, rfl,
    memGet_storedPropHeader hm hs _ _ _⟩

/-! ### The property decodes without the error flag -/

theorem sfError_ne_one {c : Channel} (h : c.sfError = 0) : c.sfError ≠ 1 := by
  rw [h]
  decide

/-- A value region that is not negative is behind a property header in the buffer (R39). -/
theorem spans_propHeader (hb : s.ch.bound) (hd : s.ch.derived) (h : 0 ≤ s.ch.valueMax.toInt) : spans s 16 8 := by
  rw [hd] at h
  exact spans_of_bound hb (by omega)

/-- An implied length that is not negative, as `VALUE_LEN` holds it (R190). -/
theorem ofInt_impliedLength {c : Channel} (h : 10 ≤ c.dataLen.toNat) :
    BitVec.ofInt 32 (impliedLength c) = BitVec.ofNat 32 (c.dataLen.toNat - 10) := by
  have hnat : impliedLength c = ((c.dataLen.toNat - 10 : Nat) : Int) := by
    unfold impliedLength
    omega
  rw [hnat, BitVec.ofInt_natCast]

/-- Settles O26: the length is accepted, and the value region that it fits lies behind the property header. -/
theorem decodeReadPropertyAccepts : Obligations.DecodeReadPropertyAccepts := by
  intro s hb hd he hmin hmax
  have hn : 0 ≤ impliedLength s.ch ∧ impliedLength s.ch ≤ valueMaxInt s.ch :=
    ⟨by unfold impliedLength; omega, hmax⟩
  have hop := decodeReadPropertyOp_accepts (sfError_ne_one he) hn (spans_propHeader hb hd (hn.1.trans hn.2))
  rw [ofInt_impliedLength hmin] at hop
  exact outcome_of_ok hop

/-- Settles O28: each decode tests its length before it reads the buffer. -/
theorem decodePropertyRejectsLength : Obligations.DecodePropertyRejectsLength := fun _ he =>
  ⟨fun hn => outcome_of_ok (decodeReadPropertyOp_rejects (sfError_ne_one he) hn),
    fun hn => outcome_of_ok (decodeWritePropertyOp_rejects (sfError_ne_one he) hn)⟩

/-- Settles O27: a payload of 10 bytes is an empty value; every other case is a length that is not accepted. -/
theorem decodeWritePropertyAccepts : Obligations.DecodeWritePropertyAccepts := by
  intro s hb hd he
  refine ⟨fun hlen hregion => ?accepts, fun hother => ?rejects⟩
  case accepts =>
    have hn : impliedLength s.ch = 0 := by unfold impliedLength; omega
    exact outcome_of_ok (decodeWritePropertyOp_accepts (sfError_ne_one he) hn hregion (spans_propHeader hb hd hregion))
  case rejects =>
    obtain ⟨-, hrejects⟩ := decodePropertyRejectsLength s he
    exact hrejects (by omega)

/-! ### The property decodes with the error flag -/

/-- With the error flag DECODE_WRITE_PROPERTY decodes an error response (R196). -/
theorem decodeWritePropertyOp_error (he : s.ch.sfError = 1) :
    decodeWritePropertyOp s = errorResponse s (impliedLength s.ch) := if_pos he

/-- With the error flag either property decode decodes an error response (R196). -/
theorem exec_propDecode_error {i : Instr} (hi : i = .decodeReadProperty ∨ i = .decodeWriteProperty)
    (he : s.ch.sfError = 1) : exec i s = outcome (errorResponse s (impliedLength s.ch)) := by
  rcases hi with rfl | rfl
  · exact congrArg outcome (decodeReadPropertyOp_error he)
  · exact congrArg outcome (decodeWritePropertyOp_error he)

/-- Settles O29: by whether the implied length is 2, and then by whether the code lies in the buffer. -/
theorem decodePropertyErrorResponse : Obligations.DecodePropertyErrorResponse := by
  intro s i hi he
  rw [exec_propDecode_error hi he]
  refine ⟨fun hlen hb hcap => ?decoded, fun hlen hb hsmall => ?refused, fun hlen => ?malformed⟩
  case decoded =>
    rw [(impliedLength_eq_two s.ch).2 hlen]
    exact ⟨_, outcome_of_ok (errorResponse_two (spans_of_bound hb hcap)), rfl, rfl, rfl, sameElsewhere_refl s⟩
  case refused =>
    rw [(impliedLength_eq_two s.ch).2 hlen]
    exact outcome_of_oob (errorResponse_oob hb hsmall)
  case malformed => exact outcome_of_ok (errorResponse_other (mt (impliedLength_eq_two s.ch).1 hlen))

/-! ### The round trip -/

/-- A field of the buffer is a field of the image that its first `n` bytes are (R91, R108). -/
theorem bufField_eq_fieldAt {n : Nat} (k w : Nat) (hk : k + w ≤ n) :
    bufField s k w = fieldAt (bufList s 0 n) k w := by
  rw [fieldAt, bufList, take_drop_memLoad _ _ _ _ _ hk]
  rfl

/-- A field is the register that it is decoded to, where the register is wide enough (R108). -/
theorem bufField_eq_toNat {k n w : Nat} {x : BitVec w} (h : BitVec.ofNat w (bufField s k n) = x)
    (hw : 256 ^ n ≤ 2 ^ w := by decide) : bufField s k n = x.toNat := by
  rw [← h, BitVec.toNat_ofNat, Nat.mod_eq_of_lt ((bufField_lt s k n).trans_le hw)]

section
variable {src dst : BitVec 32} {sid : Byte} {otype : BitVec 16} {oid : BitVec 32} {pid : BitVec 16} {value : List Byte}
  (h : bufList s 0 (26 + value.length) = requestFrame s.config.startMarker src dst sid otype oid pid value)
include h

/-- A field of a request is the field of its image (R91). -/
theorem bufField_of_request (k n : Nat) (hk : k + n ≤ 26) :
    bufField s k n = fieldAt (requestFrame s.config.startMarker src dst sid otype oid pid value) k n := by
  rw [bufField_eq_fieldAt (n := 26 + value.length) k n (by omega), h]

/-- The property header of a request stands in the buffer (R102). -/
theorem bufField_prop_of_request :
    bufField s 16 2 = otype.toNat ∧ bufField s 18 4 = oid.toNat ∧ bufField s 22 2 = pid.toNat := by
  refine ⟨bufField_eq_toNat ?type, bufField_eq_toNat ?id, bufField_eq_toNat ?prop⟩
  case type => rw [bufField_of_request h 16 2 (by decide)]; exact imageOtype_requestFrame ..
  case id => rw [bufField_of_request h 18 4 (by decide)]; exact imageOid_requestFrame ..
  case prop => rw [bufField_of_request h 22 2 (by decide)]; exact imagePid_requestFrame ..

variable (hlen : value.length ≤ 65525)
include hlen

/-- The header decode finds no fault in a request that lies in the buffer (R158, R165). -/
theorem not_headerBad_of_request (hfit : 26 + value.length ≤ s.ch.capacity.toNat) : ¬ headerBad s := by
  rw [requestFrame, List.append_assoc] at h
  obtain ⟨hmarker, -, -, -, hfield, hrange, hsum⟩ := header_fields s _ src dst _ _ _ (by omega) h
  rw [not_headerBad_iff, hrange]
  exact ⟨hmarker, by omega, by omega, hsum⟩

/-- The header decode takes the addresses and the length from a request (R158). -/
theorem headerDecoded_of_request :
    (headerDecoded s).ch.srcAddr = src ∧ (headerDecoded s).ch.dstAddr = dst ∧
    (headerDecoded s).ch.dataLen = BitVec.ofNat 32 (10 + value.length) := by
  have hfield := bufField_of_request h
  exact ⟨(congrArg (BitVec.ofNat 32) (hfield 2 4 (by decide))).trans (imageSrc_requestFrame ..),
    (congrArg (BitVec.ofNat 32) (hfield 6 4 (by decide))).trans (imageDst_requestFrame ..),
    congrArg (BitVec.ofNat 32) ((hfield 10 2 (by decide)).trans (imageLen_requestFrame _ _ _ _ _ _ _ _ hlen))⟩

end

/-- Settles O39: the buffer holds the image of the request, the header decode finds no fault in it, and each field of
the image is what was encoded. -/
theorem propertyRoundTrip : Obligations.PropertyRoundTrip := by
  intro s p hm hb h0 hcap
  obtain ⟨t, ht, hframe, hch, -, ⟨hconfig, -⟩, -, -⟩ := readRequestBuildsItsFrame s 1 101 2 3000 p hm hb hcap
  have himage : bufList t 0 (26 + ([] : List Byte).length) =
      requestFrame t.config.startMarker 1 101 Config.serviceRead 2 3000 p [] := by
    rw [hconfig]
    exact (Packet.frame.inj hframe).symm
  have hbound : t.ch.bound := by rw [hch]; exact hb
  have hroom : 26 ≤ t.ch.capacity.toNat := by rw [hch]; exact hcap
  have hgood : ¬ headerBad t := not_headerBad_of_request himage (by decide) hroom
  have hlast : (headerDecoded t).ch.lastError = 0 := by
    rw [headerDecoded_lastError_of_good hgood, hch]
    exact h0
  obtain ⟨hsrc, hdst, hlen⟩ := headerDecoded_of_request himage (by decide)
  exact ⟨t, headerDecoded t, ht, exec_decodeFrameHeader hbound (by omega), hsrc, hdst, hlen, hlast,
    congrArg Channel.objType hch, congrArg Channel.objId hch, congrArg Channel.propId hch,
    bufField_prop_of_request himage⟩

end Sys2Proof.Machine
end

section
/-! `LAST_ERROR` and what stops an operation: the transport's reports (O60), the one masking effect (O17) and the list
of the refusals (O41). -/

namespace Sys2Proof.Machine

variable {s : State} {i : Instr}

/-! ### The transport's reports -/

/-- A plain access at the selected channel's port that records an error is a step that writes `LAST_ERROR` (R24). -/
theorem step_atPort_recordError {act : Action} {e : BitVec 16} (hplain : act.packet = none)
    (h : hostAction s act = .ok (recordError s e)) :
    step (atPort s act) = .next (s.setCh { s.ch with lastError := e }) := by
  rw [step_of_done ((fetch_atPort s act).trans (fetchAction_plain hplain)), h]
  rfl

/-- A port or I/O failure that the parameters give a code records it (R216; log 24). -/
theorem hostAction_portIoFailure {k : Nat} {e : BitVec 16} (h : s.config.errPortIo[k]? = some e) :
    hostAction s (.portIoFailure k) = .ok (recordError s e) := by
  simp only [hostAction, h]

/-- Settles O60: each report is a plain access that records its code. -/
theorem transportErrorResult : Obligations.TransportErrorResult := fun _ =>
  ⟨step_atPort_recordError rfl rfl, step_atPort_recordError rfl rfl,
    fun _ _ h => step_atPort_recordError rfl (hostAction_portIoFailure h)⟩

/-! ### The masking of DECODE_FRAME_DATA -/

/-- Every operation but DECODE_FRAME_DATA is a run that does not see `LAST_ERROR` (R221). -/
theorem exec_eq_blind (hop : isOperation i = true) (hi : i ≠ .decodeFrameData) :
    ∃ f, Blind f ∧ ∀ s, exec i s = outcome (f s) := by
  cases i with
  | ckInit => exact ⟨fun s => .ok (setAccumulators s ckStart), .upd fun _ _ => rfl, exec_ckInit⟩
  | ckUpdate =>
    exact ⟨fun s => .ok (setAccumulators s (ckStep (s.ch.ckA, s.ch.ckB) (ckByte s.ch))), .upd fun _ _ => rfl,
      exec_ckUpdate⟩
  | ckRange => exact ⟨ckRangeOp, blind_ckRangeOp, fun _ => rfl⟩
  | frameInit => exact ⟨frameInitOp, blind_frameInitOp, fun _ => rfl⟩
  | encodeRequest => exact ⟨encodeRequestOp, blind_encodeRequestOp, fun _ => rfl⟩
  | decodeFrameHeader => exact ⟨decodeFrameHeaderOp, blind_decodeFrameHeaderOp, fun _ => rfl⟩
  | decodeFrameData => exact absurd rfl hi
  | frameLength =>
    exact ⟨fun s => .ok (s.setReply (.value (BitVec.ofNat 33 (frameLength s.ch)))), .upd fun _ _ => rfl,
      fun _ => rfl⟩
  | propInit =>
    exact ⟨fun s => .ok (s.setCh { s.ch with valueMax := valueMaxOf s.ch.capacity }), .upd fun _ _ => rfl,
      fun _ => rfl⟩
  | encodeRead => exact ⟨encodeReadOp, blind_encodeReadOp, fun _ => rfl⟩
  | encodeWrite => exact ⟨encodeWriteOp, blind_encodeWriteOp, fun _ => rfl⟩
  | decodeReadProperty => exact ⟨decodeReadPropertyOp, blind_decodeReadPropertyOp, fun _ => rfl⟩
  | decodeWriteProperty => exact ⟨decodeWritePropertyOp, blind_decodeWritePropertyOp, fun _ => rfl⟩
  | frameReadRequest | frameWriteRequest | frameReadResponse | frameWriteResponse | frameErrorResponse => cases hop

/-- Settles O17: DECODE_FRAME_DATA tests `LAST_ERROR` first; every other operation is a run that does not see it, so
from the two states it stops alike or answers alike but for that register. -/
theorem lastErrorMasksDataDecodeOnly : Obligations.LastErrorMasksDataDecodeOnly := by
  intro s i hop
  refine ⟨fun hi herr => ?masked, fun hi e => ?blind⟩
  case masked =>
    subst hi
    exact outcome_of_ok (decodeFrameDataOp_skip herr)
  case blind =>
    obtain ⟨f, hf, hexec⟩ := exec_eq_blind hop hi
    rw [hexec s, hexec (recordError s e)]
    rcases hf.cases s e with ⟨stop, hstop', hstop⟩ | ⟨u, t, hu, ht, hsame⟩
    · rw [hstop, hstop']
      cases stop with
      | fault r => rfl
      | refuse r => rfl
    · rw [ht, hu]
      exact ⟨u, rfl, hsame⟩

/-! ### Refused exactly where -/

/-- A run from `s` that leaves the buffer exactly where `p` holds, and answers everywhere else. -/
structure RefusedExactly (s : State) (r : Run State) (p : Prop) : Prop where
  refuses : p → oob s r
  answers : ¬ p → ∃ t, r = .ok t

/-- A run that answers stops with no fault. -/
theorem noFault_of_ok {r : Run State} (h : ∃ t, r = .ok t) : noFault (outcome r) := by
  obtain ⟨t, rfl⟩ := h
  exact trivial

/-- A run that is refused stops with no fault. -/
theorem noFault_of_refuse {r : Run State} {e : Refusal} (h : r = .error (.refuse e)) : noFault (outcome r) := by
  subst h
  exact trivial

/-- A run that answers is not refused. -/
theorem not_refused_of_ok {r : Run State} (h : ∃ t, r = .ok t) : ¬ ∃ e, outcome r = .refused e := by
  obtain ⟨t, rfl⟩ := h
  exact fun ⟨_, he⟩ => nomatch he

section
variable {r : Run State} {p : Prop} (h : RefusedExactly s r p)
include h

theorem RefusedExactly.noFault : noFault (outcome r) := by
  by_cases hp : p
  · obtain ⟨k, -, hk⟩ := h.refuses hp
    exact noFault_of_refuse hk
  · exact noFault_of_ok (h.answers hp)

/-- Every refusal of such a run is where it leaves the buffer. -/
theorem RefusedExactly.refused_iff : (∃ e, outcome r = .refused e) ↔ p := by
  refine ⟨fun hr => ?_, fun hp => ?_⟩
  · by_contra hp
    exact not_refused_of_ok (h.answers hp) hr
  · obtain ⟨k, -, hk⟩ := outcome_of_oob (h.refuses hp)
    exact ⟨_, hk⟩

theorem RefusedExactly.outOfBuffer_iff :
    (∃ k, s.ch.capacity.toNat ≤ k ∧ outcome r = .refused (.outOfBuffer k)) ↔ p :=
  ⟨fun ⟨_, _, hk⟩ => h.refused_iff.1 ⟨_, hk⟩, fun hp => outcome_of_oob (h.refuses hp)⟩

/-- The two lines that the list of R222 has for such a run. -/
theorem RefusedExactly.iffs :
    ((∃ k, s.ch.capacity.toNat ≤ k ∧ outcome r = .refused (.outOfBuffer k)) ↔ p) ∧
    ((∃ e, outcome r = .refused e) ↔ ∃ k, s.ch.capacity.toNat ≤ k ∧ outcome r = .refused (.outOfBuffer k)) :=
  ⟨h.outOfBuffer_iff, h.refused_iff.trans h.outOfBuffer_iff.symm⟩

end

/-! ### Where each operation leaves the buffer (R222) -/

theorem ckRangeOp_refusedExactly (hb : s.ch.bound) : RefusedExactly s (ckRangeOp s)
    (0 < s.ch.opB.toNat ∧ s.ch.capacity.toNat < s.ch.opA.toNat + s.ch.opB.toNat) where
  refuses := fun ⟨hlen, hout⟩ => ⟨_, by omega, ckRangeOp_refused hb hlen hout⟩
  answers hp := by
    have hs : spans s s.ch.opA.toNat s.ch.opB.toNat := by
      by_cases hlen : s.ch.opB.toNat = 0
      · exact .inl hlen
      · exact spans_of_bound hb (by omega)
    exact ⟨_, ckRangeOp_ok hs⟩

theorem encodeRequestOp_refusedExactly (hm : memWf s.mem) (hb : s.ch.bound) :
    RefusedExactly s (encodeRequestOp s) (s.ch.capacity.toNat < 16) where
  refuses hsmall := oob_bind (storeHeaders_oob hb hsmall)
  answers hp := by
    have h0 : spans s 0 16 := spans_of_bound hb (by omega)
    by_cases hbig : tooBig s
    · exact ⟨_, encodeRequestOp_tooBig hm hbig h0⟩
    · exact ⟨_, encodeRequestOp_fits hm hbig h0 (spans_of_bound hb (by unfold tooBig at hbig; omega))⟩

theorem decodeFrameHeaderOp_refusedExactly (hb : s.ch.bound) :
    RefusedExactly s (decodeFrameHeaderOp s) (s.ch.capacity.toNat < 14) where
  refuses := decodeFrameHeader_oob hb
  answers hp := ⟨_, decodeFrameHeaderOp_ok (spans_of_bound hb (Nat.not_lt.1 hp))⟩

theorem decodeFrameDataOp_refusedExactly (hb : s.ch.bound) : RefusedExactly s (decodeFrameDataOp s)
    (s.ch.lastError = 0 ∧ s.ch.capacity.toNat < 16 + s.ch.dataLen.toNat) where
  refuses := fun ⟨h0, hbig⟩ => decodeFrameData_oob hb h0 hbig
  answers hp := by
    by_cases h0 : s.ch.lastError = 0
    · have hfits : ¬ s.ch.capacity.toNat < 16 + s.ch.dataLen.toNat := fun hbig => hp ⟨h0, hbig⟩
      exact ⟨_, decodeFrameDataOp_ok h0 (spans_of_bound hb (by omega))⟩
    · exact ⟨_, decodeFrameDataOp_skip h0⟩

theorem encodeReadOp_refusedExactly (hb : s.ch.bound) :
    RefusedExactly s (encodeReadOp s) (s.ch.capacity.toNat < 24) where
  refuses := encodeReadOp_oob hb
  answers hp := ⟨_, encodeReadOp_ok (spans_of_bound hb (Nat.not_lt.1 hp))⟩

/-- A length that no register holds is refused before the buffer is looked at; this is the other case (R187). -/
theorem encodeWriteOp_refusedExactly (hb : s.ch.bound) (hlen : 10 + s.ch.valueLen.toNat < 4294967296) :
    RefusedExactly s (encodeWriteOp s) (s.ch.capacity.toNat < 24) where
  refuses := encodeWriteOp_oob hb hlen
  answers hp := ⟨_, encodeWriteOp_ok hlen (spans_of_bound hb (Nat.not_lt.1 hp))⟩

/-- An error response of any implied length (R196). -/
theorem errorResponse_refusedExactly (hb : s.ch.bound) :
    RefusedExactly s (errorResponse s (impliedLength s.ch)) (s.ch.dataLen.toNat = 12 ∧ s.ch.capacity.toNat < 26) where
  refuses := by
    rintro ⟨hlen, hsmall⟩
    rw [(impliedLength_eq_two s.ch).2 hlen]
    exact errorResponse_oob hb hsmall
  answers hp := by
    by_cases hlen : s.ch.dataLen.toNat = 12
    · rw [(impliedLength_eq_two s.ch).2 hlen]
      exact ⟨_, errorResponse_two (spans_of_bound hb (by omega))⟩
    · exact ⟨_, errorResponse_other (mt (impliedLength_eq_two s.ch).1 hlen)⟩

/-- A property decode that decodes an error response under the error flag, and answers without it (R198). -/
theorem propDecode_refusedExactly {r : Run State} (hb : s.ch.bound)
    (herror : s.ch.sfError = 1 → r = errorResponse s (impliedLength s.ch))
    (hother : s.ch.sfError ≠ 1 → ∃ t, r = .ok t) :
    RefusedExactly s r (s.ch.sfError = 1 ∧ s.ch.dataLen.toNat = 12 ∧ s.ch.capacity.toNat < 26) where
  refuses := by
    rintro ⟨he, hp⟩
    rw [herror he]
    exact (errorResponse_refusedExactly hb).refuses hp
  answers hp := by
    by_cases he : s.ch.sfError = 1
    · rw [herror he]
      exact (errorResponse_refusedExactly hb).answers fun h => hp ⟨he, h⟩
    · exact hother he

theorem decodeReadPropertyOp_refusedExactly (hb : s.ch.bound) (hd : s.ch.derived) :
    RefusedExactly s (decodeReadPropertyOp s)
      (s.ch.sfError = 1 ∧ s.ch.dataLen.toNat = 12 ∧ s.ch.capacity.toNat < 26) := by
  refine propDecode_refusedExactly hb decodeReadPropertyOp_error fun he => ?_
  by_cases hn : 0 ≤ impliedLength s.ch ∧ impliedLength s.ch ≤ valueMaxInt s.ch
  · obtain ⟨hmin, hmax⟩ := hn
    exact ⟨_, decodeReadPropertyOp_accepts he ⟨hmin, hmax⟩ (spans_propHeader hb hd (hmin.trans hmax))⟩
  · exact ⟨_, decodeReadPropertyOp_rejects he hn⟩

theorem decodeWritePropertyOp_refusedExactly (hb : s.ch.bound) (hd : s.ch.derived) :
    RefusedExactly s (decodeWritePropertyOp s)
      (s.ch.sfError = 1 ∧ s.ch.dataLen.toNat = 12 ∧ s.ch.capacity.toNat < 26) := by
  refine propDecode_refusedExactly hb decodeWritePropertyOp_error fun he => ?_
  by_cases hn : impliedLength s.ch = 0 ∧ 0 ≤ valueMaxInt s.ch
  · obtain ⟨hzero, hregion⟩ := hn
    exact ⟨_, decodeWritePropertyOp_accepts he hzero hregion (spans_propHeader hb hd hregion)⟩
  · exact ⟨_, decodeWritePropertyOp_rejects he hn⟩

/-! ### The operations that test a size first -/

/-- FRAME_INIT is refused exactly where the buffer runs past the top of `MEM` (R152). -/
theorem frameInitOp_refused_iff :
    (∃ e, outcome (frameInitOp s) = .refused e) ↔ memSize < s.ch.opA.toNat + s.ch.opB.toNat := by
  refine ⟨fun hr => ?_, fun hbig => ⟨_, congrArg outcome (frameInitOp_refused hbig)⟩⟩
  by_contra hfits
  exact not_refused_of_ok ⟨_, frameInitOp_ok (Nat.not_lt.1 hfits)⟩ hr

/-- ENCODE_WRITE leaves the buffer only where it gets past its length test (R187). -/
theorem encodeWriteOp_outOfBuffer_iff (hb : s.ch.bound) :
    (∃ k, s.ch.capacity.toNat ≤ k ∧ outcome (encodeWriteOp s) = .refused (.outOfBuffer k)) ↔
      10 + s.ch.valueLen.toNat < 4294967296 ∧ s.ch.capacity.toNat < 24 := by
  by_cases hlen : 10 + s.ch.valueLen.toNat < 4294967296
  · rw [(encodeWriteOp_refusedExactly hb hlen).outOfBuffer_iff, and_iff_right hlen]
  · rw [encodeWriteOp_refused (Nat.not_lt.1 hlen)]
    exact ⟨fun ⟨_, _, hk⟩ => (nomatch hk), fun ⟨hlt, _⟩ => absurd hlt hlen⟩

/-- ENCODE_WRITE is refused for its length or for its buffer (R187, R222). -/
theorem encodeWriteOp_refused_iff (hb : s.ch.bound) :
    (∃ e, outcome (encodeWriteOp s) = .refused e) ↔
      4294967296 ≤ 10 + s.ch.valueLen.toNat ∨ s.ch.capacity.toNat < 24 := by
  by_cases hlen : 10 + s.ch.valueLen.toNat < 4294967296
  · rw [(encodeWriteOp_refusedExactly hb hlen).refused_iff, or_iff_right (Nat.not_le.2 hlen)]
  · have hbig := Nat.not_lt.1 hlen
    exact ⟨fun _ => .inl hbig, fun _ => ⟨_, congrArg outcome (encodeWriteOp_refused hbig)⟩⟩

/-! ### The whole list -/

/-- From a state that meets the invariant no operation of the block faults (R210). -/
theorem exec_noFault (hs : s.Inv) (hop : isOperation i = true) : noFault (exec i s) := by
  obtain ⟨hb, hd⟩ := hs.selected
  cases i with
  | ckInit => exact trivial
  | ckUpdate => exact trivial
  | ckRange => exact (ckRangeOp_refusedExactly hb).noFault
  | frameInit =>
    by_cases hfits : s.ch.opA.toNat + s.ch.opB.toNat ≤ memSize
    · exact noFault_of_ok ⟨_, frameInitOp_ok hfits⟩
    · exact noFault_of_refuse (frameInitOp_refused (Nat.not_le.1 hfits))
  | encodeRequest => exact (encodeRequestOp_refusedExactly hs.memory hb).noFault
  | decodeFrameHeader => exact (decodeFrameHeaderOp_refusedExactly hb).noFault
  | decodeFrameData => exact (decodeFrameDataOp_refusedExactly hb).noFault
  | frameLength => exact trivial
  | propInit => exact trivial
  | encodeRead => exact (encodeReadOp_refusedExactly hb).noFault
  | encodeWrite =>
    by_cases hlen : 10 + s.ch.valueLen.toNat < 4294967296
    · exact (encodeWriteOp_refusedExactly hb hlen).noFault
    · exact noFault_of_refuse (encodeWriteOp_refused (Nat.not_lt.1 hlen))
  | decodeReadProperty => exact (decodeReadPropertyOp_refusedExactly hb hd).noFault
  | decodeWriteProperty => exact (decodeWritePropertyOp_refusedExactly hb hd).noFault
  | frameReadRequest | frameWriteRequest | frameReadResponse | frameWriteResponse | frameErrorResponse => cases hop

/-- CK_INIT, CK_UPDATE, FRAME_LENGTH and PROP_INIT answer from every state (R222). -/
theorem exec_never_refused (hi : i = .ckInit ∨ i = .ckUpdate ∨ i = .frameLength ∨ i = .propInit) :
    ¬ ∃ e, exec i s = .refused e := by
  rintro ⟨e, he⟩
  rcases hi with rfl | rfl | rfl | rfl <;> cases he

/-- Settles O41: operation by operation, where it leaves the buffer or is too large. -/
theorem refusalConditions : Obligations.RefusalConditions := by
  intro s hs refused outOfBuffer cap
  obtain ⟨hb, hd⟩ := hs.selected
  obtain ⟨hrange, hrange'⟩ := (ckRangeOp_refusedExactly hb).iffs
  obtain ⟨hrequest, hrequest'⟩ := (encodeRequestOp_refusedExactly hs.memory hb).iffs
  obtain ⟨hheader, hheader'⟩ := (decodeFrameHeaderOp_refusedExactly hb).iffs
  obtain ⟨hdata, hdata'⟩ := (decodeFrameDataOp_refusedExactly hb).iffs
  obtain ⟨hread, hread'⟩ := (encodeReadOp_refusedExactly hb).iffs
  refine ⟨fun i => exec_noFault hs,
    ⟨exec_never_refused (by decide), exec_never_refused (by decide), exec_never_refused (by decide),
      exec_never_refused (by decide)⟩,
    hrange, hrange', frameInitOp_refused_iff, hrequest, hrequest', hheader, hheader', hdata, hdata', hread, hread',
    encodeWriteOp_outOfBuffer_iff hb, encodeWriteOp_refused_iff hb, fun i hi => ?_⟩
  rcases hi with rfl | rfl
  · exact (decodeReadPropertyOp_refusedExactly hb hd).iffs
  · exact (decodeWritePropertyOp_refusedExactly hb hd).iffs

end Sys2Proof.Machine
end

section
/-! The idle step (O50) and the hardware reset of all channels (O54). -/

namespace Sys2Proof.Machine

variable {s : State}

/-! ### The access that a step takes -/

/-- With no access to come the block idles (R240, R246; log 8). -/
theorem fetch_idle (hin : s.inbox = []) : fetch s = .done (.ok s) := by
  rw [fetch, hin]

/-- The reset access is done at once, and the accesses after it stay (R240; log 17). -/
theorem fetch_reset {rest : List Access} (hin : s.inbox = .reset :: rest) :
    fetch s = .done (.ok (hardReset (s.setInbox rest))) := by
  rw [fetch, hin]
  rfl

/-- Settles O50: what is fetched is the state as it is. -/
theorem idleStepChangesNothing : Obligations.IdleStepChangesNothing :=
  fun _ hin => step_of_done (fetch_idle hin)

/-! ### The channels after a hardware reset -/

/-- The channels of a reset are numbered on, twenty draws each. -/
theorem resetChannels_append (d m n : Nat) :
    resetChannels d (m + n) = resetChannels d m ++ resetChannels (d + 20 * m) n := by
  induction m generalizing d with
  | zero => simp [resetChannels]
  | succ m ih =>
    have hdraws : d + 20 + 20 * m = d + 20 * (m + 1) := by omega
    rw [Nat.succ_add, resetChannels, resetChannels, ih, hdraws, List.cons_append]

/-- The hardware reset replaces every channel, below, at and above the selected one (R240). -/
theorem channels_hardReset (s : State) :
    (hardReset s).channels = resetChannels s.draws s.channels.length := by
  have hlen : s.channels.length = s.before.length + (s.after.length + 1) := by simp [State.channels]
  rw [hlen, resetChannels_append]
  rfl

theorem eq_resetChannel_of_mem {d n : Nat} {x : Channel} (hx : x ∈ resetChannels d n) :
    ∃ k, x = resetChannel k := by
  induction n generalizing d with
  | zero => cases hx
  | succ n ih =>
    rcases List.mem_cons.1 hx with rfl | htail
    · exact ⟨d, rfl⟩
    · exact ih htail

/-- The registers that R50 gives a value do not depend on the free values that the others take (log 17). -/
theorem resetChannel_values (d : Nat) :
    (resetChannel d).lastError = 0 ∧ (resetChannel d).ckA = 0xFF ∧ (resetChannel d).ckB = 0x00 ∧
      (resetChannel d).capacity = 0 ∧ (resetChannel d).valueMax.toInt = -24 ∧ (resetChannel d).phase = .new :=
  ⟨rfl, rfl, rfl, rfl, rfl, rfl⟩

/-- Settles O54: every channel is replaced by one that holds the values of R50. -/
theorem hardwareResetResult : Obligations.HardwareResetResult := by
  intro s rest hin
  refine ⟨hardReset (s.setInbox rest), step_of_done (fetch_reset hin), ?_, rfl, rfl, rfl, fun x hx => ?_⟩
  · rw [channels_hardReset, length_resetChannels]
    rfl
  · rw [channels_hardReset] at hx
    obtain ⟨d, rfl⟩ := eq_resetChannel_of_mem hx
    exact resetChannel_values d

end Sys2Proof.Machine
end
